-- ==== Sys2Proof/Word.lean ====
section
/-! DEFINITION. The widths of the block's data (spec/00_scope.md R7, R8), the record the node arena holds
(spec/10_state.md R30), and the plainest helpers on them. -/

namespace Sys2Proof

/-- A byte value, 0 to 255 (R7 `SYMBOL_BITS`). -/
abbrev Byte := BitVec 8

/-- A command word (R90; R7 `CMD_BITS`). -/
abbrev CommandWord := BitVec 16

/-- A count of the frequency table (R29; R7 `COUNT_BITS`). -/
abbrev Count := BitVec 32

/-- The frequency of a tree node (R30; R7 `NODE_FREQ_BITS`). -/
abbrev NodeFreq := BitVec 40

/-- An index into the node arena (R30; R7 `NODE_INDEX_BITS`). -/
abbrev NodeIndex := BitVec 9

/-- The stored field of a code (R31). -/
abbrev CodeField := BitVec 255

/-- An array with one element per byte value (R29, R31; R7 `ALPHABET`). -/
abbrev Table (α : Type) := Vector α 256

/-- A node of the tree: the "explicit two-variant tagged union" of R30. -/
inductive Node where
  | leaf (byte : Byte) (freq : NodeFreq)
  | internal (freq : NodeFreq) (left right : NodeIndex)
deriving DecidableEq, Repr, Inhabited

/-- The node arena `NODE[0..510]` (R30; R7 `MAX_NODES`). -/
abbrev Arena := Vector Node 511

end Sys2Proof
end

