-- ==== Sys2Proof/Syntax.lean ====
section
/-! DEFINITION. The twelve commands of HUFFCMD version 1 (spec/30_encoding.md R93, spec/opcode_table.json), and
a command as a source text writes it (R102). -/

namespace Sys2Proof

/-- The commands, one constructor per row of the opcode table, in its order. A format B command carries its
byte operand; a format N command carries nothing, since the low byte of its word is ignored (R94). -/
inductive Instr where
  /-- `RST` (R200). -/
  | rst
  /-- `CNT b` (R110). -/
  | cnt (b : Byte)
  /-- `CNTFIN` (R112). -/
  | cntfin
  /-- `MDRD b` (R186). -/
  | mdrd (b : Byte)
  /-- `BUILD` (R120). -/
  | build
  /-- `GEN` (R140). -/
  | gen
  /-- `MDWR` (R180). -/
  | mdwr
  /-- `EMIT b` (R150). -/
  | emit (b : Byte)
  /-- `FIN` (R155). -/
  | fin
  /-- `CONS p` (R165). -/
  | cons (p : Byte)
  /-- `END` (R203). -/
  | endSource
  /-- `SRCERR` (R206). -/
  | srcerr
deriving DecidableEq, Repr

/-- The mnemonics of R93. -/
inductive Mnemonic where
  | rst | cnt | cntfin | mdrd | build | gen | mdwr | emit | fin | cons | endSource | srcerr
deriving DecidableEq, Repr

/-- The two formats of R90: N without an operand, B with a byte operand. -/
inductive Format where
  | n
  | b
deriving DecidableEq, Repr

/-- A command as a source text writes it: a mnemonic and the number written after it, if any (R102). -/
structure SourceCommand where
  mnemonic : Mnemonic
  operand : Option Nat
deriving DecidableEq, Repr

end Sys2Proof
end

