-- ==== Sys2Proof/WellFormed.lean ====
section
/-! DEFINITION. What is well formed: a command (every operand value is legal, spec/30_encoding.md R91), a command
word (its opcode is not reserved, R95), and a command of a source text (its operand is there exactly when the
format has one, and is a byte value, R90, R102). -/

namespace Sys2Proof

/-- The format of each mnemonic (R90, R93). -/
def Mnemonic.format : Mnemonic → Format
  | .cnt | .mdrd | .emit | .cons => .b
  | .rst | .cntfin | .build | .gen | .mdwr | .fin | .endSource | .srcerr => .n

/-- The mnemonic of a command (R93). -/
def Instr.mnemonic : Instr → Mnemonic
  | .rst => .rst
  | .cnt _ => .cnt
  | .cntfin => .cntfin
  | .mdrd _ => .mdrd
  | .build => .build
  | .gen => .gen
  | .mdwr => .mdwr
  | .emit _ => .emit
  | .fin => .fin
  | .cons _ => .cons
  | .endSource => .endSource
  | .srcerr => .srcerr

/-- The operand of a command: the byte of a format B command, none in format N (R90, R91). -/
def Instr.operand : Instr → Option Byte
  | .cnt b | .mdrd b | .emit b | .cons b => some b
  | .rst | .cntfin | .build | .gen | .mdwr | .fin | .endSource | .srcerr => none

/-- A command is well formed when it has an operand exactly if its format is B. Every value of the operand is
legal (R91), so nothing more is asked. -/
def Instr.wellFormed (i : Instr) : Bool :=
  match i.mnemonic.format with
  | .b => i.operand.isSome
  | .n => i.operand.isNone

/-- A command word is well formed when its opcode, bits 15:8, is one of 0x01 to 0x0C (R93, R95). -/
def CommandWord.wellFormed (w : CommandWord) : Bool :=
  decide (0x01 ≤ (w.extractLsb' 8 8).toNat) && decide ((w.extractLsb' 8 8).toNat ≤ 0x0C)

/-- A command of a source text is well formed when format B has an operand from 0 to 255 and format N has none
(R102). -/
def SourceCommand.wellFormed (c : SourceCommand) : Bool :=
  match c.mnemonic.format, c.operand with
  | .b, some n => decide (n ≤ 255)
  | .b, none => false
  | .n, some _ => false
  | .n, none => true

end Sys2Proof
end

