-- ==== Sys2Proof/Decode.lean ====
section
/-! DEFINITION. The command word: its fields, the opcode map, the decoder and the encoder (spec/30_encoding.md R90
to R95). -/

namespace Sys2Proof

/-- Bits 15:8 of a command word, the field `op` (R90). -/
def CommandWord.op (w : CommandWord) : Byte := w.extractLsb' 8 8

/-- Bits 7:0 of a command word, the field `b` (R90). -/
def CommandWord.low (w : CommandWord) : Byte := w.extractLsb' 0 8

/-- One row of the opcode map: a word `w` is the command when `w &&& mask = pattern` (R93, where `pattern` is
called `match`); `build` makes the command from the low byte, which a format N row ignores (R94). -/
structure OpcodeRow where
  pattern : CommandWord
  mask : CommandWord
  build : Byte → Instr

/-- Whether a row claims a word (R93). -/
def OpcodeRow.claims (r : OpcodeRow) (w : CommandWord) : Bool := decide (w &&& r.mask = r.pattern)

/-- The opcode map (R93, opcode_table.json). -/
def opcodeMap : List OpcodeRow :=
  [ ⟨0x0100#16, 0xFF00#16, fun _ => .rst⟩,
    ⟨0x0200#16, 0xFF00#16, fun b => .cnt b⟩,
    ⟨0x0300#16, 0xFF00#16, fun _ => .cntfin⟩,
    ⟨0x0400#16, 0xFF00#16, fun b => .mdrd b⟩,
    ⟨0x0500#16, 0xFF00#16, fun _ => .build⟩,
    ⟨0x0600#16, 0xFF00#16, fun _ => .gen⟩,
    ⟨0x0700#16, 0xFF00#16, fun _ => .mdwr⟩,
    ⟨0x0800#16, 0xFF00#16, fun b => .emit b⟩,
    ⟨0x0900#16, 0xFF00#16, fun _ => .fin⟩,
    ⟨0x0A00#16, 0xFF00#16, fun b => .cons b⟩,
    ⟨0x0B00#16, 0xFF00#16, fun _ => .endSource⟩,
    ⟨0x0C00#16, 0xFF00#16, fun _ => .srcerr⟩ ]

/-- Why a word is no command. -/
inductive DecodeError where
  /-- The opcode is 0x00 or 0x0D to 0xFF (R95); the block raises `IllegalCommand` with it (R223). -/
  | reservedOpcode (op : Byte)
deriving DecidableEq, Repr

/-- The decoder: total over the 65536 words, a command or a refusal by name (R95). -/
def decode (w : CommandWord) : Except DecodeError Instr :=
  match opcodeMap.find? (fun r => r.claims w) with
  | some r => .ok (r.build w.low)
  | none => .error (.reservedOpcode w.op)

/-- The opcode of each command (R93). -/
def Instr.opcode : Instr → Byte
  | .rst => 0x01#8
  | .cnt _ => 0x02#8
  | .cntfin => 0x03#8
  | .mdrd _ => 0x04#8
  | .build => 0x05#8
  | .gen => 0x06#8
  | .mdwr => 0x07#8
  | .emit _ => 0x08#8
  | .fin => 0x09#8
  | .cons _ => 0x0A#8
  | .endSource => 0x0B#8
  | .srcerr => 0x0C#8

/-- The low byte an assembler writes: the operand, and 0 in format N (R94, R102). -/
def Instr.lowByte (i : Instr) : Byte := i.operand.getD 0#8

/-- The encoder: `(op << 8) | b` for format B and `op << 8` for format N (R90, R102). -/
def encode (i : Instr) : CommandWord := i.opcode ++ i.lowByte

/-- The command a source text's command stands for, when it is well formed (R102). -/
def SourceCommand.toInstr (c : SourceCommand) : Option Instr :=
  match c.mnemonic, c.wellFormed with
  | _, false => none
  | .rst, true => some .rst
  | .cnt, true => some (.cnt (BitVec.ofNat 8 (c.operand.getD 0)))
  | .cntfin, true => some .cntfin
  | .mdrd, true => some (.mdrd (BitVec.ofNat 8 (c.operand.getD 0)))
  | .build, true => some .build
  | .gen, true => some .gen
  | .mdwr, true => some .mdwr
  | .emit, true => some (.emit (BitVec.ofNat 8 (c.operand.getD 0)))
  | .fin, true => some .fin
  | .cons, true => some (.cons (BitVec.ofNat 8 (c.operand.getD 0)))
  | .endSource, true => some .endSource
  | .srcerr, true => some .srcerr

/-- What the decoder reads from an instruction of `nbits` bits `w`, numbered as the opcode table numbers them:
a command is one 16-bit word, presented whole (R66, R90), so the word is the number itself. -/
def decodeTableWord (nbits w : Nat) : Option Instr :=
  match decode (BitVec.ofNat 16 (w % 2 ^ nbits)) with
  | .ok i => some i
  | .error _ => none

end Sys2Proof
end

