-- ==== Sys2Proof/Config.lean ====
section
/-! DEFINITION. The parameters of spec/00_scope.md R7 the rules use, and the free values: contents the spec leaves
unspecified after a reset (spec/10_state.md R36, spec/93_implementation_defined.md U30, U31, U33). -/

namespace Sys2Proof.Config

/-- The sentinel byte value (R7 `SENTINEL`, R112). -/
abbrev sentinel : Byte := 24#8

/-- The largest legal count, 2^31 - 1 (R7 `COUNT_MAX`, R110). -/
abbrev countMax : Count := 0x7FFFFFFF#32

/-- The largest `size` the metadata reader accepts (R7 `MAX_SIZE_FIELD`, R189). -/
abbrev maxSizeField : Int := 256

/-- The size of the node arena (R7 `MAX_NODES`). -/
abbrev maxNodes : Nat := 511

/-- What `FREQ[b]` holds after restart number `n` (U30): nothing is known of it (log 3). -/
opaque freeFreq (n b : Nat) : Count

/-- What `NODE[i]` holds after restart number `n` (U31): nothing is known of it (log 3). -/
opaque freeNode (n i : Nat) : Node

/-- What `CLEN[b]` holds after restart number `n` (U33): nothing is known of it (log 3). -/
opaque freeClen (n b : Nat) : BitVec 8

/-- What `CODE[b]` holds after restart number `n` (U33): nothing is known of it (log 3). -/
opaque freeCode (n b : Nat) : CodeField

end Sys2Proof.Config
end

