-- ==== Sys2Proof/Machine/State.lean ====
section
/-! DEFINITION. The state of the block (spec/10_state.md R20 to R33), its value after reset (R36), and the reasons
for which a step of the model can stop. -/

namespace Sys2Proof.Machine

/-- The nine values of the sequencing register `PHASE` (R24). Values 9 to 15 never occur (log 6). -/
inductive Phase where
  | idle | count | mdread | table | tree | codes | pack | unpack | done
deriving DecidableEq, Repr

/-- The values of the register `FAULT` (R28, R215). Codes 8 to 15 never occur (log 6). -/
inductive FaultCode where
  | none | sourceUnreadable | malformedMetadata | emptyAlphabet | codeMissing | countOverflow
  | illegalSequence | illegalCommand
deriving DecidableEq, Repr

/-- What the host can do to the block at its inputs (R100, R255): present a command word, or assert the hardware
reset. -/
inductive HostInput where
  | command (w : CommandWord)
  | hardwareReset
deriving DecidableEq, Repr

/-- The state: the tuple of R20 under its own names, and two fields of the model's own, `pending` (log 1) and
`restarts` (log 5). -/
structure State where
  /-- `PHASE` (R24). -/
  phase : Phase
  /-- `FAULT` (R28). -/
  fault : FaultCode
  /-- `FINFO` (R28, R216). -/
  finfo : BitVec 8
  /-- `PRESENT[b]` (R29). -/
  present : Table Bool
  /-- `FREQ[b]` (R29). -/
  freq : Table Count
  /-- `NLEAF` (R21). -/
  nleaf : BitVec 9
  /-- `NODE[i]` (R30). -/
  node : Arena
  /-- `NNODES` (R21). -/
  nnodes : BitVec 10
  /-- `ROOT` (R23). -/
  root : NodeIndex
  /-- `CUR` (R23). -/
  cur : NodeIndex
  /-- `CVALID[b]` (R31). -/
  cvalid : Table Bool
  /-- `CLEN[b]` (R31). -/
  clen : Table (BitVec 8)
  /-- `CODE[b]` (R31). -/
  code : Table CodeField
  /-- `ACC` (R22). -/
  acc : BitVec 8
  /-- `NBITS` (R22). -/
  nbits : BitVec 4
  /-- `MDPOS` (R32). -/
  mdpos : BitVec 11
  /-- `MDSIZE` (R32). -/
  mdsize : BitVec 9
  /-- `MDCNT` (R32). -/
  mdcnt : BitVec 9
  /-- `MDKEY` (R32). -/
  mdkey : BitVec 8
  /-- `MDWORD` (R32). -/
  mdword : BitVec 32
  /-- `OUT`, oldest byte first (R33). -/
  out : List Byte
  /-- The model's own: the host's inputs still to come, the next one first (log 1). -/
  pending : List HostInput
  /-- The model's own: how many restarts there have been; it only picks the free values (log 5). -/
  restarts : Nat
deriving DecidableEq, Repr

/-- Where the model stops although the block's own faults never do (those are latched in `FAULT`, a next state). -/
inductive Fault where
  /-- Raised by `BUILD`, `GEN` and `CONS` when a node index is 511 or more: the arena is `NODE[0..510]` (R30), so
  there is no such node. Safe (log 8); no state that a run reaches raises it (R60, R126). -/
  | nodeOutsideArena (index : Nat)
  /-- Raised by `GEN` when a path from the root is longer than the arena has nodes, that is when the stored nodes are
  not a tree: "no failure modes beyond a malformed tree (not expected from the builder)" (R140, U15). Safe (log 9); no
  state that a run reaches raises it (R126). -/
  | malformedTree
deriving DecidableEq, Repr

/-- Why the model gives an instruction no meaning. -/
inductive Refusal where
  /-- Raised by `exec` for a command that has no meaning yet; every command has one, so nothing raises it. Safe. -/
  | notModelled (mnemonic : String)
deriving DecidableEq, Repr

/-- The state after hardware reset (R36, R245). The contents R36 leaves unspecified (`FREQ`, `NODE`, `CLEN`, `CODE`)
are zeros here by the model's choice (DESIGN CHOICE, log 4); the host has sent nothing (log 1). -/
def State.reset : State where
  phase := .idle
  fault := .none
  finfo := 0#8
  present := Vector.replicate 256 false
  freq := Vector.replicate 256 0#32
  nleaf := 0#9
  node := Vector.replicate 511 (.leaf 0#8 0#40)
  nnodes := 0#10
  root := 0#9
  cur := 0#9
  cvalid := Vector.replicate 256 false
  clen := Vector.replicate 256 0#8
  code := Vector.replicate 256 0#255
  acc := 0#8
  nbits := 0#4
  mdpos := 0#11
  mdsize := 0#9
  mdcnt := 0#9
  mdkey := 0#8
  mdword := 0#32
  out := []
  pending := []
  restarts := 0

end Sys2Proof.Machine
end

