-- ==== Sys2Proof/Machine/Ops.lean ====
section
/-! DEFINITION. The operations every command is written with: reading and writing the arrays (spec/20_memory.md R60),
the output (R63), raising a fault and the only way out of one (spec/60_exceptions.md R225, R228), the phase table
(spec/10_state.md R25) and the order in which a command is treated (spec/30_encoding.md R96). -/

namespace Sys2Proof

/-- `x[b]` of an array indexed by a byte value (R10, R60): an 8-bit index is always in range. -/
def Table.read {α : Type} (t : Table α) (b : Byte) : α := t[b.toNat]'b.isLt

/-- `x[b] <- v` (R10). -/
def Table.write {α : Type} (t : Table α) (b : Byte) (v : α) : Table α := t.set b.toNat v b.isLt

/-- `NODE[i]` (R10, R60); there is no node 511 (R30, log 8). -/
def Arena.read (a : Arena) (i : Nat) : Except Machine.Fault Node :=
  if h : i < Config.maxNodes then .ok (a[i]'h) else .error (.nodeOutsideArena i)

/-- `NODE[i] <- v` (R10, R60); there is no node 511 (R30, log 8). -/
def Arena.write (a : Arena) (i : Nat) (v : Node) : Except Machine.Fault Arena :=
  if h : i < Config.maxNodes then .ok (a.set i v h) else .error (.nodeOutsideArena i)

/-- The frequency of a node, leaf or internal (R30). -/
def Node.freq : Node → NodeFreq
  | .leaf _ f => f
  | .internal f _ _ => f

/-- `NODE[j].freq` (R30). -/
def Arena.freqAt (a : Arena) (j : Nat) : NodeFreq := (a[j]?.map Node.freq).getD 0#40

/-- Whether the pair `(NODE[j].freq, j)` is smaller than the pair of `k`: first by frequency as unsigned numbers, then
by index (R120, R122). -/
def Arena.before (a : Arena) (j k : Nat) : Bool :=
  (a.freqAt j).ult (a.freqAt k) || (a.freqAt j == a.freqAt k && decide (j < k))

end Sys2Proof

namespace Sys2Proof.Machine

/-- What a meaning answers. -/
abbrev Answer := Host.Outcome State Fault Refusal

/-- The answer of a computation that may meet a node that does not exist. -/
def answer : Except Fault State → Answer
  | .ok s => .next s
  | .error f => .fault f

/-- The byte values in ascending order, `for b in 0..255 ascending` (R10). -/
def ascendingBytes : List Byte := (List.range 256).map (BitVec.ofNat 8)

/-- The keys of the frequency table in ascending order (R29, R121, R181). -/
def State.keys (s : State) : List Byte := ascendingBytes.filter s.present.read

/-- `Out(v)` for each byte `v` of a list, in order (R63): each is appended at the end of `OUT`. -/
def outAll (vs : List Byte) (s : State) : State := { s with out := s.out ++ vs }

/-- `raise F(info)`: the fault is latched and nothing else is written (R225). -/
def raise (f : FaultCode) (info : Byte) (s : State) : State := { s with fault := f, finfo := info }

/-- The new run that `RST` and the hardware reset start (R200, R245): every piece of state takes its value in the
table of R36. What R36 leaves unspecified is a free value (log 3); the host's inputs are the host's. -/
def restart (s : State) : State :=
  { State.reset with
    freq := Vector.ofFn (fun b : Fin 256 => Config.freeFreq s.restarts b.val)
    node := Vector.ofFn (fun i : Fin 511 => Config.freeNode s.restarts i.val)
    clen := Vector.ofFn (fun b : Fin 256 => Config.freeClen s.restarts b.val)
    code := Vector.ofFn (fun b : Fin 256 => Config.freeCode s.restarts b.val)
    pending := s.pending
    restarts := s.restarts + 1 }

/-- Whether the phase table has an entry other than `X` for a command in a phase (R25). `RST` and `SRCERR` have one
in every phase. -/
def legalIn : Instr → Phase → Bool
  | .rst, _ => true
  | .cnt _, p => p == .idle || p == .count
  | .cntfin, p => p == .idle || p == .count
  | .mdrd _, p => p == .idle || p == .mdread
  | .build, p => p == .table
  | .gen, p => p == .tree
  | .mdwr, p => p == .codes
  | .emit _, p => p == .pack
  | .fin, p => p == .pack
  | .cons _, p => p == .tree || p == .codes || p == .unpack
  | .endSource, p => p == .idle || p == .mdread || p == .tree || p == .codes || p == .unpack
  | .srcerr, _ => true

/-- The treatment of a command other than `RST` (R96 steps 2, 5 and 6): a faulted block ignores it (R226), a command
the phase table forbids raises `IllegalSequence` with its opcode (R222, R216), and otherwise its own rule applies.
Step 4 is the own rule of `SRCERR`, which is legal in every phase. -/
def sequenced (i : Instr) (s : State) (own : State → Answer) : Answer :=
  if s.fault ≠ .none then .next s
  else if legalIn i s.phase then own s
  else .next (raise .illegalSequence i.opcode s)

/-- The treatment of a word with a reserved opcode (R96 steps 2 and 3): a faulted block ignores it, and otherwise it
raises `IllegalCommand` with the opcode (R95, R223). -/
def rejectReserved (op : Byte) (s : State) : State :=
  if s.fault ≠ .none then s else raise .illegalCommand op s

end Sys2Proof.Machine
end

