-- ==== Sys2Proof/Machine/Operands.lean ====
section
/-! DEFINITION. The forms in which operands and data appear: the bytes of a 32-bit integer (spec/00_scope.md R10
`le32`, spec/20_memory.md R64), its assembly and its sign (spec/30_encoding.md R92, R8 `signed32`), the bits of a
packed byte (R65) and the stored field of a code (spec/10_state.md R31). -/

namespace Sys2Proof.Machine

/-- `le32(v)`: the four bytes of a 32-bit value, least significant first (R10, R64). -/
def le32 (v : BitVec 32) : List Byte :=
  [v.extractLsb' 0 8, v.extractLsb' 8 8, v.extractLsb' 16 8, v.extractLsb' 24 8]

/-- `w` with bits `[8*k+7 : 8*k]` replaced by `b` (R92, R186). -/
def insertByte (w : BitVec 32) (k : Nat) (b : Byte) : BitVec 32 :=
  (w &&& ~~~(0xFF#32 <<< (8 * k))) ||| (b.zeroExtend 32 <<< (8 * k))

/-- `signed32(v)`: the two's-complement reading (R8). -/
def signed32 (v : BitVec 32) : Int := v.toInt

/-- The symbol a bit stands for, as a number of width `n`. -/
def bitValue (n : Nat) (s : Bool) : BitVec n := if s then 1#n else 0#n

/-- The stored field of a code given in reading order: symbol `k` is bit `CLEN - 1 - k`, and the bits at and above
`CLEN` are zero (R31). -/
def codeField (path : List Bool) : CodeField :=
  path.foldl (fun c s => (c <<< 1) ||| bitValue 255 s) 0#255

/-- The symbols of a stored code in reading order: symbol `k` is bit `CLEN - 1 - k` (R31). -/
def codeSymbols (len : BitVec 8) (field : CodeField) : List Bool :=
  (List.range len.toNat).map (fun k => field.getLsbD (len.toNat - 1 - k))

/-- The code of a byte value as the block holds it, in reading order (R31). -/
def State.codeOf (s : State) (b : Byte) : List Bool := codeSymbols (s.clen.read b) (s.code.read b)

end Sys2Proof.Machine
end

