-- ==== Sys2Proof/Machine/BitPacker.lean ====
section
/-! DEFINITION. The bit packer: `EMIT` and `FIN` (spec/43_bit_packer.md). -/

namespace Sys2Proof.Machine

/-- One code symbol enters the accumulator; the eighth flushes it (R150). -/
def packSymbol (s : State) (sym : Bool) : State :=
  let acc := (s.acc <<< 1) ||| bitValue 8 sym
  let nbits := s.nbits + 1#4
  if nbits = 8#4 then { outAll [acc] s with acc := 0#8, nbits := 0#4 }
  else { s with acc := acc, nbits := nbits }

/-- `EMIT b` (R150): appends the code of `b`, or raises `CodeMissing(b)` (R152). -/
def execEmit (b : Byte) (s : State) : Answer :=
  sequenced (.emit b) s fun s =>
    if s.cvalid.read b = false then .next (raise .codeMissing b s)
    else .next ((s.codeOf b).foldl packSymbol s)

/-- The held bits leave as the top of a last byte, zero padded (R155). -/
def flushBits (s : State) : State :=
  if s.nbits ≠ 0#4 then
    { outAll [s.acc <<< (8 - s.nbits.toNat)] s with acc := 0#8, nbits := 0#4 }
  else s

/-- `FIN` (R155): flushes the last partial byte and ends the encode run. -/
def execFin (s : State) : Answer :=
  sequenced .fin s fun s => .next { flushBits s with phase := .done }

end Sys2Proof.Machine
end

