-- ==== Sys2Proof/Machine/BitUnpacker.lean ====
section
/-! DEFINITION. The bit unpacker: `CONS` (spec/44_bit_unpacker.md). -/

namespace Sys2Proof.Machine

/-- Step 1: a leaf that is pending in `CUR` is emitted and the walk returns to the root (R165, R166). -/
def emitPending (s : State) : Except Fault State :=
  (s.node.read s.cur.toNat).map fun
    | .leaf b _ => { outAll [b] s with cur := s.root }
    | .internal _ _ _ => s

/-- Step 3: descend right on 1 and left on 0; a leaf, which only a one-leaf tree has here, stays (R165, R167). -/
def descend (bit : Bool) (s : State) : Except Fault State :=
  (s.node.read s.cur.toNat).map fun
    | .leaf _ _ => s
    | .internal _ l r => { s with cur := if bit then r else l }

/-- The automaton takes one bit (R165). -/
def takeBit (bit : Bool) (s : State) : Except Fault State := (emitPending s).bind (descend bit)

/-- The automaton takes the top `n` bits of `w`, most significant first (R165). -/
def takeBits : (n : Nat) → (w : Byte) → State → Except Fault State
  | 0, _, s => .ok s
  | n + 1, w, s => (takeBit w.msb s).bind (takeBits n (w <<< 1))

/-- `CONS p` (R165): feeds one packed byte to the decoder automaton. -/
def execCons (p : Byte) (s : State) : Answer :=
  sequenced (.cons p) s fun s => answer ((takeBits 8 p s).map fun s => { s with phase := .unpack })

end Sys2Proof.Machine
end

