-- ==== Sys2Proof/Machine/CodeTable.lean ====
section
/-! DEFINITION. The code table generator: `GEN` (spec/42_code_table.md). -/

namespace Sys2Proof.Machine

/-- The leaves below node `i` with their paths, in the order the walk visits them: '0' for left, '1' for right (R140).
A path of more than `depth` edges is the sign of a malformed tree (log 9). -/
def walk (a : Arena) : (depth : Nat) → (i : Nat) → (path : List Bool) → Except Fault (List (Byte × List Bool))
  | depth, i, path =>
    match a.read i with
    | .error e => .error e
    | .ok (.leaf b _) => .ok [(b, path)]
    | .ok (.internal _ l r) =>
      match depth with
      | 0 => .error .malformedTree
      | d + 1 =>
        (walk a d l.toNat (path ++ [false])).bind fun ls =>
        (walk a d r.toNat (path ++ [true])).map fun rs => ls ++ rs

/-- The leaves of the tree with their paths from the root: the arena has 511 nodes, so no path of a tree has more
edges (R140, R141). -/
def State.leafPaths (s : State) : Except Fault (List (Byte × List Bool)) :=
  walk s.node Config.maxNodes s.root.toNat []

/-- A leaf's entry of the code table is written (R140, R31). -/
def recordCode (s : State) (entry : Byte × List Bool) : State :=
  { s with
    code := s.code.write entry.1 (codeField entry.2)
    clen := s.clen.write entry.1 (BitVec.ofNat 8 entry.2.length)
    cvalid := s.cvalid.write entry.1 true }

/-- `CVALID[b] <- 0` for all `b` (R140). -/
def clearCodes (s : State) : State := { s with cvalid := Vector.replicate 256 false }

/-- `GEN` in phase `TREE` (R140). -/
def generateCodes (s : State) : Except Fault State :=
  s.leafPaths.map fun entries => { entries.foldl recordCode (clearCodes s) with phase := .codes }

/-- `GEN` (R140): derives the code table from the tree. -/
def execGen (s : State) : Answer := sequenced .gen s fun s => answer (generateCodes s)

end Sys2Proof.Machine
end

