-- ==== Sys2Proof/Machine/FrequencyCounter.lean ====
section
/-! DEFINITION. The frequency counter: `CNT` and `CNTFIN` (spec/40_frequency_counter.md). -/

namespace Sys2Proof.Machine

/-- One more occurrence of `b` in the frequency table, or `CountOverflow(b)` when its count is full, with nothing else
written (R110, R112, R221). The phase the command ends in is `p`. -/
def countOne (b : Byte) (p : Phase) (s : State) : State :=
  if s.present.read b = false then
    { s with
      present := s.present.write b true
      freq := s.freq.write b 1#32
      nleaf := s.nleaf + 1#9
      phase := p }
  else if s.freq.read b = Config.countMax then raise .countOverflow b s
  else { s with freq := s.freq.write b (s.freq.read b + 1#32), phase := p }

/-- `CNT b` (R110): counts one occurrence of `b`. -/
def execCnt (b : Byte) (s : State) : Answer :=
  sequenced (.cnt b) s fun s => .next (countOne b .count s)

/-- `CNTFIN` (R112): counts the sentinel once and closes the table. -/
def execCntfin (s : State) : Answer :=
  sequenced .cntfin s fun s => .next (countOne Config.sentinel .table s)

end Sys2Proof.Machine
end

