-- ==== Sys2Proof/Machine/MetadataCodec.lean ====
section
/-! DEFINITION. The metadata codec: `MDRD` and `MDWR` (spec/45_metadata_codec.md). -/

namespace Sys2Proof.Machine

/-- The entry of the metadata block for a key: the key and its count (R67, R180). -/
def metadataEntry (s : State) (b : Byte) : List Byte := b :: le32 (s.freq.read b)

/-- The metadata block of the frequency table: the size and the entries in ascending key order (R69, R180, R181). -/
def State.metadataBlock (s : State) : List Byte :=
  le32 (s.nleaf.zeroExtend 32) ++ s.keys.flatMap (metadataEntry s)

/-- `MDWR` (R180): writes the metadata block of the frequency table. -/
def execMdwr (s : State) : Answer :=
  sequenced .mdwr s fun s => .next { outAll s.metadataBlock s with phase := .pack }

/-- `MDRD` of a byte of the size field, `MDPOS` = 0 to 3 (R186). -/
def readSizeByte (b : Byte) (s : State) : State :=
  let w := insertByte s.mdword s.mdpos.toNat b
  if s.mdpos = 3#11 then
    if signed32 w < 0 then raise .malformedMetadata 1#8 s
    else if signed32 w > Config.maxSizeField then raise .malformedMetadata 2#8 s
    else
      { s with
        mdsize := w.extractLsb' 0 9
        phase := if w = 0#32 then .table else .mdread
        mdword := w
        mdpos := s.mdpos + 1#11 }
  else { s with phase := .mdread, mdword := w, mdpos := s.mdpos + 1#11 }

/-- `MDRD` of the key byte of an entry (R186). -/
def readKeyByte (b : Byte) (s : State) : State :=
  if s.present.read b then raise .malformedMetadata 3#8 s
  else { s with mdkey := b, mdword := 0#32, mdpos := s.mdpos + 1#11 }

/-- `MDRD` of count byte `k - 1` of an entry, `k` = 1 to 4; the fourth stores the entry, and the last entry closes the
table (R186). -/
def readCountByte (k : Nat) (b : Byte) (s : State) : State :=
  let w := insertByte s.mdword (k - 1) b
  if k = 4 then
    if signed32 w < 0 then raise .malformedMetadata 4#8 s
    else
      { s with
        freq := s.freq.write s.mdkey w
        present := s.present.write s.mdkey true
        nleaf := s.nleaf + 1#9
        mdcnt := s.mdcnt + 1#9
        phase := if s.mdcnt + 1#9 = s.mdsize then .table else s.phase
        mdword := w
        mdpos := s.mdpos + 1#11 }
  else { s with mdword := w, mdpos := s.mdpos + 1#11 }

/-- The metadata reader takes the next byte: the size field first, then entries of five bytes (R32, R186). -/
def readMetadata (b : Byte) (s : State) : State :=
  if s.mdpos.toNat < 4 then readSizeByte b s
  else if (s.mdpos.toNat - 4) % 5 = 0 then readKeyByte b s
  else readCountByte ((s.mdpos.toNat - 4) % 5) b s

/-- `MDRD b` (R186): gives the metadata reader the next byte of an encoded stream. -/
def execMdrd (b : Byte) (s : State) : Answer :=
  sequenced (.mdrd b) s fun s => .next (readMetadata b s)

end Sys2Proof.Machine
end

