-- ==== Sys2Proof/Machine/RunControl.lean ====
section
/-! DEFINITION. Run control: `RST`, `END` and `SRCERR` (spec/46_run_control.md). -/

namespace Sys2Proof.Machine

/-- `RST` (R200): starts a new run, in every phase and also while faulted (R96 step 1, R228). -/
def execRst (s : State) : Answer := .next (restart s)

/-- `END` (R203): the encoded source is exhausted; inside or before the metadata block that is
`MalformedMetadata(5)` (R204), and otherwise the run ends with no flush (R205). -/
def execEndSource (s : State) : Answer :=
  sequenced .endSource s fun s =>
    if s.phase = .idle ∨ s.phase = .mdread then .next (raise .malformedMetadata 5#8 s)
    else .next { s with phase := .done }

/-- `SRCERR` (R206): the host could not open or read its source. -/
def execSrcerr (s : State) : Answer :=
  sequenced .srcerr s fun s => .next (raise .sourceUnreadable 0#8 s)

end Sys2Proof.Machine
end

