-- ==== Sys2Proof/Machine/TreeBuilder.lean ====
section
/-! DEFINITION. The tree builder: `BUILD` (spec/41_tree_builder.md). -/

namespace Sys2Proof.Machine

/-- The working state of `BUILD` (R35, R120): the arena, the number of nodes in it, and the set `LIVE` of nodes not yet
merged, as a list without repeats. -/
structure Forest where
  node : Arena
  nnodes : Nat
  live : List Nat
deriving DecidableEq, Repr

/-- The element of `LIVE` with the smallest pair (R120, R122). -/
def Forest.least (f : Forest) : Option Nat :=
  match f.live with
  | [] => none
  | j :: js => some (js.foldl (fun m k => if f.node.before k m then k else m) j)

/-- `LIVE <- LIVE without j`. -/
def Forest.without (f : Forest) (j : Nat) : Forest := { f with live := f.live.erase j }

/-- One pass of the greedy merge: the two smallest live nodes become the left and the right child of a new node (R120
step 2, R125). Nothing is left to do when fewer than two nodes are live. -/
def Forest.merge (f : Forest) : Except Fault Forest :=
  match f.least with
  | none => .ok f
  | some a =>
    match (f.without a).least with
    | none => .ok f
    | some c =>
      match f.node.write f.nnodes
          (.internal (f.node.freqAt a + f.node.freqAt c) (BitVec.ofNat 9 a) (BitVec.ofNat 9 c)) with
      | .error e => .error e
      | .ok node =>
        .ok { node := node, nnodes := f.nnodes + 1, live := ((f.without a).without c).live ++ [f.nnodes] }

/-- `k` passes of the greedy merge. -/
def Forest.mergeTimes : Nat → Forest → Except Fault Forest
  | 0, f => .ok f
  | k + 1, f => f.merge.bind (Forest.mergeTimes k)

/-- `NODE[i], NODE[i+1], … <- ` the nodes of a list. -/
def placeNodes (a : Arena) : Nat → List Node → Except Fault Arena
  | _, [] => .ok a
  | i, n :: ns => (a.write i n).bind fun a => placeNodes a (i + 1) ns

/-- The leaf of a table entry (R120 step 1). -/
def leafOf (s : State) (b : Byte) : Node := .leaf b ((s.freq.read b).zeroExtend 40)

/-- The forest of leaves `BUILD` starts from: one leaf per table entry, in ascending byte order (R120 step 1, R121). -/
def leafForest (s : State) : Except Fault Forest :=
  (placeNodes s.node 0 (s.keys.map (leafOf s))).map fun node =>
    { node := node, nnodes := s.nleaf.toNat, live := List.range s.nleaf.toNat }

/-- The greedy merge run to its end: `LIVE` loses one element a pass, so `NLEAF - 1` passes leave one (R126 item 1). -/
def huffmanForest (s : State) : Except Fault Forest :=
  (leafForest s).bind (Forest.mergeTimes (s.nleaf.toNat - 1))

/-- `BUILD` in phase `TABLE` (R120): the arena, the root and the unpacker's position. -/
def buildTree (s : State) : Except Fault State :=
  (huffmanForest s).map fun f =>
    { s with
      node := f.node
      nnodes := BitVec.ofNat 10 f.nnodes
      root := BitVec.ofNat 9 (f.live.headD 0)
      cur := BitVec.ofNat 9 (f.live.headD 0)
      phase := .tree }

/-- `BUILD` (R120): builds the Huffman tree of the frequency table; an empty table raises `EmptyAlphabet` (R123). -/
def execBuild (s : State) : Answer :=
  sequenced .build s fun s =>
    if s.nleaf = 0#9 then .next (raise .emptyAlphabet 0#8 s) else answer (buildTree s)

end Sys2Proof.Machine
end

