-- ==== Sys2Proof/Machine/Dispatch.lean ====
section
/-! DEFINITION. The dispatch: one arm per command of spec/opcode_table.json. -/

namespace Sys2Proof.Machine

/-- What each command does. -/
def exec (i : Instr) (s : State) : Host.Outcome State Fault Refusal :=
  match i with
  | .rst => Sys2Proof.Machine.execRst s
  | .cnt b => Sys2Proof.Machine.execCnt b s
  | .cntfin => Sys2Proof.Machine.execCntfin s
  | .mdrd b => Sys2Proof.Machine.execMdrd b s
  | .build => Sys2Proof.Machine.execBuild s
  | .gen => Sys2Proof.Machine.execGen s
  | .mdwr => Sys2Proof.Machine.execMdwr s
  | .emit b => Sys2Proof.Machine.execEmit b s
  | .fin => Sys2Proof.Machine.execFin s
  | .cons p => Sys2Proof.Machine.execCons p s
  | .endSource => Sys2Proof.Machine.execEndSource s
  | .srcerr => Sys2Proof.Machine.execSrcerr s

end Sys2Proof.Machine
end

