-- ==== Sys2Proof/Machine/Accept.lean ====
section
/-! DEFINITION. Taking the host's inputs: a command word (spec/30_encoding.md R96), a hardware reset
(spec/70_reset_and_hazards.md R245), and a sequence of command words (spec/20_memory.md R70). -/

namespace Sys2Proof.Machine

/-- The block treats an accepted command word (R96): a word that decodes is executed, and one with a reserved opcode is
rejected. -/
def acceptWord (w : CommandWord) (s : State) : Answer :=
  match decode w with
  | .ok i => exec i s
  | .error (.reservedOpcode op) => .next (rejectReserved op s)

/-- The block takes one input of the host. -/
def acceptInput (x : HostInput) (s : State) : Answer :=
  match x with
  | .command w => acceptWord w s
  | .hardwareReset => .next (restart s)

/-- The next input of the host, if any, is taken; with none the block waits and nothing changes (R236, log 2). -/
def takeInput (s : State) : Answer :=
  match s.pending with
  | [] => .next s
  | x :: rest => acceptInput x { s with pending := rest }

end Sys2Proof.Machine
end

