-- ==== Sys2Proof/Machine/Step.lean ====
section
/-! DEFINITION. One step of the machine, and the placing of a command where the next step takes it. -/

namespace Sys2Proof.Machine

/-- One step: the block takes the host's next input and treats it (spec/20_memory.md R70). -/
def step (s : State) : Host.Outcome State Fault Refusal := takeInput s

/-- `s` with the command word of number `w` presented to the block next, before whatever the host sends after it
(spec/30_encoding.md R90; log 1). -/
def State.withFetchWord (s : State) (nbits w : Nat) : State :=
  { s with pending := .command (BitVec.ofNat 16 (w % 2 ^ nbits)) :: s.pending }

end Sys2Proof.Machine
end

