-- ==== Sys2Proof/Machine/Assembler.lean ====
section
/-! DEFINITION. The assembler syntax (spec/30_encoding.md R102): a line of source text, given as its ASCII codes, is a
mnemonic, for format B one operand, and a comment after `;`. What R102 leaves open is log 16. -/

namespace Sys2Proof.Machine

/-- A line of source text as ASCII codes. -/
abbrev SourceText := List Nat

/-- Why a line is not a command. -/
inductive AsmError where
  /-- The first word is none of the twelve mnemonics (R93). -/
  | unknownMnemonic
  /-- The operand is not a number and not one quoted character (R102). -/
  | badOperand
  /-- An operand is missing, is above 255, or stands after a format N mnemonic (R90, R102). -/
  | illFormed
deriving DecidableEq, Repr

/-- White space inside a line: the space and the tabulator (log 16). -/
def isBlank (c : Nat) : Bool := c == 32 || c == 9

/-- The ASCII codes of each mnemonic (R93). -/
def mnemonicText : Mnemonic → SourceText
  | .rst => [82, 83, 84]
  | .cnt => [67, 78, 84]
  | .cntfin => [67, 78, 84, 70, 73, 78]
  | .mdrd => [77, 68, 82, 68]
  | .build => [66, 85, 73, 76, 68]
  | .gen => [71, 69, 78]
  | .mdwr => [77, 68, 87, 82]
  | .emit => [69, 77, 73, 84]
  | .fin => [70, 73, 78]
  | .cons => [67, 79, 78, 83]
  | .endSource => [69, 78, 68]
  | .srcerr => [83, 82, 67, 69, 82, 82]

/-- The twelve mnemonics in opcode order (R93). -/
def allMnemonics : List Mnemonic :=
  [.rst, .cnt, .cntfin, .mdrd, .build, .gen, .mdwr, .emit, .fin, .cons, .endSource, .srcerr]

/-- The value of a hexadecimal digit, either case (log 16). -/
def hexDigit (c : Nat) : Option Nat :=
  if 48 ≤ c ∧ c ≤ 57 then some (c - 48)
  else if 65 ≤ c ∧ c ≤ 70 then some (c - 55)
  else if 97 ≤ c ∧ c ≤ 102 then some (c - 87)
  else none

/-- The number a list of digits of a base stands for. -/
def digitsValue (base : Nat) (cs : SourceText) : Option Nat :=
  match cs with
  | [] => none
  | _ => cs.foldlM (fun n c => (hexDigit c).bind fun d => if d < base then some (base * n + d) else none) 0

/-- An operand: a quoted character, a hexadecimal number after `0x`, or a decimal number (R102). -/
def operandValue (cs : SourceText) : Option Nat :=
  match cs with
  | [39, c, 39] => if c < 128 then some c else none
  | 48 :: 120 :: ds => digitsValue 16 ds
  | ds => digitsValue 10 ds

/-- A line up to its comment: a `;` starts one, except as the quoted character `';'` (R102). -/
def withoutComment : SourceText → SourceText
  | [] => []
  | 39 :: c :: 39 :: cs => 39 :: c :: 39 :: withoutComment cs
  | c :: cs => if c == 59 then [] else c :: withoutComment cs

/-- A line without the white space at its two ends. -/
def trimmed (cs : SourceText) : SourceText :=
  ((cs.dropWhile isBlank).reverse.dropWhile isBlank).reverse

/-- The source command a line holds; none for a line that is blank or only a comment (R102). -/
def parseLine (line : SourceText) : Except AsmError (Option SourceCommand) :=
  let text := trimmed (withoutComment line)
  let word := text.takeWhile fun c => !isBlank c
  let rest := trimmed (text.drop word.length)
  if text.isEmpty then .ok none
  else
    match allMnemonics.find? (fun m => mnemonicText m == word) with
    | none => .error .unknownMnemonic
    | some m =>
      if rest.isEmpty then .ok (some ⟨m, none⟩)
      else
        match operandValue rest with
        | none => .error .badOperand
        | some n => .ok (some ⟨m, some n⟩)

/-- The command word a line assembles to; none for a line that holds no command (R102). -/
def assembleLine (line : SourceText) : Except AsmError (Option CommandWord) :=
  match parseLine line with
  | .error e => .error e
  | .ok none => .ok none
  | .ok (some c) =>
    match c.toInstr with
    | none => .error .illFormed
    | some i => .ok (some (encode i))

/-- A source text, one line a command (R102). -/
def assemble (lines : List SourceText) : Except AsmError (List CommandWord) :=
  (lines.mapM assembleLine).map fun ws => ws.filterMap id

/-- A command as the assembler writes it, with its operand in decimal (R102). -/
def render (i : Instr) : SourceText :=
  match i.operand with
  | none => mnemonicText i.mnemonic
  | some b => mnemonicText i.mnemonic ++ [32] ++ (Nat.toDigits 10 b.toNat).map Char.toNat

end Sys2Proof.Machine
end

