-- ==== Sys2Proof/Machine/Flags.lean ====
section
/-! DEFINITION. The block has no condition codes and no arithmetic flags (spec/10_state.md R26). What the host reads
is the register `STATUS` (R27), a live view of four registers. -/

namespace Sys2Proof.Machine

/-- The value of `PHASE` (R24). -/
def phaseCode : Phase → BitVec 4
  | .idle => 0#4
  | .count => 1#4
  | .mdread => 2#4
  | .table => 3#4
  | .tree => 4#4
  | .codes => 5#4
  | .pack => 6#4
  | .unpack => 7#4
  | .done => 8#4

/-- The value of `FAULT` (R215). -/
def faultValue : FaultCode → BitVec 4
  | .none => 0#4
  | .sourceUnreadable => 1#4
  | .malformedMetadata => 2#4
  | .emptyAlphabet => 3#4
  | .codeMissing => 4#4
  | .countOverflow => 5#4
  | .illegalSequence => 6#4
  | .illegalCommand => 7#4

/-- `STATUS` (R27): `PHASE` in bits 3:0, `FAULT` in 7:4, `FINFO` in 15:8, `NLEAF` in 24:16, zero in 31:25. -/
def State.status (s : State) : BitVec 32 :=
  0#7 ++ s.nleaf ++ s.finfo ++ faultValue s.fault ++ phaseCode s.phase

end Sys2Proof.Machine
end

