-- ==== Sys2Proof/Machine/Sequences.lean ====
section
/-! DEFINITION. What the host sends: the pseudo-instructions (spec/30_encoding.md R103) and the two canonical
sequences, encode (R104) and decode (R105), the second of which watches `STATUS`. -/

namespace Sys2Proof.Machine

/-- An answer's state handed on; a stop stays a stop. -/
def andThen {α β : Type} (x : Host.Outcome α Fault Refusal) (f : α → Host.Outcome β Fault Refusal) :
    Host.Outcome β Fault Refusal :=
  match x with
  | .next a => f a
  | .fault r => .fault r
  | .refused r => .refused r

/-- A command sequence: "the fold of the command rules over the sequence, in order" (R70). -/
def execAll : List Instr → State → Answer
  | [], s => .next s
  | i :: is, s => andThen (exec i s) (execAll is)

/-- `CNTS x` (R103). -/
def cnts (x : List Byte) : List Instr := x.map .cnt

/-- `EMITS x` (R103). -/
def emits (x : List Byte) : List Instr := x.map .emit

/-- `MDRDS y` (R103). -/
def mdrds (y : List Byte) : List Instr := y.map .mdrd

/-- `CONSS y` (R103). -/
def conss (y : List Byte) : List Instr := y.map .cons

/-- `ENCODE x` (R104). -/
def encodeSequence (x : List Byte) : List Instr :=
  [.rst] ++ cnts x ++ [.cntfin, .build, .gen, .mdwr] ++ emits x ++ [.fin]

/-- The field `PHASE` of `STATUS` (R27). -/
def State.statusPhase (s : State) : BitVec 4 := s.status.extractLsb' 0 4

/-- The field `FAULT` of `STATUS` (R27). -/
def State.statusFault (s : State) : BitVec 4 := s.status.extractLsb' 4 4

/-- The host's first loop of R105: it sends `MDRD` while bytes are left, `STATUS.PHASE` is IDLE or MDREAD and
`STATUS.FAULT` is 0. It keeps the bytes not sent. -/
def feedMetadata : List Byte → State → Host.Outcome (State × List Byte) Fault Refusal
  | [], s => .next (s, [])
  | b :: bs, s =>
    if (s.statusPhase = phaseCode .idle ∨ s.statusPhase = phaseCode .mdread) ∧ s.statusFault = 0#4 then
      andThen (exec (.mdrd b) s) (feedMetadata bs)
    else .next (s, b :: bs)

/-- The host after its first loop (R105): `END` when `STATUS.PHASE` is not TABLE, and otherwise `BUILD`, `CONS` for the
bytes left, and `END`. -/
def finishDecode (s : State) (rest : List Byte) : Answer :=
  if s.statusPhase ≠ phaseCode .table then exec .endSource s
  else execAll ([.build] ++ conss rest ++ [.endSource]) s

/-- `DECODE y` (R105). -/
def decodeRun (y : List Byte) (s : State) : Answer :=
  andThen (exec .rst s) fun s => andThen (feedMetadata y s) fun p => finishDecode p.1 p.2

end Sys2Proof.Machine
end

