-- ==== Sys2Proof/Safety.lean ====
section
/-! DEFINITION. What a safe state and a safe run are: the invariants of spec/10_state.md R37, the shape of the tree
(spec/41_tree_builder.md R126), the code table of a tree (spec/42_code_table.md R142), and the end of a run. -/

namespace Sys2Proof

/-- Whether node `i` is Internal with two different children of smaller index whose frequencies it sums (R126 item 4,
R125). -/
def Arena.joinsSmaller (a : Arena) (i : Nat) : Bool :=
  match a[i]? with
  | some (.internal f l r) =>
    decide (l.toNat < i) && decide (r.toNat < i) && decide (l ≠ r) && decide (f = a.freqAt l.toNat + a.freqAt r.toNat)
  | some (.leaf _ _) => false
  | none => false

/-- Whether node `j` is a child of node `i` (R126 item 4). -/
def Arena.isChild (a : Arena) (i j : Nat) : Bool :=
  match a[i]? with
  | some (.internal _ l r) => decide (l.toNat = j) || decide (r.toNat = j)
  | some (.leaf _ _) => false
  | none => false

/-- Node `j` was in `LIVE` when node `i` was made: it was there, and no earlier node had it as a child (R120). -/
def Arena.liveAt (a : Arena) (i j : Nat) : Prop := j < i ∧ ∀ m < i, a.isChild m j = false

/-- Node `i` joined the two smallest pairs of `LIVE`, the smallest on the left (R120, R122, R125). -/
def Arena.joinsLeast (a : Arena) (i : Nat) : Prop :=
  ∃ f l r, a[i]? = some (.internal f l r) ∧ a.liveAt i l.toNat ∧ a.liveAt i r.toNat ∧ l ≠ r ∧
    ∀ j, a.liveAt i j →
      (j ≠ l.toNat → a.before l.toNat j = true) ∧ (j ≠ l.toNat → j ≠ r.toNat → a.before r.toNat j = true)

/-- The node a path leads to: left on 0, right on 1 (R140, R165). -/
def Arena.follow (a : Arena) : (i : Nat) → (path : List Bool) → Option Nat
  | i, [] => some i
  | i, b :: bs =>
    match a[i]? with
    | some (.internal _ l r) => a.follow (if b then r.toNat else l.toNat) bs
    | some (.leaf _ _) => none
    | none => none

/-- The byte of a leaf, if the node is one (R30). -/
def Arena.leafByte (a : Arena) (i : Nat) : Option Byte :=
  match a[i]? with
  | some (.leaf b _) => some b
  | some (.internal _ _ _) => none
  | none => none

namespace Machine

/-- A run that has ended well: `STATUS.PHASE` = DONE with `STATUS.FAULT` = 0 (spec/93_implementation_defined.md U13). -/
def State.completed (s : State) : Prop := s.phase = .done ∧ s.fault = .none

/-- The values R36 gives for reset and `RST`: every row of its table but the contents it leaves unspecified (`FREQ`,
`NODE`, `CLEN`, `CODE`). -/
structure State.AtReset (s : State) : Prop where
  phase : s.phase = .idle
  fault : s.fault = .none
  finfo : s.finfo = 0#8
  present : ∀ b, s.present.read b = false
  nleaf : s.nleaf = 0#9
  nnodes : s.nnodes = 0#10
  root : s.root = 0#9
  cur : s.cur = 0#9
  cvalid : ∀ b, s.cvalid.read b = false
  acc : s.acc = 0#8
  nbits : s.nbits = 0#4
  mdpos : s.mdpos = 0#11
  mdsize : s.mdsize = 0#9
  mdcnt : s.mdcnt = 0#9
  mdkey : s.mdkey = 0#8
  mdword : s.mdword = 0#32
  out : s.out = []
  status : s.status = 0#32

/-- R37 items 1 and 2: `NLEAF` counts the present keys, and a present key's count is at most 2^31 - 1. -/
structure State.TableOk (s : State) : Prop where
  nleaf_eq : s.nleaf.toNat = s.keys.length
  count_le : ∀ b : Byte, s.present.read b = true → (s.freq.read b).toNat ≤ Config.countMax.toNat

/-- R37 item 5: the packer holds at most seven bits, below `2^NBITS`, and nothing outside phase PACK. -/
structure State.PackerOk (s : State) : Prop where
  nbits_le : s.nbits.toNat ≤ 7
  acc_lt : s.acc.toNat < 2 ^ s.nbits.toNat
  idle : s.phase ≠ .pack → s.nbits = 0#4 ∧ s.acc = 0#8

/-- R37 item 6, with what it rests on: where the metadata reader stands in phases IDLE and MDREAD (R24, R32, R186). -/
structure State.ReaderOk (s : State) : Prop where
  fresh : s.phase = .idle → s.mdpos = 0#11 ∧ s.mdcnt = 0#9 ∧ s.keys = []
  started : s.phase = .mdread → 1 ≤ s.mdpos.toNat
  in_size : s.phase = .mdread → s.mdpos.toNat < 4 → s.mdcnt = 0#9
  in_entries : s.phase = .mdread → 4 ≤ s.mdpos.toNat →
    s.mdsize.toNat ≤ 256 ∧ s.mdpos.toNat < 4 + 5 * s.mdsize.toNat ∧ s.mdcnt.toNat = (s.mdpos.toNat - 4) / 5
  key_new : s.phase = .mdread → 4 ≤ s.mdpos.toNat → (s.mdpos.toNat - 4) % 5 ≠ 0 → s.present.read s.mdkey = false

/-- The tree of R126 items 2 to 5: the leaves of the present keys in ascending order, then the internal nodes, every
node but the root the child of exactly one of them, the root last. -/
structure State.TreeOk (s : State) : Prop where
  leaf_pos : 1 ≤ s.nleaf.toNat
  nnodes_eq : s.nnodes.toNat = 2 * s.nleaf.toNat - 1
  root_eq : s.root.toNat = s.nnodes.toNat - 1
  leaves : ∀ i < s.nleaf.toNat, s.node[i]? = s.keys[i]?.map (leafOf s)
  internals : ∀ i < s.nnodes.toNat, s.nleaf.toNat ≤ i → s.node.joinsSmaller i = true
  parents : ∀ j < s.nnodes.toNat - 1,
    ∃ i < s.nnodes.toNat, s.node.isChild i j = true ∧ ∀ k < s.nnodes.toNat, s.node.isChild k j = true → k = i

/-- The code table of the tree (R142 items 1 and 2): the bytes with a code are the keys of the table, and each leaf's
byte has the path from the root to the leaf as its code. -/
structure State.CodesOk (s : State) : Prop where
  valid : s.cvalid = s.present
  paths : ∃ entries, s.leafPaths = .ok entries ∧ entries.Perm (s.keys.map fun b => (b, s.codeOf b))

/-- The phases a run reaches only through a successful `BUILD` (R25). -/
def Phase.hasTree : Phase → Bool
  | .tree | .codes | .pack | .unpack | .done => true
  | .idle | .count | .mdread | .table => false

/-- The phases a run reaches only through `GEN` and in which the code table is read (R25). -/
def Phase.hasCodes : Phase → Bool
  | .codes | .pack => true
  | .idle | .count | .mdread | .table | .tree | .unpack | .done => false

/-- The invariants of R37. -/
structure State.Inv (s : State) : Prop where
  table : s.TableOk
  packer : s.PackerOk
  reader : s.ReaderOk
  tree : s.phase.hasTree = true → s.TreeOk ∧ s.cur.toNat < s.nnodes.toNat
  codes : s.phase.hasCodes = true → s.CodesOk

/-- Two states that differ at most in contents the spec leaves unspecified (spec/93_implementation_defined.md U30, U31,
U33) and in the counter that picks free values: `FREQ` of absent keys, nodes from `NNODES` on, codes of bytes without
one. -/
structure State.SameSpecified (s t : State) : Prop where
  rest : t = { s with freq := t.freq, node := t.node, clen := t.clen, code := t.code, restarts := t.restarts }
  freq : ∀ b, s.present.read b = true → t.freq.read b = s.freq.read b
  node : ∀ i < s.nnodes.toNat, t.node[i]? = s.node[i]?
  clen : ∀ b, s.cvalid.read b = true → t.clen.read b = s.clen.read b
  code : ∀ b, s.cvalid.read b = true → t.code.read b = s.code.read b

/-- The metadata block of a list of entries, in the order given (spec/20_memory.md R69). -/
def blockOf (entries : List (Byte × Count)) : List Byte :=
  le32 (BitVec.ofNat 32 entries.length) ++ entries.flatMap fun e => e.1 :: le32 e.2

/-- A list of entries that is a table: at least one, no key twice, counts from 0 to 2^31 - 1 (spec/10_state.md R29).
At most 256 entries can have different keys. -/
def IsTable (entries : List (Byte × Count)) : Prop :=
  entries ≠ [] ∧ (entries.map Prod.fst).Nodup ∧ ∀ e ∈ entries, e.2.toNat < 2 ^ 31

/-- The path from `ROOT` leads to the leaf of the byte `b` (R142 item 2). -/
def State.leadsTo (s : State) (path : List Bool) (b : Byte) : Prop :=
  ∃ j, s.node.follow s.root.toNat path = some j ∧ s.node.leafByte j = some b

/-- Bits split greedily into codes of the tree, each with the byte of its leaf, until fewer bits remain than complete a
code (spec/44_bit_unpacker.md R170). -/
structure State.Splits (s : State) (bits : List Bool) (codes : List (Byte × List Bool)) (rest : List Bool) : Prop where
  bits_eq : bits = codes.flatMap Prod.snd ++ rest
  is_code : ∀ c ∈ codes, s.leadsTo c.2 c.1
  no_more : ∀ path b, path <+: rest → ¬ s.leadsTo path b

/-- The number of pad bits of a payload of `len` symbols (spec/43_bit_packer.md R157). -/
def padBits (len : Nat) : Nat := (8 - len % 8) % 8

/-- The bits of a packed byte in stream order, most significant first (spec/20_memory.md R65). -/
def bitsOf (v : Byte) : List Bool := (List.range 8).map fun k => v.getLsbD (7 - k)

/-- The bits of a packed byte sequence in stream order (spec/20_memory.md R65). -/
def bitStream (vs : List Byte) : List Bool := vs.flatMap bitsOf

/-- The symbols the packer holds, earliest first: the low `NBITS` bits of `ACC`, earliest highest
(spec/43_bit_packer.md R154). -/
def State.held (s : State) : List Bool :=
  (List.range s.nbits.toNat).map fun k => s.acc.getLsbD (s.nbits.toNat - 1 - k)

end Machine

end Sys2Proof
end

