-- ==== Sys2Proof/Certificates/Slice0/Obligations.lean ====
section
/-! DEFINITION. The statements for the provers. Each docstring names the rule of spec/ it formalises. -/

open Sys2Proof Sys2Proof.Machine

/-! ### Encoding -/

/-- Decoding the word of a well-formed command gives it back, with its operand, and the word is well formed (R90, R93,
R102). -/
def Obligations.DecodeEncodeRoundTrip : Prop :=
  ∀ i : Instr, i.wellFormed = true → decode (encode i) = .ok i ∧ CommandWord.wellFormed (encode i) = true

/-- A word decodes to a command exactly when its bits 15:8 are the command's opcode and, in format B, its bits 7:0 the
operand: "In a format N command the low byte `b` is ignored: all 256 values select the same command with the same
effect. An assembler writes 0 there." (R90, R94). -/
def Obligations.DecodeReadsOpcodeAndOperand : Prop :=
  (∀ (w : CommandWord) (i : Instr),
    decode w = .ok i ↔ w.extractLsb' 8 8 = i.opcode ∧ ∀ b, i.operand = some b → w.extractLsb' 0 8 = b) ∧
  ∀ i : Instr, i.operand = none → (encode i).extractLsb' 0 8 = 0#8

/-- "every one of the 65536 words is either one of the twelve commands or `IllegalCommand`": opcodes 0x00 and 0x0D to
0xFF raise it with `FINFO` = the opcode and no other effect (R95, R223). -/
def Obligations.EveryWordIsCommandOrIllegal : Prop :=
  ∀ w : CommandWord,
    ((w.extractLsb' 8 8).toNat = 0 ∨ 0x0D ≤ (w.extractLsb' 8 8).toNat →
      ∀ s : State, s.fault = .none →
        acceptWord w s = .next { s with fault := .illegalCommand, finfo := w.extractLsb' 8 8 }) ∧
    (1 ≤ (w.extractLsb' 8 8).toNat ∧ (w.extractLsb' 8 8).toNat ≤ 0x0C →
      ∃ i, decode w = .ok i ∧ ∀ s : State, acceptWord w s = exec i s)

/-- One word of every command, written out from the opcode map, decodes to it (R93, R102). -/
def Obligations.SpecWordsDecode : Prop :=
  decode 0x0100#16 = .ok .rst ∧ decode 0x0261#16 = .ok (.cnt 97#8) ∧ decode 0x0300#16 = .ok .cntfin ∧
  decode 0x0418#16 = .ok (.mdrd 24#8) ∧ decode 0x0500#16 = .ok .build ∧ decode 0x0600#16 = .ok .gen ∧
  decode 0x0700#16 = .ok .mdwr ∧ decode 0x0861#16 = .ok (.emit 97#8) ∧ decode 0x0900#16 = .ok .fin ∧
  decode 0x0AF0#16 = .ok (.cons 0xF0#8) ∧ decode 0x0B00#16 = .ok .endSource ∧ decode 0x0C00#16 = .ok .srcerr ∧
  decode 0x0000#16 = .error (.reservedOpcode 0#8) ∧ decode 0x0D00#16 = .error (.reservedOpcode 0x0D#8)

/-- The text of a command, its operand in decimal, assembles to its word (R102; white space as log 16 says). -/
def Obligations.AssembledTextGivesWord : Prop :=
  ∀ i : Instr, assembleLine (render i) = .ok (some (encode i))

/-! ### The step and the host's inputs -/

/-- A step takes the host's next input from the line and treats it, whatever it is, and the rest of the line stays: a
word is accepted (a reserved one too), a word that decodes to `i` is `exec i`, and a hardware reset is what `RST` does
(R70, R96, R245; the line is the model's, log 1). -/
def Obligations.StepRunsDecodedCommand : Prop :=
  ∀ (s : State) (x : HostInput) (rest : List HostInput), s.pending = x :: rest →
    step s = acceptInput x { s with pending := rest } ∧ (∀ t, step s = .next t → t.pending = rest) ∧
    (∀ w, x = .command w → step s = acceptWord w { s with pending := rest }) ∧
    (∀ w i, x = .command w → decode w = .ok i → step s = exec i { s with pending := rest }) ∧
    (x = .hardwareReset → step s = exec .rst { s with pending := rest })

/-- "waiting changes nothing": with no input of the host the step leaves the state as it is (R236, log 2). -/
def Obligations.WaitingChangesNothing : Prop :=
  ∀ s : State, s.pending = [] → step s = .next s

/-- A hardware reset puts every piece of state at its value in the table of R36, in every state: "The command `RST` has
the identical effect" (R245). -/
def Obligations.HardwareResetActsAsRst : Prop :=
  ∀ s : State, acceptInput .hardwareReset s = exec .rst s ∧
    ∃ t, acceptInput .hardwareReset s = .next t ∧ t.AtReset

/-- `RST`, in every phase and also while faulted, puts every piece of state at its value in the table of R36, and the
reset state has those values (R36, R200). -/
def Obligations.RstGivesResetValues : Prop :=
  State.reset.AtReset ∧ ∀ s : State, ∃ t, exec .rst s = .next t ∧ t.AtReset

/-- The fields of `STATUS` are copies of the registers named, and the reserved field reads as 0 (R27); the nine codes of
`PHASE` are those of R24, and the eight of `FAULT` those of R215. -/
def Obligations.StatusShowsRegisters : Prop :=
  (∀ s : State,
    s.status.extractLsb' 0 4 = phaseCode s.phase ∧ s.status.extractLsb' 4 4 = faultValue s.fault ∧
    s.status.extractLsb' 8 8 = s.finfo ∧ s.status.extractLsb' 16 9 = s.nleaf ∧ s.status.extractLsb' 25 7 = 0#7) ∧
  (phaseCode .idle = 0#4 ∧ phaseCode .count = 1#4 ∧ phaseCode .mdread = 2#4 ∧ phaseCode .table = 3#4 ∧
    phaseCode .tree = 4#4 ∧ phaseCode .codes = 5#4 ∧ phaseCode .pack = 6#4 ∧ phaseCode .unpack = 7#4 ∧
    phaseCode .done = 8#4) ∧
  (faultValue .none = 0#4 ∧ faultValue .sourceUnreadable = 1#4 ∧ faultValue .malformedMetadata = 2#4 ∧
    faultValue .emptyAlphabet = 3#4 ∧ faultValue .codeMissing = 4#4 ∧ faultValue .countOverflow = 5#4 ∧
    faultValue .illegalSequence = 6#4 ∧ faultValue .illegalCommand = 7#4)

/-! ### Faults and the order of treatment -/

/-- While `FAULT` is not 0 every word whose opcode is not that of `RST` is ignored (R96 step 2, R226). -/
def Obligations.FaultedBlockIgnoresCommands : Prop :=
  ∀ (s : State) (w : CommandWord), s.fault ≠ .none → w.extractLsb' 8 8 ≠ 0x01#8 → acceptWord w s = .next s

/-- A command in a phase where R25 has `X` raises `IllegalSequence` with its opcode and changes nothing else (R222,
R25). -/
def Obligations.IllegalSequenceIsRaised : Prop :=
  ∀ (s : State), s.fault = .none →
    (∀ b, s.phase ∉ [.idle, .count] →
      exec (.cnt b) s = .next { s with fault := .illegalSequence, finfo := 0x02#8 }) ∧
    (s.phase ∉ [.idle, .count] →
      exec .cntfin s = .next { s with fault := .illegalSequence, finfo := 0x03#8 }) ∧
    (∀ b, s.phase ∉ [.idle, .mdread] →
      exec (.mdrd b) s = .next { s with fault := .illegalSequence, finfo := 0x04#8 }) ∧
    (s.phase ≠ .table → exec .build s = .next { s with fault := .illegalSequence, finfo := 0x05#8 }) ∧
    (s.phase ≠ .tree → exec .gen s = .next { s with fault := .illegalSequence, finfo := 0x06#8 }) ∧
    (s.phase ≠ .codes → exec .mdwr s = .next { s with fault := .illegalSequence, finfo := 0x07#8 }) ∧
    (∀ b, s.phase ≠ .pack → exec (.emit b) s = .next { s with fault := .illegalSequence, finfo := 0x08#8 }) ∧
    (s.phase ≠ .pack → exec .fin s = .next { s with fault := .illegalSequence, finfo := 0x09#8 }) ∧
    (∀ p, s.phase ∉ [.tree, .codes, .unpack] →
      exec (.cons p) s = .next { s with fault := .illegalSequence, finfo := 0x0A#8 }) ∧
    (s.phase ∈ [.count, .table, .pack, .done] →
      exec .endSource s = .next { s with fault := .illegalSequence, finfo := 0x0B#8 })

/-- The phase after a command that raises no fault is the entry of R25; `MDRD` leaves TABLE "when the block is
complete", that is when its size field is read and as many entries as the size are stored (R25, R186). The premise is
the invariant of R37. -/
def Obligations.PhaseFollowsTable : Prop :=
  ∀ (i : Instr) (s t : State), s.Inv → s.fault = .none → exec i s = .next t → t.fault = .none →
    match i with
    | .rst => t.phase = .idle
    | .cnt _ => s.phase ∈ [.idle, .count] ∧ t.phase = .count
    | .cntfin => s.phase ∈ [.idle, .count] ∧ t.phase = .table
    | .mdrd _ => s.phase ∈ [.idle, .mdread] ∧
        t.phase = if 4 ≤ t.mdpos.toNat ∧ t.mdcnt = t.mdsize then .table else .mdread
    | .build => s.phase = .table ∧ t.phase = .tree
    | .gen => s.phase = .tree ∧ t.phase = .codes
    | .mdwr => s.phase = .codes ∧ t.phase = .pack
    | .emit _ => s.phase = .pack ∧ t.phase = .pack
    | .fin => s.phase = .pack ∧ t.phase = .done
    | .cons _ => s.phase ∈ [.tree, .codes, .unpack] ∧ t.phase = .unpack
    | .endSource => s.phase ∈ [.tree, .codes, .unpack] ∧ t.phase = .done
    | .srcerr => False

/-- Faults are precise: "the state after a faulting command is the state before it with only `FAULT` and `FINFO`
changed" (R225). Every command word is covered, those with a reserved opcode too. -/
def Obligations.FaultsArePrecise : Prop :=
  ∀ (w : CommandWord) (s t : State), s.fault = .none → acceptWord w s = .next t → t.fault ≠ .none →
    t = { s with fault := t.fault, finfo := t.finfo }

/-- Which command raises which fault and for what cause, and what `FINFO` records of it, for every command word (R215,
R216, R218). -/
def Obligations.FaultInformation : Prop :=
  ∀ (w : CommandWord) (s t : State), s.fault = .none → acceptWord w s = .next t →
    match t.fault with
    | .none => True
    | .sourceUnreadable => decode w = .ok .srcerr ∧ t.finfo = 0#8
    | .malformedMetadata =>
        (∃ b, decode w = .ok (.mdrd b)) ∧ t.finfo ∈ [1#8, 2#8, 3#8, 4#8] ∨ decode w = .ok .endSource ∧ t.finfo = 5#8
    | .emptyAlphabet => decode w = .ok .build ∧ s.nleaf = 0#9 ∧ t.finfo = 0#8
    | .codeMissing => decode w = .ok (.emit t.finfo) ∧ s.cvalid.read t.finfo = false
    | .countOverflow =>
        (decode w = .ok (.cnt t.finfo) ∨ decode w = .ok .cntfin ∧ t.finfo = 24#8) ∧
          s.freq.read t.finfo = 0x7FFFFFFF#32
    | .illegalSequence =>
        (∃ i, decode w = .ok i ∧ i ≠ .rst ∧ i ≠ .srcerr ∧ legalIn i s.phase = false) ∧ t.finfo = w.extractLsb' 8 8
    | .illegalCommand => (∀ i, decode w ≠ .ok i) ∧ t.finfo = w.extractLsb' 8 8

/-- "There is no return-from-fault command and no nesting": only a hardware reset or a word with the opcode of `RST` can
change `FAULT` or `FINFO` of a faulted block (R28, R228). -/
def Obligations.FaultStaysUntilRestart : Prop :=
  ∀ (x : HostInput) (s t : State), acceptInput x s = .next t → s.fault ≠ .none →
    (t.fault = s.fault ∧ t.finfo = s.finfo) ∨ x = .hardwareReset ∨
    ∃ w, x = .command w ∧ w.extractLsb' 8 8 = 0x01#8

/-! ### The frequency counter -/

/-- `CNT b` (R110): the first occurrence makes `b` a key with count 1, a later one adds 1 to its count, and a full
count raises `CountOverflow(b)`. Nothing else changes. -/
def Obligations.CntCountsOneOccurrence : Prop :=
  ∀ (b : Byte) (s : State), s.fault = .none → s.phase ∈ [.idle, .count] →
    (s.present.read b = false →
      ∃ t, exec (.cnt b) s = .next t ∧
        t = { s with present := t.present, freq := t.freq, nleaf := s.nleaf + 1#9, phase := .count } ∧
        t.present.read b = true ∧ t.freq.read b = 1#32 ∧
        ∀ c, c ≠ b → t.present.read c = s.present.read c ∧ t.freq.read c = s.freq.read c) ∧
    (s.present.read b = true → s.freq.read b ≠ 0x7FFFFFFF#32 →
      ∃ t, exec (.cnt b) s = .next t ∧ t = { s with freq := t.freq, phase := .count } ∧
        t.freq.read b = s.freq.read b + 1#32 ∧ ∀ c, c ≠ b → t.freq.read c = s.freq.read c) ∧
    (s.present.read b = true → s.freq.read b = 0x7FFFFFFF#32 →
      exec (.cnt b) s = .next { s with fault := .countOverflow, finfo := b })

/-- `CNTFIN` (R112): the sentinel 24 is counted once and the table is closed; a full count raises
`CountOverflow(24)`. Nothing else changes. -/
def Obligations.CntfinCountsSentinel : Prop :=
  ∀ s : State, s.fault = .none → s.phase ∈ [.idle, .count] →
    (s.present.read 24#8 = false →
      ∃ t, exec .cntfin s = .next t ∧
        t = { s with present := t.present, freq := t.freq, nleaf := s.nleaf + 1#9, phase := .table } ∧
        t.present.read 24#8 = true ∧ t.freq.read 24#8 = 1#32 ∧
        ∀ c, c ≠ 24#8 → t.present.read c = s.present.read c ∧ t.freq.read c = s.freq.read c) ∧
    (s.present.read 24#8 = true → s.freq.read 24#8 ≠ 0x7FFFFFFF#32 →
      ∃ t, exec .cntfin s = .next t ∧ t = { s with freq := t.freq, phase := .table } ∧
        t.freq.read 24#8 = s.freq.read 24#8 + 1#32 ∧ ∀ c, c ≠ 24#8 → t.freq.read c = s.freq.read c) ∧
    (s.present.read 24#8 = true → s.freq.read 24#8 = 0x7FFFFFFF#32 →
      exec .cntfin s = .next { s with fault := .countOverflow, finfo := 24#8 })

/-- After the `CNT` commands of an input from a fresh run, exactly the input's byte values are keys, each count is the
number of occurrences, and `NLEAF` is the number of distinct byte values (R111). No byte value occurs more than
2^31 - 1 times, that is, no count overflows. -/
def Obligations.CountingGivesOccurrences : Prop :=
  ∀ (x : List Byte) (s : State), s.Inv → s.fault = .none → s.phase = .idle → (∀ b, x.count b < 2 ^ 31) →
    ∃ t, execAll (cnts x) s = .next t ∧ t.fault = .none ∧
      (∀ b, t.present.read b = decide (b ∈ x)) ∧ (∀ b ∈ x, (t.freq.read b).toNat = x.count b) ∧
      t.nleaf.toNat = x.dedup.length

/-- After `CNTFIN` the sentinel is a key with a count of at least 1, every key has a count of at least 1, the counts sum
to one more than the input has bytes, and a `BUILD` that follows raises no fault (R113). No count overflows. -/
def Obligations.SentinelIsAlwaysCounted : Prop :=
  ∀ (x : List Byte) (s : State), s.Inv → s.fault = .none → s.phase = .idle →
    (∀ b, (24#8 :: x).count b < 2 ^ 31) →
    ∃ t, execAll (cnts x ++ [.cntfin]) s = .next t ∧ t.fault = .none ∧ t.phase = .table ∧
      t.present.read 24#8 = true ∧ 1 ≤ t.nleaf.toNat ∧
      (∀ b, t.present.read b = true → 1 ≤ (t.freq.read b).toNat) ∧
      (t.keys.map fun b => (t.freq.read b).toNat).sum = x.length + 1 ∧
      ∃ u, exec .build t = .next u ∧ u.fault = .none

/-! ### The tree builder -/

/-- `BUILD` of a table with at least one entry makes the strict binary tree of R126: the leaves of the keys in
ascending order with their counts, internal nodes that sum their two smaller children, every node but the root the child
of exactly one of them, `ROOT` = `CUR` the last node. Nothing else changes (R120, R126). -/
def Obligations.BuildMakesStrictTree : Prop :=
  ∀ s : State, s.TableOk → s.fault = .none → s.phase = .table → s.nleaf ≠ 0#9 →
    ∃ t, exec .build s = .next t ∧ t.TreeOk ∧ t.cur = t.root ∧
      t = { s with node := t.node, nnodes := t.nnodes, root := t.root, cur := t.cur, phase := .tree }

/-- Every internal node joins the two smallest pairs (freq, index) of the nodes not yet merged when it is made, the
smallest as its left child (R120, R122, R125). -/
def Obligations.BuildJoinsSmallestPairs : Prop :=
  ∀ s t : State, s.TableOk → s.fault = .none → s.phase = .table → s.nleaf ≠ 0#9 → exec .build s = .next t →
    ∀ i, t.nleaf.toNat ≤ i → i < t.nnodes.toNat → t.node.joinsLeast i

/-- "sum of all leaf frequencies in the built tree equals the sum of all table frequency values, and equals the root's
frequency", exactly and not modulo a width; and internal nodes are made in non-decreasing order of frequency (R126 items
6 and 7, R125). -/
def Obligations.BuildConservesFrequency : Prop :=
  ∀ s t : State, s.TableOk → s.fault = .none → s.phase = .table → s.nleaf ≠ 0#9 → exec .build s = .next t →
    (t.node.freqAt t.root.toNat).toNat = (s.keys.map fun b => (s.freq.read b).toNat).sum ∧
    ((List.range s.nleaf.toNat).map fun i => (t.node.freqAt i).toNat).sum =
      (s.keys.map fun b => (s.freq.read b).toNat).sum ∧
    ∀ i, t.nleaf.toNat ≤ i → i + 1 < t.nnodes.toNat →
      (t.node.freqAt i).toNat ≤ (t.node.freqAt (i + 1)).toNat

/-- `BUILD` with an empty table raises `EmptyAlphabet(0)` and writes nothing else (R123, R219). -/
def Obligations.BuildOfEmptyTableFaults : Prop :=
  ∀ s : State, s.fault = .none → s.phase = .table → s.nleaf = 0#9 →
    exec .build s = .next { s with fault := .emptyAlphabet, finfo := 0#8 }

/-- `BUILD` is a function of the table alone: two states with the same keys and the same counts of the keys get the same
nodes, `NNODES` and `ROOT` (R130). -/
def Obligations.BuildDependsOnTableOnly : Prop :=
  ∀ s s' : State, s.TableOk → s'.TableOk → s.fault = .none → s'.fault = .none → s.phase = .table →
    s'.phase = .table → s.nleaf ≠ 0#9 → s'.present = s.present →
    (∀ b, s.present.read b = true → s'.freq.read b = s.freq.read b) →
    ∃ t t', exec .build s = .next t ∧ exec .build s' = .next t' ∧ t'.nnodes = t.nnodes ∧ t'.root = t.root ∧
      ∀ i < t.nnodes.toNat, t'.node[i]? = t.node[i]?

/-! ### The code table -/

/-- `GEN` gives a code to exactly the keys of the table, and each key's code is the path from `ROOT` to its leaf, 0 for
left and 1 for right, stored with zeros above its symbols; the codes of other bytes and everything else stay (R140, R142
items 1 and 2, R31). -/
def Obligations.GenRecordsPathsToLeaves : Prop :=
  ∀ s : State, s.TableOk → s.TreeOk → s.fault = .none → s.phase = .tree →
    ∃ t, exec .gen s = .next t ∧
      t = { s with cvalid := t.cvalid, clen := t.clen, code := t.code, phase := .codes } ∧
      (∀ b, t.cvalid.read b = s.present.read b) ∧
      (∀ b, s.present.read b = true →
        (∃ j, s.node.follow s.root.toNat (t.codeOf b) = some j ∧ s.node.leafByte j = some b) ∧
        ∀ k, (t.clen.read b).toNat ≤ k → (t.code.read b).getLsbD k = false) ∧
      ∀ b, s.present.read b = false → t.clen.read b = s.clen.read b ∧ t.code.read b = s.code.read b

/-- With two leaves or more the codes are prefix-free and complete: no key's code is a prefix of another's, and every
bit sequence of 255 bits or more begins with exactly one key's code (R142 items 3 and 4). -/
def Obligations.CodesArePrefixFreeAndComplete : Prop :=
  ∀ s : State, s.Inv → s.phase ∈ [.codes, .pack] → 2 ≤ s.nleaf.toNat →
    (∀ b c, s.present.read b = true → s.present.read c = true → b ≠ c → ¬ s.codeOf b <+: s.codeOf c) ∧
    ∀ bits : List Bool, 255 ≤ bits.length → ∃! b, s.present.read b = true ∧ s.codeOf b <+: bits

/-- No code is longer than `NLEAF` - 1 symbols, so at most 255; with one leaf the code is empty, with more none is
(R131, R143). -/
def Obligations.CodeLengthsAreBounded : Prop :=
  ∀ (s : State) (b : Byte), s.Inv → s.phase ∈ [.codes, .pack] → s.present.read b = true →
    (s.codeOf b).length ≤ s.nleaf.toNat - 1 ∧ (s.codeOf b).length ≤ 255 ∧
    (s.nleaf.toNat = 1 → s.codeOf b = []) ∧ (2 ≤ s.nleaf.toNat → s.codeOf b ≠ [])

/-! ### The metadata codec -/

/-- Four bytes put in one after the other, the first operand least significant, give back the integer they were split
from, whatever the register held (R64, R92). -/
def Obligations.IntegerBytesRoundTrip : Prop :=
  ∀ v w : BitVec 32, ∃ b₀ b₁ b₂ b₃, le32 v = [b₀, b₁, b₂, b₃] ∧
    v.toNat = b₀.toNat + 2 ^ 8 * b₁.toNat + 2 ^ 16 * b₂.toNat + 2 ^ 24 * b₃.toNat ∧
    insertByte (insertByte (insertByte (insertByte w 0 b₀) 1 b₁) 2 b₂) 3 b₃ = v

/-- `MDWR` writes `NLEAF` and then each key with its count, in ascending order of the keys, integers little-endian:
exactly 4 + 5 * `NLEAF` bytes; nothing but `OUT` and `PHASE` changes (R180, R181, R69). -/
def Obligations.MdwrWritesMetadataBlock : Prop :=
  ∀ s : State, s.fault = .none → s.phase = .codes →
    exec .mdwr s = .next { s with out := s.out ++ s.metadataBlock, phase := .pack } ∧
    s.metadataBlock = le32 (s.nleaf.zeroExtend 32) ++ s.keys.flatMap (fun b => b :: le32 (s.freq.read b)) ∧
    s.keys.Pairwise (fun b c => b.toNat < c.toNat) ∧ (∀ b, b ∈ s.keys ↔ s.present.read b = true) ∧
    (s.TableOk → s.metadataBlock.length = 4 + 5 * s.nleaf.toNat)

/-- `MDRD` of a byte of the size field: the first three are collected; the fourth raises `MalformedMetadata(1)` on a
negative size, `MalformedMetadata(2)` on one above 256, and otherwise is the size, 0 of which completes the block (R186,
R188, R189). -/
def Obligations.MdrdReadsSizeField : Prop :=
  ∀ (b : Byte) (s : State), s.fault = .none → s.phase ∈ [.idle, .mdread] → s.mdpos.toNat < 4 →
    ∀ w, w = insertByte s.mdword s.mdpos.toNat b →
    (s.mdpos.toNat < 3 →
      exec (.mdrd b) s = .next { s with mdword := w, mdpos := s.mdpos + 1#11, phase := .mdread }) ∧
    (s.mdpos.toNat = 3 → w.toInt < 0 →
      exec (.mdrd b) s = .next { s with fault := .malformedMetadata, finfo := 1#8 }) ∧
    (s.mdpos.toNat = 3 → 256 < w.toInt →
      exec (.mdrd b) s = .next { s with fault := .malformedMetadata, finfo := 2#8 }) ∧
    (s.mdpos.toNat = 3 → 0 ≤ w.toInt → w.toInt ≤ 256 →
      ∃ t, exec (.mdrd b) s = .next t ∧
        t = { s with mdsize := t.mdsize, mdword := w, mdpos := 4#11, phase := t.phase } ∧
        t.mdsize.toNat = w.toNat ∧ t.phase = if w = 0#32 then .table else .mdread)

/-- `MDRD` of a byte of an entry: a key that is already present raises `MalformedMetadata(3)`, a new one is kept; the
first three count bytes are collected; the fourth raises `MalformedMetadata(4)` on a negative count and otherwise stores
the entry, the last of which completes the block (R186, R189). -/
def Obligations.MdrdReadsEntry : Prop :=
  ∀ (b : Byte) (s : State), s.fault = .none → s.phase ∈ [.idle, .mdread] → 4 ≤ s.mdpos.toNat →
    ∀ k, k = (s.mdpos.toNat - 4) % 5 → ∀ w, w = insertByte s.mdword (k - 1) b →
    (k = 0 → s.present.read b = true →
      exec (.mdrd b) s = .next { s with fault := .malformedMetadata, finfo := 3#8 }) ∧
    (k = 0 → s.present.read b = false →
      exec (.mdrd b) s = .next { s with mdkey := b, mdword := 0#32, mdpos := s.mdpos + 1#11 }) ∧
    (1 ≤ k → k ≤ 3 →
      exec (.mdrd b) s = .next { s with mdword := w, mdpos := s.mdpos + 1#11 }) ∧
    (k = 4 → w.toInt < 0 →
      exec (.mdrd b) s = .next { s with fault := .malformedMetadata, finfo := 4#8 }) ∧
    (k = 4 → 0 ≤ w.toInt →
      ∃ t, exec (.mdrd b) s = .next t ∧
        t = { s with
          freq := t.freq, present := t.present, nleaf := s.nleaf + 1#9, mdcnt := s.mdcnt + 1#9, mdword := w,
          mdpos := s.mdpos + 1#11, phase := if s.mdcnt + 1#9 = s.mdsize then .table else s.phase } ∧
        t.freq.read s.mdkey = w ∧ t.present.read s.mdkey = true ∧
        ∀ c, c ≠ s.mdkey → t.freq.read c = s.freq.read c ∧ t.present.read c = s.present.read c)

/-- A metadata block with its entries in any order is read as the table it describes, and the reader is complete at its
last byte and not before (R187, R191). -/
def Obligations.MetadataBlockIsRead : Prop :=
  ∀ (entries : List (Byte × Count)) (s : State), IsTable entries → s.Inv → s.fault = .none → s.phase = .idle →
    (∃ t, execAll (mdrds (blockOf entries)) s = .next t ∧ t.fault = .none ∧ t.phase = .table ∧ t.out = s.out ∧
      (∀ b, t.present.read b = decide (b ∈ entries.map Prod.fst)) ∧ (∀ e ∈ entries, t.freq.read e.1 = e.2) ∧
      t.nleaf.toNat = entries.length) ∧
    ∀ front, front <+: blockOf entries → front ≠ blockOf entries →
      ∃ t, execAll (mdrds front) s = .next t ∧ t.fault = .none ∧ t.phase ≠ .table

/-- The metadata round trip: the block `MDWR` writes, fed through `MDRD` to a fresh run, gives the same keys, the same
counts and the same `NLEAF`, with no fault, and the run reaches TABLE at the last byte of the block and not before
(R190). -/
def Obligations.MetadataRoundTrip : Prop :=
  ∀ s s' : State, s.Inv → s.fault = .none → s.phase = .codes → s'.Inv → s'.fault = .none → s'.phase = .idle →
    ∃ t block u, exec .mdwr s = .next t ∧ t.out = s.out ++ block ∧ execAll (mdrds block) s' = .next u ∧
      u.fault = .none ∧ u.phase = .table ∧ u.present = s.present ∧ u.nleaf = s.nleaf ∧
      (∀ b, s.present.read b = true → u.freq.read b = s.freq.read b) ∧
      ∀ front, front <+: block → front ≠ block →
        ∃ v, execAll (mdrds front) s' = .next v ∧ v.fault = .none ∧ v.phase ≠ .table

/-- A stream that ends inside the metadata block, or before it, makes the decode sequence report
`MalformedMetadata(5)`, with nothing output (R105, R189, R204). -/
def Obligations.TruncatedMetadataIsReported : Prop :=
  ∀ (entries : List (Byte × Count)) (front : List Byte) (s : State), IsTable entries →
    front <+: blockOf entries → front ≠ blockOf entries →
    ∃ t, decodeRun front s = .next t ∧ t.fault = .malformedMetadata ∧ t.finfo = 5#8 ∧ t.out = []

/-! ### The packer -/

/-- `EMIT b` appends the code of `b` to the packed bits: the bits of the bytes it outputs, followed by the bits it
leaves in `ACC`, are the bits held before followed by the code, first symbol first; it outputs (h + `CLEN`) div 8 bytes
and leaves `NBITS` = (h + `CLEN`) mod 8; nothing else changes (R150, R151, R154, R153). -/
def Obligations.EmitAppendsCode : Prop :=
  ∀ (b : Byte) (s : State), s.PackerOk → s.fault = .none → s.phase = .pack → s.cvalid.read b = true →
    ∃ t bytes, exec (.emit b) s = .next t ∧
      t = { s with acc := t.acc, nbits := t.nbits, out := s.out ++ bytes } ∧
      bitStream bytes ++ t.held = s.held ++ s.codeOf b ∧
      bytes.length = (s.nbits.toNat + (s.clen.read b).toNat) / 8 ∧
      t.nbits.toNat = (s.nbits.toNat + (s.clen.read b).toNat) % 8 ∧ t.PackerOk

/-- `EMIT` of a byte without a code raises `CodeMissing` with the byte and changes nothing else (R152, R220). -/
def Obligations.EmitWithoutCodeFaults : Prop :=
  ∀ (b : Byte) (s : State), s.fault = .none → s.phase = .pack → s.cvalid.read b = false →
    exec (.emit b) s = .next { s with fault := .codeMissing, finfo := b }

/-- `FIN` outputs the held bits as the top of one byte with zeros below, or nothing when none are held, and ends the
run (R155). -/
def Obligations.FinPadsLastByte : Prop :=
  ∀ s : State, s.PackerOk → s.fault = .none → s.phase = .pack →
    (s.nbits = 0#4 → exec .fin s = .next { s with phase := .done }) ∧
    (s.nbits ≠ 0#4 →
      ∃ v, exec .fin s = .next { s with out := s.out ++ [v], acc := 0#8, nbits := 0#4, phase := .done } ∧
        bitsOf v = s.held ++ List.replicate (8 - s.nbits.toNat) false)

/-- The payload of a finished encode run is the concatenation of the codes of the input, most significant bit first,
padded with zeros to whole bytes (R157, R65). -/
def Obligations.PayloadIsPackedCodes : Prop :=
  ∀ (x : List Byte) (s : State), s.PackerOk → s.fault = .none → s.phase = .pack → s.nbits = 0#4 →
    (∀ b ∈ x, s.cvalid.read b = true) →
    ∃ t bytes, execAll (emits x ++ [.fin]) s = .next t ∧ t.out = s.out ++ bytes ∧ t.phase = .done ∧
      t.fault = .none ∧
      bitStream bytes = x.flatMap s.codeOf ++ List.replicate (padBits (x.flatMap s.codeOf).length) false

/-! ### The unpacker -/

/-- `CONS` is defined for every operand and every position in the tree: it completes, outputs at most eight bytes, all of
them keys of the table, leaves `CUR` in the tree, and changes nothing else (R165, R168, R174). -/
def Obligations.ConsAlwaysCompletes : Prop :=
  ∀ (p : Byte) (s : State), s.Inv → s.fault = .none → s.phase ∈ [.tree, .codes, .unpack] →
    ∃ t bytes, exec (.cons p) s = .next t ∧
      t = { s with cur := t.cur, out := s.out ++ bytes, phase := .unpack } ∧
      t.cur.toNat < s.nnodes.toNat ∧ bytes.length ≤ 8 ∧ ∀ b ∈ bytes, s.present.read b = true

/-- A one-leaf tree: `ROOT` is 0, and every `CONS` outputs the leaf's byte eight times, whatever its operand, and `CUR`
stays (R167). -/
def Obligations.ConsOfOneLeafTree : Prop :=
  ∀ s : State, s.Inv → s.fault = .none → s.phase ∈ [.tree, .codes, .unpack] → s.nleaf.toNat = 1 →
    s.root = 0#9 ∧ ∃ b, s.node.leafByte 0 = some b ∧ s.present.read b = true ∧
      ∀ p, exec (.cons p) s = .next { s with out := s.out ++ List.replicate 8 b, phase := .unpack }

/-- Late emission, one bit: at a pending leaf the leaf's byte is emitted and the walk goes on from the root with this
bit; elsewhere nothing is emitted (R165, R166). The operand's bits are taken most significant first. -/
def Obligations.ConsTakesBitsFromTheTop : Prop :=
  ∀ (p : Byte) (s : State), s.fault = .none → s.phase ∈ [.tree, .codes, .unpack] →
    exec (.cons p) s =
      answer (((bitsOf p).foldlM (fun u bit => takeBit bit u) s).map fun t => { t with phase := .unpack }) ∧
    ∀ (bit : Bool) (f : NodeFreq) (l r : NodeIndex),
      (s.node[s.cur.toNat]? = some (.internal f l r) →
        takeBit bit s = .ok { s with cur := if bit then r else l }) ∧
      (s.node[s.root.toNat]? = some (.internal f l r) → ∀ b, s.node.leafByte s.cur.toNat = some b →
        takeBit bit s = .ok { s with out := s.out ++ [b], cur := if bit then r else l })

/-- What a sequence of `CONS` commands outputs from the root of a tree with two leaves or more, in each phase that allows
`CONS`, whether or not `GEN` has run: the operands' bits split into codes in exactly one way; the bytes of the codes
come out, the last one only if a bit follows it; otherwise it stays pending in `CUR`. Bits that complete no code leave
`CUR` where they lead (R170, R166). After `GEN` the codes of the tree are those of the code table (R142 item 2). -/
def Obligations.ConsDecodesCodes : Prop :=
  ∀ (ps : List Byte) (s : State), s.Inv → s.fault = .none → s.phase ∈ [.tree, .codes, .unpack] →
    2 ≤ s.nleaf.toNat → s.cur = s.root →
    (∃ codes rest t, s.Splits (bitStream ps) codes rest ∧
      (∀ codes' rest', s.Splits (bitStream ps) codes' rest' → codes' = codes ∧ rest' = rest) ∧
      execAll (conss ps) s = .next t ∧
      t = { s with
        cur := t.cur, phase := if ps = [] then s.phase else .unpack,
        out := s.out ++ if rest = [] then (codes.map Prod.fst).dropLast else codes.map Prod.fst } ∧
      (rest = [] → ∀ c, codes.getLast? = some c → s.node.follow s.root.toNat c.2 = some t.cur.toNat) ∧
      (rest ≠ [] → s.node.follow s.root.toNat rest = some t.cur.toNat)) ∧
    (s.phase = .codes → ∀ path b, s.leadsTo path b ↔ s.present.read b = true ∧ path = s.codeOf b)

/-! ### Run control -/

/-- `END` raises `MalformedMetadata(5)` in phases IDLE and MDREAD and otherwise ends the run with no output (R203, R204,
R205). -/
def Obligations.EndOfSourceOutcomes : Prop :=
  ∀ s : State, s.fault = .none →
    (s.phase ∈ [.idle, .mdread] →
      exec .endSource s = .next { s with fault := .malformedMetadata, finfo := 5#8 }) ∧
    (s.phase ∈ [.tree, .codes, .unpack] → exec .endSource s = .next { s with phase := .done })

/-- `SRCERR` raises `SourceUnreadable(0)` in every phase and changes nothing else (R206, R217). -/
def Obligations.SrcerrRaisesSourceUnreadable : Prop :=
  ∀ s : State, s.fault = .none →
    exec .srcerr s = .next { s with fault := .sourceUnreadable, finfo := 0#8 }

/-! ### The whole machine -/

/-- The reset state meets the invariants of R37. -/
def Obligations.ResetMeetsInvariants : Prop := State.reset.Inv

/-- Every step keeps the invariants of R37, from every state that meets them, whatever the host sends. -/
def Obligations.StepKeepsInvariants : Prop :=
  ∀ s t : State, s.Inv → step s = .next t → t.Inv

/-- From a state that meets the invariants of R37 every step answers a next state: no access to an array can fault and
no command gets stuck (R60, R126, R168). -/
def Obligations.StepNeverStops : Prop :=
  ∀ s : State, s.Inv → ∃ t, step s = .next t

/-- "once `PHASE` reaches TABLE no command writes `PRESENT` or `FREQ` until `RST`" (R29, R73). -/
def Obligations.ClosedTableNeverChanges : Prop :=
  ∀ (i : Instr) (s t : State), i ≠ .rst → s.phase ∉ [.idle, .count, .mdread] → exec i s = .next t →
    t.present = s.present ∧ t.freq = s.freq ∧ t.nleaf = s.nleaf ∧ t.phase ∉ [.idle, .count, .mdread]

/-- `OUT` is append-only until `RST`, and only `MDWR`, `EMIT`, `FIN` and `CONS` output (R33, R63). -/
def Obligations.OutputOnlyGrows : Prop :=
  ∀ (i : Instr) (s t : State), i ≠ .rst → exec i s = .next t →
    s.out <+: t.out ∧
    ((i ≠ .mdwr ∧ (∀ b, i ≠ .emit b) ∧ i ≠ .fin ∧ ∀ p, i ≠ .cons p) → t.out = s.out)

/-- Each register, table and the arena is written by the commands of the column "written by" of R21 and of R26, R29 to
R31 alone; no command touches the host's inputs. -/
def Obligations.RegistersHaveTheirWriters : Prop :=
  ∀ (i : Instr) (s t : State), i ≠ .rst → exec i s = .next t →
    ((∀ b, i ≠ .emit b) → i ≠ .fin → t.acc = s.acc ∧ t.nbits = s.nbits) ∧
    (i ≠ .build → t.root = s.root ∧ t.nnodes = s.nnodes ∧ t.node = s.node) ∧
    (i ≠ .build → (∀ p, i ≠ .cons p) → t.cur = s.cur) ∧
    ((∀ b, i ≠ .cnt b) → i ≠ .cntfin → (∀ b, i ≠ .mdrd b) →
      t.present = s.present ∧ t.freq = s.freq ∧ t.nleaf = s.nleaf) ∧
    ((∀ b, i ≠ .mdrd b) → t.mdpos = s.mdpos ∧ t.mdsize = s.mdsize ∧ t.mdcnt = s.mdcnt ∧ t.mdkey = s.mdkey ∧
      t.mdword = s.mdword) ∧
    (i ≠ .gen → t.cvalid = s.cvalid ∧ t.clen = s.clen ∧ t.code = s.code) ∧
    t.pending = s.pending ∧ t.restarts = s.restarts

/-- No rule reads what the spec leaves unspecified: two states that meet the invariants and differ at most there step to
two states that differ at most there, with the same output, `STATUS` and everything else (R29, R30, R31, R36;
93_implementation_defined U30, U31, U33). -/
def Obligations.UnspecifiedContentsAreNeverRead : Prop :=
  ∀ s s' t : State, s.Inv → s'.Inv → s.SameSpecified s' → step s = .next t →
    ∃ t', step s' = .next t' ∧ t.SameSpecified t'

/-- The encode sequence, for every input whose counts fit: no fault, phase DONE, and `OUT` is the metadata block of the
frequency table followed by the packed codes of the input (R104, R69, R157). -/
def Obligations.EncodeRunWritesStream : Prop :=
  ∀ (x : List Byte) (s : State), (∀ b, (24#8 :: x).count b < 2 ^ 31) →
    ∃ t payload, execAll (encodeSequence x) s = .next t ∧ t.completed ∧ t.out = t.metadataBlock ++ payload ∧
      (∀ b, t.present.read b = decide (b = 24#8 ∨ b ∈ x)) ∧
      (∀ b, t.present.read b = true → (t.freq.read b).toNat = (24#8 :: x).count b) ∧
      bitStream payload = x.flatMap t.codeOf ++ List.replicate (padBits (x.flatMap t.codeOf).length) false

/-- The law of the round trip (R171, R172, R173): decoding the stream of an encode run raises no fault and outputs, with
two leaves or more and P pad bits, the input followed by floor((P - 1) / d0) copies of z0 when P >= 1 and the input
without its last byte when P = 0; and nothing when the tree has one leaf. Here z0 is the byte whose code has only zeros
and d0 the length of that code. -/
def Obligations.RoundTripLaw : Prop :=
  ∀ (x : List Byte) (s s' : State), (∀ b, (24#8 :: x).count b < 2 ^ 31) →
    ∃ t u z, execAll (encodeSequence x) s = .next t ∧ decodeRun t.out s' = .next u ∧ u.completed ∧
      t.present.read z = true ∧ t.codeOf z = List.replicate (t.codeOf z).length false ∧
      u.out =
        if t.nleaf.toNat = 1 then []
        else if padBits (x.flatMap t.codeOf).length = 0 then x.dropLast
        else x ++ List.replicate ((padBits (x.flatMap t.codeOf).length - 1) / (t.codeOf z).length) z
end

