-- ==== Sys2Proof/Laws/State.lean ====
section
/-! SUPPORT. One lemma per field for the updates of the state that the commands share: raising a fault, output, a
restart, and the two writes of the code table. -/

namespace Sys2Proof.Machine

section
variable (f : FaultCode) (info : Byte) (s : State)

@[simp] theorem raise_phase : (raise f info s).phase = s.phase := rfl
@[simp] theorem raise_fault : (raise f info s).fault = f := rfl
@[simp] theorem raise_finfo : (raise f info s).finfo = info := rfl
@[simp] theorem raise_present : (raise f info s).present = s.present := rfl
@[simp] theorem raise_freq : (raise f info s).freq = s.freq := rfl
@[simp] theorem raise_nleaf : (raise f info s).nleaf = s.nleaf := rfl
@[simp] theorem raise_node : (raise f info s).node = s.node := rfl
@[simp] theorem raise_nnodes : (raise f info s).nnodes = s.nnodes := rfl
@[simp] theorem raise_root : (raise f info s).root = s.root := rfl
@[simp] theorem raise_cur : (raise f info s).cur = s.cur := rfl
@[simp] theorem raise_cvalid : (raise f info s).cvalid = s.cvalid := rfl
@[simp] theorem raise_clen : (raise f info s).clen = s.clen := rfl
@[simp] theorem raise_code : (raise f info s).code = s.code := rfl
@[simp] theorem raise_acc : (raise f info s).acc = s.acc := rfl
@[simp] theorem raise_nbits : (raise f info s).nbits = s.nbits := rfl
@[simp] theorem raise_mdpos : (raise f info s).mdpos = s.mdpos := rfl
@[simp] theorem raise_mdsize : (raise f info s).mdsize = s.mdsize := rfl
@[simp] theorem raise_mdcnt : (raise f info s).mdcnt = s.mdcnt := rfl
@[simp] theorem raise_mdkey : (raise f info s).mdkey = s.mdkey := rfl
@[simp] theorem raise_mdword : (raise f info s).mdword = s.mdword := rfl
@[simp] theorem raise_out : (raise f info s).out = s.out := rfl
@[simp] theorem raise_pending : (raise f info s).pending = s.pending := rfl
@[simp] theorem raise_restarts : (raise f info s).restarts = s.restarts := rfl

end

section
variable (vs : List Byte) (s : State)

@[simp] theorem outAll_phase : (outAll vs s).phase = s.phase := rfl
@[simp] theorem outAll_fault : (outAll vs s).fault = s.fault := rfl
@[simp] theorem outAll_finfo : (outAll vs s).finfo = s.finfo := rfl
@[simp] theorem outAll_present : (outAll vs s).present = s.present := rfl
@[simp] theorem outAll_freq : (outAll vs s).freq = s.freq := rfl
@[simp] theorem outAll_nleaf : (outAll vs s).nleaf = s.nleaf := rfl
@[simp] theorem outAll_node : (outAll vs s).node = s.node := rfl
@[simp] theorem outAll_nnodes : (outAll vs s).nnodes = s.nnodes := rfl
@[simp] theorem outAll_root : (outAll vs s).root = s.root := rfl
@[simp] theorem outAll_cur : (outAll vs s).cur = s.cur := rfl
@[simp] theorem outAll_cvalid : (outAll vs s).cvalid = s.cvalid := rfl
@[simp] theorem outAll_clen : (outAll vs s).clen = s.clen := rfl
@[simp] theorem outAll_code : (outAll vs s).code = s.code := rfl
@[simp] theorem outAll_acc : (outAll vs s).acc = s.acc := rfl
@[simp] theorem outAll_nbits : (outAll vs s).nbits = s.nbits := rfl
@[simp] theorem outAll_mdpos : (outAll vs s).mdpos = s.mdpos := rfl
@[simp] theorem outAll_mdsize : (outAll vs s).mdsize = s.mdsize := rfl
@[simp] theorem outAll_mdcnt : (outAll vs s).mdcnt = s.mdcnt := rfl
@[simp] theorem outAll_mdkey : (outAll vs s).mdkey = s.mdkey := rfl
@[simp] theorem outAll_mdword : (outAll vs s).mdword = s.mdword := rfl
@[simp] theorem outAll_out : (outAll vs s).out = s.out ++ vs := rfl
@[simp] theorem outAll_pending : (outAll vs s).pending = s.pending := rfl
@[simp] theorem outAll_restarts : (outAll vs s).restarts = s.restarts := rfl

end

section
variable (s : State)

@[simp] theorem clearCodes_phase : (clearCodes s).phase = s.phase := rfl
@[simp] theorem clearCodes_fault : (clearCodes s).fault = s.fault := rfl
@[simp] theorem clearCodes_finfo : (clearCodes s).finfo = s.finfo := rfl
@[simp] theorem clearCodes_present : (clearCodes s).present = s.present := rfl
@[simp] theorem clearCodes_freq : (clearCodes s).freq = s.freq := rfl
@[simp] theorem clearCodes_nleaf : (clearCodes s).nleaf = s.nleaf := rfl
@[simp] theorem clearCodes_node : (clearCodes s).node = s.node := rfl
@[simp] theorem clearCodes_nnodes : (clearCodes s).nnodes = s.nnodes := rfl
@[simp] theorem clearCodes_root : (clearCodes s).root = s.root := rfl
@[simp] theorem clearCodes_cur : (clearCodes s).cur = s.cur := rfl
@[simp] theorem clearCodes_cvalid : (clearCodes s).cvalid = Vector.replicate 256 false := rfl
@[simp] theorem clearCodes_clen : (clearCodes s).clen = s.clen := rfl
@[simp] theorem clearCodes_code : (clearCodes s).code = s.code := rfl
@[simp] theorem clearCodes_acc : (clearCodes s).acc = s.acc := rfl
@[simp] theorem clearCodes_nbits : (clearCodes s).nbits = s.nbits := rfl
@[simp] theorem clearCodes_mdpos : (clearCodes s).mdpos = s.mdpos := rfl
@[simp] theorem clearCodes_mdsize : (clearCodes s).mdsize = s.mdsize := rfl
@[simp] theorem clearCodes_mdcnt : (clearCodes s).mdcnt = s.mdcnt := rfl
@[simp] theorem clearCodes_mdkey : (clearCodes s).mdkey = s.mdkey := rfl
@[simp] theorem clearCodes_mdword : (clearCodes s).mdword = s.mdword := rfl
@[simp] theorem clearCodes_out : (clearCodes s).out = s.out := rfl
@[simp] theorem clearCodes_pending : (clearCodes s).pending = s.pending := rfl
@[simp] theorem clearCodes_restarts : (clearCodes s).restarts = s.restarts := rfl

end

section
variable (e : Byte × List Bool) (s : State)

@[simp] theorem recordCode_phase : (recordCode s e).phase = s.phase := rfl
@[simp] theorem recordCode_fault : (recordCode s e).fault = s.fault := rfl
@[simp] theorem recordCode_finfo : (recordCode s e).finfo = s.finfo := rfl
@[simp] theorem recordCode_present : (recordCode s e).present = s.present := rfl
@[simp] theorem recordCode_freq : (recordCode s e).freq = s.freq := rfl
@[simp] theorem recordCode_nleaf : (recordCode s e).nleaf = s.nleaf := rfl
@[simp] theorem recordCode_node : (recordCode s e).node = s.node := rfl
@[simp] theorem recordCode_nnodes : (recordCode s e).nnodes = s.nnodes := rfl
@[simp] theorem recordCode_root : (recordCode s e).root = s.root := rfl
@[simp] theorem recordCode_cur : (recordCode s e).cur = s.cur := rfl
@[simp] theorem recordCode_cvalid : (recordCode s e).cvalid = s.cvalid.write e.1 true := rfl
@[simp] theorem recordCode_clen : (recordCode s e).clen = s.clen.write e.1 (BitVec.ofNat 8 e.2.length) := rfl
@[simp] theorem recordCode_code : (recordCode s e).code = s.code.write e.1 (codeField e.2) := rfl
@[simp] theorem recordCode_acc : (recordCode s e).acc = s.acc := rfl
@[simp] theorem recordCode_nbits : (recordCode s e).nbits = s.nbits := rfl
@[simp] theorem recordCode_mdpos : (recordCode s e).mdpos = s.mdpos := rfl
@[simp] theorem recordCode_mdsize : (recordCode s e).mdsize = s.mdsize := rfl
@[simp] theorem recordCode_mdcnt : (recordCode s e).mdcnt = s.mdcnt := rfl
@[simp] theorem recordCode_mdkey : (recordCode s e).mdkey = s.mdkey := rfl
@[simp] theorem recordCode_mdword : (recordCode s e).mdword = s.mdword := rfl
@[simp] theorem recordCode_out : (recordCode s e).out = s.out := rfl
@[simp] theorem recordCode_pending : (recordCode s e).pending = s.pending := rfl
@[simp] theorem recordCode_restarts : (recordCode s e).restarts = s.restarts := rfl

end

section
variable (s : State)

@[simp] theorem restart_phase : (restart s).phase = .idle := rfl
@[simp] theorem restart_fault : (restart s).fault = .none := rfl
@[simp] theorem restart_finfo : (restart s).finfo = 0#8 := rfl
@[simp] theorem restart_present : (restart s).present = Vector.replicate 256 false := rfl
@[simp] theorem restart_nleaf : (restart s).nleaf = 0#9 := rfl
@[simp] theorem restart_nnodes : (restart s).nnodes = 0#10 := rfl
@[simp] theorem restart_root : (restart s).root = 0#9 := rfl
@[simp] theorem restart_cur : (restart s).cur = 0#9 := rfl
@[simp] theorem restart_cvalid : (restart s).cvalid = Vector.replicate 256 false := rfl
@[simp] theorem restart_acc : (restart s).acc = 0#8 := rfl
@[simp] theorem restart_nbits : (restart s).nbits = 0#4 := rfl
@[simp] theorem restart_mdpos : (restart s).mdpos = 0#11 := rfl
@[simp] theorem restart_mdsize : (restart s).mdsize = 0#9 := rfl
@[simp] theorem restart_mdcnt : (restart s).mdcnt = 0#9 := rfl
@[simp] theorem restart_mdkey : (restart s).mdkey = 0#8 := rfl
@[simp] theorem restart_mdword : (restart s).mdword = 0#32 := rfl
@[simp] theorem restart_out : (restart s).out = [] := rfl
@[simp] theorem restart_pending : (restart s).pending = s.pending := rfl
@[simp] theorem restart_restarts : (restart s).restarts = s.restarts + 1 := rfl

end

end Sys2Proof.Machine
end

