-- ==== Sys2Proof/Laws/Ops.lean ====
section
/-! SUPPORT. What each shared operation can do: the arrays, the keys of the frequency table, and the treatment of a
command (spec/20_memory.md R60, spec/30_encoding.md R96). -/

namespace Sys2Proof

@[simp] theorem Table.read_write_same {α : Type} (t : Table α) (b : Byte) (v : α) : (t.write b v).read b = v := by
  simp [Table.read, Table.write]

theorem Table.read_write_ne {α : Type} (t : Table α) {b c : Byte} (v : α) (h : c ≠ b) :
    (t.write b v).read c = t.read c := by
  have : b.toNat ≠ c.toNat := fun e => h (BitVec.eq_of_toNat_eq e.symm)
  simp [Table.read, Table.write, this]

theorem Table.read_write {α : Type} (t : Table α) (b c : Byte) (v : α) :
    (t.write b v).read c = if c = b then v else t.read c := by
  split
  · subst c; simp
  · exact Table.read_write_ne t v ‹_›

@[simp] theorem Table.read_replicate {α : Type} (v : α) (b : Byte) :
    Table.read (Vector.replicate 256 v) b = v := by
  simp [Table.read]

theorem Table.ext {α : Type} {t u : Table α} (h : ∀ b, t.read b = u.read b) : t = u := by
  apply Vector.ext
  intro i hi
  simpa [Table.read, Nat.mod_eq_of_lt hi] using h (BitVec.ofNat 8 i)

theorem Arena.read_eq (a : Arena) (i : Nat) :
    a.read i = match a[i]? with | some n => .ok n | none => .error (.nodeOutsideArena i) := by
  unfold Arena.read
  split
  · rw [Vector.getElem?_eq_getElem ‹_›]
  · rw [Vector.getElem?_eq_none (by simpa using ‹¬ i < Config.maxNodes›)]

/-- A read that answers gives the stored node of an index of the arena. -/
theorem Arena.read_ok {a : Arena} {i : Nat} {n : Node} : a.read i = .ok n ↔ a[i]? = some n := by
  rw [Arena.read_eq]
  cases a[i]? <;> simp

/-- A write inside the arena changes that node alone; outside it there is no write. -/
theorem Arena.write_ok {a a' : Arena} {i : Nat} {n : Node} (h : a.write i n = .ok a') :
    i < 511 ∧ a'[i]? = some n ∧ ∀ j, j ≠ i → a'[j]? = a[j]? := by
  unfold Arena.write at h
  split at h
  · cases h
    rename_i hi
    exact ⟨hi, by simp [hi], fun j hj => by simp [Ne.symm hj]⟩
  · cases h

theorem Arena.write_of_lt (a : Arena) {i : Nat} (n : Node) (h : i < 511) : ∃ a', a.write i n = .ok a' := by
  simp [Arena.write, h]

namespace Machine

theorem mem_ascendingBytes (b : Byte) : b ∈ ascendingBytes := by
  simp only [ascendingBytes, List.mem_map, List.mem_range]
  exact ⟨b.toNat, b.isLt, by simp⟩

theorem ascendingBytes_sorted : ascendingBytes.Pairwise fun b c => b.toNat < c.toNat := by
  unfold ascendingBytes
  rw [List.pairwise_map]
  refine List.Pairwise.imp_of_mem ?_ List.pairwise_lt_range
  intro i j hi hj hij
  simp only [List.mem_range] at hi hj
  simpa [Nat.mod_eq_of_lt hi, Nat.mod_eq_of_lt hj] using hij

@[simp] theorem mem_keys {s : State} {b : Byte} : b ∈ s.keys ↔ s.present.read b = true := by
  simp [State.keys, mem_ascendingBytes]

/-- The keys come in strictly ascending order (R29). -/
theorem keys_sorted (s : State) : s.keys.Pairwise fun b c => b.toNat < c.toNat :=
  ascendingBytes_sorted.filter _

theorem keys_nodup (s : State) : s.keys.Nodup :=
  (keys_sorted s).imp fun h e => by subst e; omega

theorem keys_length_le (s : State) : s.keys.length ≤ 256 := by
  have := List.length_filter_le s.present.read ascendingBytes
  simpa [State.keys, ascendingBytes] using this

theorem keys_congr {s t : State} (h : s.present = t.present) : s.keys = t.keys := by
  simp [State.keys, h]

/-- A table without keys has no present byte. -/
theorem keys_eq_nil {s : State} : s.keys = [] ↔ ∀ b, s.present.read b = false := by
  simp [List.eq_nil_iff_forall_not_mem]

/-- A key that is new adds one key (R29). -/
theorem keys_length_insert {s t : State} {b : Byte} (hb : s.present.read b = false)
    (ht : t.present = s.present.write b true) : t.keys.length = s.keys.length + 1 := by
  have hp : t.keys.Perm (b :: s.keys) := by
    rw [List.perm_ext_iff_of_nodup (keys_nodup t)
      (List.nodup_cons.2 ⟨by simp [hb], keys_nodup s⟩)]
    intro c
    simp [ht, Table.read_write]
  simpa using hp.length_eq

section
variable {i : Instr} {s : State} {own : State → Answer}

/-- A faulted block ignores the command (R226). -/
theorem sequenced_faulted (h : s.fault ≠ .none) : sequenced i s own = .next s := by
  simp [sequenced, h]

/-- A command that is legal in the phase follows its own rule (R96 step 6). -/
theorem sequenced_legal (h : s.fault = .none) (hp : legalIn i s.phase = true) : sequenced i s own = own s := by
  simp [sequenced, h, hp]

/-- A command that the phase forbids raises `IllegalSequence` (R96 step 5). -/
theorem sequenced_illegal (h : s.fault = .none) (hp : legalIn i s.phase = false) :
    sequenced i s own = .next (raise .illegalSequence i.opcode s) := by
  simp [sequenced, h, hp]

/-- Everything the treatment of a command can answer. -/
theorem sequenced_next {t : State} (h : sequenced i s own = .next t) :
    (s.fault ≠ .none ∧ t = s) ∨
    (s.fault = .none ∧ legalIn i s.phase = false ∧ t = raise .illegalSequence i.opcode s) ∨
    (s.fault = .none ∧ legalIn i s.phase = true ∧ own s = .next t) := by
  unfold sequenced at h
  split at h
  · cases h; exact .inl ⟨‹_›, rfl⟩
  · rename_i hf
    split at h
    · exact .inr (.inr ⟨by simpa using hf, ‹_›, h⟩)
    · cases h; exact .inr (.inl ⟨by simpa using hf, by simpa using ‹¬ legalIn i s.phase = true›, rfl⟩)

theorem answer_next {x : Except Fault State} {t : State} : answer x = .next t ↔ x = .ok t := by
  cases x <;> simp [answer]

end

end Machine

end Sys2Proof
end

