-- ==== Sys2Proof/Laws/BitPacker.lean ====
section
/-! SUPPORT. What the packer does with the symbols of a code and at the end (spec/43_bit_packer.md R150 to R155). -/

namespace Sys2Proof.Machine

theorem bitsOf_length (v : Byte) : (bitsOf v).length = 8 := by simp [bitsOf]

theorem bitStream_length (vs : List Byte) : (bitStream vs).length = 8 * vs.length := by
  induction vs with
  | nil => rfl
  | cons v vs ih => simp only [bitStream, List.flatMap_cons, List.length_append, bitsOf_length, List.length_cons] at *; omega

theorem bitStream_append (vs ws : List Byte) : bitStream (vs ++ ws) = bitStream vs ++ bitStream ws := by
  simp [bitStream]

theorem held_length (s : State) : s.held.length = s.nbits.toNat := by simp [State.held]

theorem bitValue_getLsbD_succ {n : Nat} (sym : Bool) (k : Nat) : (bitValue n sym).getLsbD (k + 1) = false := by
  cases sym <;> simp [bitValue, BitVec.getLsbD_one]

/-- The bits of the accumulator after a shift, earliest highest (R150, R151). -/
theorem shifted_bits (acc : BitVec 8) (sym : Bool) {n : Nat} (hn : n ≤ 7) :
    (List.range (n + 1)).map (fun k => ((acc <<< 1) ||| bitValue 8 sym).getLsbD (n - k)) =
      (List.range n).map (fun k => acc.getLsbD (n - 1 - k)) ++ [sym] := by
  rw [List.range_succ, List.map_append]
  congr 1
  · refine List.map_congr_left fun k hk => ?_
    have hk := List.mem_range.1 hk
    obtain ⟨m, hm⟩ : ∃ m, n - k = m + 1 := ⟨n - k - 1, by omega⟩
    rw [hm, BitVec.getLsbD_or, bitValue_getLsbD_succ, BitVec.getLsbD_shiftLeft]
    have : n - 1 - k = m := by omega
    have : m + 1 < 8 := by omega
    simp [*]
  · cases sym <;> simp [bitValue]

theorem packSymbol_flush {s : State} {sym : Bool} (h : s.nbits + 1#4 = 8#4) :
    packSymbol s sym =
      { s with acc := 0#8, nbits := 0#4, out := s.out ++ [(s.acc <<< 1) ||| bitValue 8 sym] } := by
  simp [packSymbol, h, outAll]

theorem packSymbol_shift {s : State} {sym : Bool} (h : s.nbits + 1#4 ≠ 8#4) :
    packSymbol s sym = { s with acc := (s.acc <<< 1) ||| bitValue 8 sym, nbits := s.nbits + 1#4 } := by
  simp [packSymbol, h]

/-- A symbol enters the packer: it comes after the symbols held, and eight symbols leave as a byte (R150, R151). -/
theorem packSymbol_spec (s : State) (sym : Bool) (hn : s.nbits.toNat ≤ 7) (ha : s.acc.toNat < 2 ^ s.nbits.toNat) :
    ∃ bytes, packSymbol s sym = { s with
        acc := (packSymbol s sym).acc, nbits := (packSymbol s sym).nbits, out := s.out ++ bytes } ∧
      bitStream bytes ++ (packSymbol s sym).held = s.held ++ [sym] ∧
      (packSymbol s sym).nbits.toNat ≤ 7 ∧ (packSymbol s sym).acc.toNat < 2 ^ (packSymbol s sym).nbits.toNat := by
  have hadd : (s.nbits + 1#4).toNat = s.nbits.toNat + 1 := by rw [BitVec.toNat_add]; simp; omega
  have hbits := shifted_bits s.acc sym hn
  by_cases h8 : s.nbits + 1#4 = 8#4
  · rw [packSymbol_flush h8]
    have h7 : s.nbits.toNat = 7 := by have := congrArg BitVec.toNat h8; rw [hadd] at this; simpa using this
    refine ⟨[(s.acc <<< 1) ||| bitValue 8 sym], rfl, ?_, by simp, by simp⟩
    rw [h7] at hbits
    simpa [bitStream, bitsOf, State.held, h7] using hbits
  · rw [packSymbol_shift h8]
    have h7 : s.nbits.toNat ≠ 7 := fun e => h8 (BitVec.eq_of_toNat_eq (by rw [hadd, e]; rfl))
    refine ⟨[], by simp, ?_, by simp only; omega, ?_⟩
    · simpa [bitStream, State.held, hadd] using hbits
    · simp only [hadd, BitVec.toNat_or, BitVec.toNat_shiftLeft]
      refine Nat.or_lt_two_pow ?_ ?_
      · refine lt_of_le_of_lt (Nat.mod_le _ _) ?_
        rw [Nat.shiftLeft_eq, pow_succ]
        omega
      · have : (bitValue 8 sym).toNat ≤ 1 := by cases sym <;> simp [bitValue]
        have : 2 ≤ 2 ^ (s.nbits.toNat + 1) := by rw [pow_succ]; have := Nat.one_le_two_pow (n := s.nbits.toNat); omega
        omega

/-- The symbols of a code enter the packer one after the other (R150, R154). -/
theorem foldl_packSymbol_spec (path : List Bool) (s : State) (hn : s.nbits.toNat ≤ 7)
    (ha : s.acc.toNat < 2 ^ s.nbits.toNat) :
    ∃ bytes, path.foldl packSymbol s = { s with
        acc := (path.foldl packSymbol s).acc, nbits := (path.foldl packSymbol s).nbits, out := s.out ++ bytes } ∧
      bitStream bytes ++ (path.foldl packSymbol s).held = s.held ++ path ∧
      (path.foldl packSymbol s).nbits.toNat ≤ 7 ∧
      (path.foldl packSymbol s).acc.toNat < 2 ^ (path.foldl packSymbol s).nbits.toNat := by
  induction path generalizing s with
  | nil => exact ⟨[], by simp, by simp [bitStream], hn, ha⟩
  | cons sym path ih =>
    obtain ⟨b1, e1, h1, n1, a1⟩ := packSymbol_spec s sym hn ha
    obtain ⟨b2, e2, h2, n2, a2⟩ := ih (packSymbol s sym) n1 a1
    refine ⟨b1 ++ b2, ?_, ?_, n2, a2⟩
    · simp only [List.foldl_cons]
      rw [e2, e1]
      simp
    · simp only [List.foldl_cons]
      rw [bitStream_append, List.append_assoc, h2, ← List.append_assoc, h1]
      simp

/-- The last byte: the held symbols, then zeros (R155). -/
theorem flushed_bits (s : State) (h0 : s.nbits ≠ 0#4) (hn : s.nbits.toNat ≤ 7) :
    bitsOf (s.acc <<< (8 - s.nbits.toNat)) = s.held ++ List.replicate (8 - s.nbits.toNat) false := by
  have hpos : 1 ≤ s.nbits.toNat := by
    rcases Nat.eq_zero_or_pos s.nbits.toNat with h | h
    · exact absurd (BitVec.eq_of_toNat_eq (by simpa using h)) h0
    · exact h
  refine List.ext_getElem (by simp [bitsOf, State.held]; omega) fun k h1 h2 => ?_
  simp only [bitsOf, List.length_map, List.length_range] at h1
  simp only [bitsOf, State.held, List.getElem_map, List.getElem_range, List.getElem_append, List.length_map,
    List.length_range, BitVec.getLsbD_shiftLeft]
  split
  · have e : 7 - k - (8 - s.nbits.toNat) = s.nbits.toNat - 1 - k := by omega
    rw [e]
    have h3 : 7 - k < 8 := by omega
    have h4 : ¬ 7 - k < 8 - s.nbits.toNat := by omega
    simp [h3, h4]
  · have h4 : 7 - k < 8 - s.nbits.toNat := by omega
    simp [h4]

end Sys2Proof.Machine
end

