-- ==== Sys2Proof/Laws/TreeBuilder.lean ====
section
/-! SUPPORT. What the greedy merge of `BUILD` makes (spec/41_tree_builder.md R120 to R126): the order of the pairs, one
pass, all passes. -/

namespace Sys2Proof

namespace Arena

/-- The order of the pairs `(freq, index)` in numbers (R122). -/
theorem before_iff {a : Arena} {j k : Nat} :
    a.before j k = true ↔
      (a.freqAt j).toNat < (a.freqAt k).toNat ∨ ((a.freqAt j).toNat = (a.freqAt k).toNat ∧ j < k) := by
  simp [Arena.before, BitVec.ult, BitVec.toNat_eq]

theorem before_trans {a : Arena} {i j k : Nat} (h : a.before i j = true) (h' : a.before j k = true) :
    a.before i k = true := by
  rw [before_iff] at *; omega

theorem before_total {a : Arena} {j k : Nat} (h : j ≠ k) (h' : ¬ a.before j k = true) : a.before k j = true := by
  rw [before_iff] at *; omega

theorem freqAt_congr {a a' : Arena} {j : Nat} (h : a'[j]? = a[j]?) : a'.freqAt j = a.freqAt j := by
  simp [Arena.freqAt, h]

theorem before_congr {a a' : Arena} {j k : Nat} (hj : a'[j]? = a[j]?) (hk : a'[k]? = a[k]?) :
    a'.before j k = a.before j k := by
  simp [Arena.before, freqAt_congr hj, freqAt_congr hk]

theorem isChild_congr {a a' : Arena} {i j : Nat} (h : a'[i]? = a[i]?) : a'.isChild i j = a.isChild i j := by
  simp [Arena.isChild, h]

theorem isChild_iff {a : Arena} {i j : Nat} :
    a.isChild i j = true ↔ ∃ f l r, a[i]? = some (.internal f l r) ∧ (l.toNat = j ∨ r.toNat = j) := by
  unfold Arena.isChild
  split <;> simp_all

theorem joinsSmaller_iff {a : Arena} {i : Nat} :
    a.joinsSmaller i = true ↔ ∃ f l r, a[i]? = some (.internal f l r) ∧ l.toNat < i ∧ r.toNat < i ∧ l ≠ r ∧
      f = a.freqAt l.toNat + a.freqAt r.toNat := by
  unfold Arena.joinsSmaller
  split <;> simp_all [and_assoc]
  tauto

end Arena

namespace Machine

namespace Forest

/-- The fold of `least` gives the smallest of the nodes it goes through. -/
theorem foldl_least (a : Arena) (js : List Nat) (j : Nat) :
    js.foldl (fun m k => if a.before k m then k else m) j ∈ j :: js ∧
    ∀ x ∈ j :: js, x ≠ js.foldl (fun m k => if a.before k m then k else m) j →
      a.before (js.foldl (fun m k => if a.before k m then k else m) j) x = true := by
  induction js generalizing j with
  | nil => simp
  | cons k ks ih =>
    simp only [List.foldl_cons]
    split
    · rename_i hk
      obtain ⟨hm, hl⟩ := ih k
      refine ⟨List.mem_cons_of_mem _ hm, fun x hx hne => ?_⟩
      rcases List.mem_cons.1 hx with rfl | hx
      · by_cases hkm : k = ks.foldl (fun m k => if a.before k m then k else m) k
        · rw [← hkm]; exact hk
        · exact Arena.before_trans (hl k (by simp) hkm) hk
      · exact hl x hx hne
    · rename_i hk
      obtain ⟨hm, hl⟩ := ih j
      refine ⟨?_, fun x hx hne => ?_⟩
      · rcases List.mem_cons.1 hm with h | h
        · rw [h]; simp
        · exact List.mem_cons_of_mem _ (List.mem_cons_of_mem _ h)
      · rcases List.mem_cons.1 hx with rfl | hx
        · exact hl x (by simp) hne
        · rcases List.mem_cons.1 hx with rfl | hx
          · by_cases hj : x = j
            · subst hj; exact hl x (by simp) hne
            · have hjx := Arena.before_total hj hk
              by_cases hjm : j = ks.foldl (fun m k => if a.before k m then k else m) j
              · rw [← hjm]; exact hjx
              · exact Arena.before_trans (hl j (by simp) hjm) hjx
          · exact hl x (List.mem_cons_of_mem _ hx) hne

/-- `least` answers a live node that comes before every other live node (R122). -/
theorem least_spec {f : Forest} {a : Nat} (h : f.least = some a) :
    a ∈ f.live ∧ ∀ j ∈ f.live, j ≠ a → f.node.before a j = true := by
  unfold Forest.least at h
  split at h
  · cases h
  · rename_i j js hl
    cases h
    rw [hl]
    exact foldl_least f.node js j

theorem least_none {f : Forest} : f.least = none ↔ f.live = [] := by
  unfold Forest.least
  split <;> simp_all

/-- With two live nodes and room in the arena, a pass of the greedy merge joins the two smallest (R120 step 2). -/
theorem merge_of_two {f : Forest} (h2 : 2 ≤ f.live.length) (hn : f.live.Nodup) (hroom : f.nnodes < 511) :
    ∃ a c node, a ∈ f.live ∧ c ∈ f.live ∧ a ≠ c ∧
      (∀ j ∈ f.live, j ≠ a → f.node.before a j = true) ∧
      (∀ j ∈ f.live, j ≠ a → j ≠ c → f.node.before c j = true) ∧
      f.node.write f.nnodes (.internal (f.node.freqAt a + f.node.freqAt c) (BitVec.ofNat 9 a) (BitVec.ofNat 9 c)) =
        .ok node ∧
      f.merge = .ok ⟨node, f.nnodes + 1, ((f.live.erase a).erase c) ++ [f.nnodes]⟩ := by
  obtain ⟨a, ha⟩ : ∃ a, f.least = some a := by
    cases h : f.least with
    | none => simp [least_none.1 h] at h2
    | some a => exact ⟨a, rfl⟩
  obtain ⟨ham, hal⟩ := least_spec ha
  have hlen : (f.live.erase a).length = f.live.length - 1 := List.length_erase_of_mem ham
  obtain ⟨c, hc⟩ : ∃ c, (f.without a).least = some c := by
    cases h : (f.without a).least with
    | none =>
      have : (f.live.erase a).length = 0 := congrArg List.length (least_none.1 h)
      omega
    | some c => exact ⟨c, rfl⟩
  obtain ⟨hcm, hcl⟩ := least_spec hc
  have hcm' := (hn.mem_erase_iff (a := c) (b := a)).1 hcm
  obtain ⟨node, hw⟩ := Arena.write_of_lt f.node
    (.internal (f.node.freqAt a + f.node.freqAt c) (BitVec.ofNat 9 a) (BitVec.ofNat 9 c)) hroom
  refine ⟨a, c, node, ham, hcm'.2, fun e => hcm'.1 e.symm, hal, fun j hj hja hjc => ?_, hw, ?_⟩
  · exact hcl j ((hn.mem_erase_iff).2 ⟨hja, hj⟩) hjc
  · simp only [Forest.merge, ha, hc]
    rw [hw]
    rfl

/-- What holds of the forest between the passes of the greedy merge over `n` leaves of arena `a₀` whose frequencies
sum to `total`. -/
structure Grown (a₀ : Arena) (n total : Nat) (f : Forest) : Prop where
  nnodes_ge : n ≤ f.nnodes
  live_length : f.live.length + f.nnodes = 2 * n
  nodup : f.live.Nodup
  live_lt : ∀ j ∈ f.live, j < f.nnodes
  last_live : n < f.nnodes → f.nnodes - 1 ∈ f.live
  kept : ∀ i < n, f.node[i]? = a₀[i]?
  joins : ∀ i, n ≤ i → i < f.nnodes → f.node.joinsSmaller i = true
  least : ∀ i, n ≤ i → i < f.nnodes → f.node.joinsLeast i
  roots : ∀ j ∈ f.live, ∀ i < f.nnodes, f.node.isChild i j = false
  homes : ∀ j < f.nnodes, j ∉ f.live →
    ∃ i < f.nnodes, f.node.isChild i j = true ∧ ∀ k < f.nnodes, f.node.isChild k j = true → k = i
  sum : (f.live.map fun j => (f.node.freqAt j).toNat).sum = total
  mono : ∀ i, n ≤ i → i + 1 < f.nnodes → (f.node.freqAt i).toNat ≤ (f.node.freqAt (i + 1)).toNat
  next : n < f.nnodes → ∀ j ∈ f.live, ∀ m ∈ f.live, j ≠ m →
    (f.node.freqAt (f.nnodes - 1)).toNat ≤ (f.node.freqAt j).toNat + (f.node.freqAt m).toNat

/-- A pass keeps what holds of the forest. -/
theorem Grown.merge {a₀ : Arena} {n total : Nat} {f : Forest} (g : Grown a₀ n total f)
    (hleaf : ∀ i < n, ∃ b fr, a₀[i]? = some (.leaf b fr)) (hn : n ≤ 256) (htotal : total < 2 ^ 40) (h2 : 2 ≤ f.live.length) :
    ∃ f', f.merge = .ok f' ∧ Grown a₀ n total f' ∧ f'.nnodes = f.nnodes + 1 := by
  have hroom : f.nnodes < 511 := by have := g.live_length; omega
  obtain ⟨a, c, node, ha, hc, hac, hal, hcl, hw, hm⟩ := merge_of_two h2 g.nodup hroom
  refine ⟨_, hm, ?_, rfl⟩
  obtain ⟨-, hnew, hold⟩ := Arena.write_ok hw
  have hge := g.nnodes_ge
  have ha' := g.live_lt a ha
  have hc' := g.live_lt c hc
  have hna : (BitVec.ofNat 9 a).toNat = a := by simp; omega
  have hnc : (BitVec.ofNat 9 c).toNat = c := by simp; omega
  have hlt : ∀ j, j < f.nnodes → node[j]? = f.node[j]? := fun j hj => hold j (by omega)
  have hfreq : ∀ j, j < f.nnodes → node.freqAt j = f.node.freqAt j := fun j hj => Arena.freqAt_congr (hlt j hj)
  have hchild : ∀ i j, i < f.nnodes → node.isChild i j = f.node.isChild i j :=
    fun i j hi => Arena.isChild_congr (hlt i hi)
  have hchild_new : ∀ j, node.isChild f.nnodes j = true ↔ j = a ∨ j = c := by
    intro j
    rw [Arena.isChild_iff]
    simp only [hnew, Option.some.injEq, Node.internal.injEq]
    constructor
    · rintro ⟨_, _, _, ⟨rfl, rfl, rfl⟩, h⟩
      rw [hna, hnc] at h
      exact h.imp Eq.symm Eq.symm
    · intro h
      exact ⟨_, _, _, ⟨rfl, rfl, rfl⟩, by rw [hna, hnc]; exact h.imp Eq.symm Eq.symm⟩
  have hmem : ∀ j, j ∈ (f.live.erase a).erase c ++ [f.nnodes] ↔ (j ∈ f.live ∧ j ≠ a ∧ j ≠ c) ∨ j = f.nnodes := by
    intro j
    rw [List.mem_append, (g.nodup.erase a).mem_erase_iff, g.nodup.mem_erase_iff]
    simp; tauto
  have hsum := List.sum_map_erase (fun j => (f.node.freqAt j).toNat) ha
  have hsum' := List.sum_map_erase (fun j => (f.node.freqAt j).toNat)
    ((g.nodup.mem_erase_iff).2 ⟨fun e => hac e.symm, hc⟩)
  have hg := g.sum
  have hnewf : (node.freqAt f.nnodes).toNat = (f.node.freqAt a).toNat + (f.node.freqAt c).toNat := by
    have e : node.freqAt f.nnodes = f.node.freqAt a + f.node.freqAt c := by
      simp only [Arena.freqAt] at hnew ⊢
      rw [hnew]
      rfl
    rw [e, BitVec.toNat_add, Nat.mod_eq_of_lt (by omega)]
  refine ⟨by simp only; omega, ?_, ?_, ?_, ?_, ?_, ?_, ?_, ?_, ?_, ?_, ?_, ?_⟩
  · have := g.live_length
    simp only [List.length_append, List.length_singleton,
      List.length_erase_of_mem ((g.nodup.mem_erase_iff).2 ⟨fun e => hac e.symm, hc⟩), List.length_erase_of_mem ha]
    omega
  · refine List.nodup_append.2 ⟨(g.nodup.erase a).erase c, by simp, ?_⟩
    rintro x hx y hy rfl
    simp only [List.mem_singleton] at hy
    have := g.live_lt x (List.mem_of_mem_erase (List.mem_of_mem_erase hx))
    omega
  · intro j hj
    rcases (hmem j).1 hj with ⟨h, -, -⟩ | rfl
    · exact Nat.lt_succ_of_lt (g.live_lt j h)
    · exact Nat.lt_succ_self _
  · intro _
    simp
  · intro i hi
    exact (hlt i (by omega)).trans (g.kept i hi)
  · intro i hi hlt'
    rcases Nat.lt_succ_iff_lt_or_eq.1 hlt' with h | rfl
    · obtain ⟨fr, l, r, h1, h2, h3, h4, h5⟩ := Arena.joinsSmaller_iff.1 (g.joins i hi h)
      rw [Arena.joinsSmaller_iff]
      exact ⟨fr, l, r, (hlt i h).trans h1, h2, h3, h4, by rw [hfreq _ (by omega), hfreq _ (by omega)]; exact h5⟩
    · rw [Arena.joinsSmaller_iff]
      refine ⟨_, _, _, hnew, by omega, by omega, fun e => hac (by rw [← hna, ← hnc, e]), ?_⟩
      rw [hna, hnc, hfreq a ha', hfreq c hc']
  · intro i hi hlt'
    have hlive : ∀ i j, i ≤ f.nnodes → (node.liveAt i j ↔ f.node.liveAt i j) := by
      intro i j hi
      unfold Arena.liveAt
      refine and_congr_right fun _ => forall₂_congr fun m hm => ?_
      rw [hchild m j (by omega)]
    rcases Nat.lt_succ_iff_lt_or_eq.1 hlt' with h | rfl
    · obtain ⟨fr, l, r, h1, h2, h3, h4, h5⟩ := g.least i hi h
      refine ⟨fr, l, r, (hlt i h).trans h1, (hlive i _ h.le).2 h2, (hlive i _ h.le).2 h3, h4, fun j hj => ?_⟩
      have hj' := (hlive i _ h.le).1 hj
      rw [Arena.before_congr (hlt _ (h2.1.trans h)) (hlt _ (hj.1.trans h)),
        Arena.before_congr (hlt _ (h3.1.trans h)) (hlt _ (hj.1.trans h))]
      exact h5 j hj'
    · have hl : ∀ j, f.node.liveAt f.nnodes j ↔ j ∈ f.live := by
        intro j
        constructor
        · rintro ⟨hj, hr⟩
          by_contra hn
          obtain ⟨i, hi, hc, -⟩ := g.homes j hj hn
          simp [hr i hi] at hc
        · exact fun hj => ⟨g.live_lt j hj, g.roots j hj⟩
      refine ⟨_, _, _, hnew, ?_, ?_, fun e => hac (by rw [← hna, ← hnc, e]), fun j hj => ?_⟩
      · rw [hna, hlive _ _ le_rfl, hl]; exact ha
      · rw [hnc, hlive _ _ le_rfl, hl]; exact hc
      · rw [hlive _ _ le_rfl, hl] at hj
        rw [hna, hnc, Arena.before_congr (hlt a ha') (hlt j (g.live_lt j hj)),
          Arena.before_congr (hlt c hc') (hlt j (g.live_lt j hj))]
        exact ⟨hal j hj, hcl j hj⟩
  · intro j hj i hi
    rcases Nat.lt_succ_iff_lt_or_eq.1 hi with h | rfl
    · rw [hchild i j h]
      rcases (hmem j).1 hj with ⟨h', -, -⟩ | rfl
      · exact g.roots j h' i h
      · by_contra hc
        rw [Bool.not_eq_false, Arena.isChild_iff] at hc
        obtain ⟨fr, l, r, h1, h2⟩ := hc
        by_cases hin : i < n
        · obtain ⟨b, fr', h3⟩ := hleaf i hin
          rw [g.kept i hin, h3] at h1
          cases h1
        · obtain ⟨fr', l', r', h3, h4, h5, -, -⟩ := Arena.joinsSmaller_iff.1 (g.joins i (by omega) h)
          rw [h1] at h3
          cases h3
          omega
    · rw [← Bool.not_eq_true, hchild_new]
      rcases (hmem j).1 hj with ⟨-, h1, h2⟩ | rfl
      · simp [h1, h2]
      · omega
  · intro j hj hnl
    have hjn : j ≠ f.nnodes := fun e => hnl ((hmem j).2 (.inr e))
    have hjlt : j < f.nnodes := by have : j < f.nnodes + 1 := hj; omega
    by_cases hjl : j ∈ f.live
    · have hjac : j = a ∨ j = c := by
        by_contra h
        rw [not_or] at h
        exact hnl ((hmem j).2 (.inl ⟨hjl, h.1, h.2⟩))
      refine ⟨f.nnodes, Nat.lt_succ_self _, (hchild_new j).2 hjac, fun k hk hkj => ?_⟩
      rcases Nat.lt_succ_iff_lt_or_eq.1 hk with h | rfl
      · rw [hchild k j h, g.roots j hjl k h] at hkj
        cases hkj
      · rfl
    · obtain ⟨i, hi, hic, hiu⟩ := g.homes j hjlt hjl
      refine ⟨i, Nat.lt_succ_of_lt hi, by rw [hchild i j hi]; exact hic, fun k hk hkj => ?_⟩
      rcases Nat.lt_succ_iff_lt_or_eq.1 hk with h | rfl
      · exact hiu k h (by rw [← hchild k j h]; exact hkj)
      · rcases (hchild_new j).1 hkj with rfl | rfl
        · exact absurd ha hjl
        · exact absurd hc hjl
  · have hcong : ((f.live.erase a).erase c).map (fun j => (node.freqAt j).toNat) =
        ((f.live.erase a).erase c).map (fun j => (f.node.freqAt j).toNat) := by
      refine List.map_congr_left fun j hj => ?_
      rw [hfreq j (g.live_lt j (List.mem_of_mem_erase (List.mem_of_mem_erase hj)))]
    simp only [List.map_append, List.sum_append, hcong, List.map_cons, List.map_nil, List.sum_cons, List.sum_nil,
      hnewf]
    omega
  · intro i hi hi'
    have hi'' : i + 1 < f.nnodes + 1 := hi'
    rw [hfreq i (by omega)]
    by_cases h : i + 1 < f.nnodes
    · rw [hfreq _ h]
      exact g.mono i hi h
    · have e : i + 1 = f.nnodes := by omega
      have hnx := g.next (by omega) a ha c hc hac
      rw [e, hnewf]
      rw [← e] at hnx
      exact hnx
  · intro _ j hj m hm' hjm
    have e : (f.nnodes + 1 : Nat) - 1 = f.nnodes := rfl
    simp only [e, hnewf]
    have hle : ∀ x, x ∈ f.live → x ≠ a → x ≠ c → (f.node.freqAt c).toNat ≤ (f.node.freqAt x).toNat := by
      intro x hx hxa hxc
      have := Arena.before_iff.1 (hcl x hx hxa hxc)
      omega
    have hac' := Arena.before_iff.1 (hal c hc (fun e => hac e.symm))
    rcases (hmem j).1 hj with ⟨h1, h2, h3⟩ | rfl <;> rcases (hmem m).1 hm' with ⟨h4, h5, h6⟩ | rfl
    · rw [hfreq j (g.live_lt j h1), hfreq m (g.live_lt m h4)]
      have := hle j h1 h2 h3
      have := hle m h4 h5 h6
      omega
    · rw [hnewf]; omega
    · rw [hnewf]; omega
    · exact absurd rfl hjm

/-- All passes: after `k` of them the forest has `n + k` nodes. -/
theorem Grown.mergeTimes {a₀ : Arena} {n total : Nat} (hleaf : ∀ i < n, ∃ b fr, a₀[i]? = some (.leaf b fr))
    (hn : n ≤ 256) (htotal : total < 2 ^ 40) (k : Nat) {f : Forest} (g : Grown a₀ n total f)
    (hk : k + 1 ≤ f.live.length) :
    ∃ f', Forest.mergeTimes k f = .ok f' ∧ Grown a₀ n total f' ∧ f'.nnodes = f.nnodes + k := by
  induction k generalizing f with
  | zero => exact ⟨f, rfl, g, rfl⟩
  | succ k ih =>
    obtain ⟨f₁, h1, g1, e1⟩ := g.merge hleaf hn htotal (by omega)
    have := g.live_length
    have := g1.live_length
    obtain ⟨f₂, h2, g2, e2⟩ := ih g1 (by omega)
    refine ⟨f₂, ?_, g2, by omega⟩
    simp [Forest.mergeTimes, h1, Except.bind, h2]

end Forest

/-- Placing nodes from an index on writes exactly those (R120 step 1). -/
theorem placeNodes_spec (ns : List Node) (a : Arena) (i : Nat) (h : i + ns.length ≤ 511) :
    ∃ a', placeNodes a i ns = .ok a' ∧ (∀ k < ns.length, a'[i + k]? = ns[k]?) ∧
      ∀ j, (j < i ∨ i + ns.length ≤ j) → a'[j]? = a[j]? := by
  induction ns generalizing a i with
  | nil => exact ⟨a, rfl, by simp, fun _ _ => rfl⟩
  | cons n ns ih =>
    simp only [List.length_cons] at h
    obtain ⟨a1, h1⟩ := Arena.write_of_lt a n (show i < 511 by omega)
    obtain ⟨-, hn, ho⟩ := Arena.write_ok h1
    obtain ⟨a2, h2, hin, hout⟩ := ih a1 (i + 1) (by omega)
    refine ⟨a2, by simp [placeNodes, h1, Except.bind, h2], fun k hk => ?_, fun j hj => ?_⟩
    · cases k with
      | zero => rw [Nat.add_zero, hout i (by omega), hn]; rfl
      | succ k =>
        simp only [List.length_cons] at hk
        have := hin k (by omega)
        rw [show i + (k + 1) = i + 1 + k by omega, this]
        rfl
    · simp only [List.length_cons] at hj
      rw [hout j (by omega), ho j (by omega)]

/-- The sum of the counts of the table (R126 item 7). -/
def countSum (s : State) : Nat := (s.keys.map fun b => (s.freq.read b).toNat).sum

theorem List.sum_le_card_mul {l : List Nat} {m : Nat} (h : ∀ x ∈ l, x ≤ m) : l.sum ≤ l.length * m := by
  simpa using List.sum_le_card_nsmul l m h

/-- The counts of a legal table sum to less than 2^39 (R125). -/
theorem countSum_lt {s : State} (h : s.TableOk) : countSum s < 2 ^ 39 := by
  have h1 : countSum s ≤ (s.keys.map fun b => (s.freq.read b).toNat).length * Config.countMax.toNat := by
    refine List.sum_le_card_mul fun x hx => ?_
    obtain ⟨b, hb, rfl⟩ := List.mem_map.1 hx
    exact h.count_le b (mem_keys.1 hb)
  have h2 := keys_length_le s
  have h3 : Config.countMax.toNat = 2 ^ 31 - 1 := rfl
  simp only [List.length_map, h3] at h1
  omega

theorem leafOf_freq {s : State} {b : Byte} : (leafOf s b).freq.toNat = (s.freq.read b).toNat := by
  simp only [leafOf, Node.freq]
  have := (s.freq.read b).isLt
  simp
  omega

/-- The forest of leaves that `BUILD` starts from (R120 step 1). -/
theorem leafForest_spec {s : State} (h : s.TableOk) :
    ∃ f a₀, leafForest s = .ok f ∧ Forest.Grown a₀ s.nleaf.toNat (countSum s) f ∧ f.nnodes = s.nleaf.toNat ∧
      (∀ i < s.nleaf.toNat, a₀[i]? = s.keys[i]?.map (leafOf s)) ∧
      ∀ j, s.nleaf.toNat ≤ j → f.node[j]? = s.node[j]? := by
  have hlen := h.nleaf_eq
  have hle := keys_length_le s
  obtain ⟨a₀, h0, hin, hout⟩ := placeNodes_spec (s.keys.map (leafOf s)) s.node 0 (by simp; omega)
  simp only [List.length_map, Nat.zero_add] at hin hout
  have hleaf : ∀ i < s.nleaf.toNat, a₀[i]? = s.keys[i]?.map (leafOf s) := by
    intro i hi
    rw [hin i (by omega), List.getElem?_map]
  have hfreq : ∀ i (hi : i < s.keys.length), (a₀.freqAt i).toNat = (s.freq.read s.keys[i]).toNat := by
    intro i hi
    simp only [Arena.freqAt, hleaf i (by omega), List.getElem?_eq_getElem hi, Option.map_some, Option.getD_some]
    exact leafOf_freq
  refine ⟨⟨a₀, s.nleaf.toNat, List.range s.nleaf.toNat⟩, a₀, by simp [leafForest, h0, Except.map], ?_, rfl, hleaf,
    fun j hj => hout j (by omega)⟩
  refine ⟨le_rfl, by simp; omega, List.nodup_range, by simp, by simp, fun _ _ => rfl, by simp; omega, by simp; omega,
    ?_, fun j hj hnl => absurd (List.mem_range.2 hj) hnl, ?_, by simp; omega, by simp⟩
  · intro j _ i (hi : i < s.nleaf.toNat)
    rw [← Bool.not_eq_true, Arena.isChild_iff]
    rintro ⟨fr, l, r, h1, -⟩
    rw [hleaf i hi, List.getElem?_eq_getElem (show i < s.keys.length by omega)] at h1
    cases h1
  · simp only [countSum]
    congr 1
    refine List.ext_getElem (by simp [hlen]) fun i h1 h2 => ?_
    simp only [List.length_map, List.length_range] at h1
    simp [hfreq i (by omega)]

/-- The forest of one tree that `BUILD` ends with (R120 steps 2 and 3, R126). -/
theorem huffmanForest_spec {s : State} (h : s.TableOk) (hn : s.nleaf ≠ 0#9) :
    ∃ f a₀, huffmanForest s = .ok f ∧ Forest.Grown a₀ s.nleaf.toNat (countSum s) f ∧
      f.nnodes = 2 * s.nleaf.toNat - 1 ∧ f.live = [2 * s.nleaf.toNat - 2] ∧
      (∀ i < s.nleaf.toNat, a₀[i]? = s.keys[i]?.map (leafOf s)) := by
  have hpos : 1 ≤ s.nleaf.toNat := by
    rcases Nat.eq_zero_or_pos s.nleaf.toNat with h0 | h0
    · exact absurd (BitVec.eq_of_toNat_eq (by simpa using h0)) hn
    · exact h0
  have hlen := h.nleaf_eq
  have hle := keys_length_le s
  have hsum := countSum_lt h
  obtain ⟨f₀, a₀, h0, g0, e0, hleaf, -⟩ := leafForest_spec h
  have hl0 := g0.live_length
  obtain ⟨f, h1, g, e⟩ := Forest.Grown.mergeTimes
    (fun i hi => ⟨_, _, by rw [hleaf i hi, List.getElem?_eq_getElem (show i < s.keys.length by omega)]; rfl⟩)
    (by omega) (by omega) (s.nleaf.toNat - 1) g0 (by omega)
  refine ⟨f, a₀, by simp [huffmanForest, h0, Except.bind, h1], g, by omega, ?_, hleaf⟩
  have hl := g.live_length
  obtain ⟨x, hx⟩ := List.length_eq_one_iff.1 (show f.live.length = 1 by omega)
  rw [hx]
  by_cases h1 : s.nleaf.toNat = 1
  · have := g.live_lt x (by simp [hx])
    have : x = 0 := by omega
    simp [this, h1]
  · have := g.last_live (by omega)
    rw [hx] at this
    simp only [List.mem_singleton] at this
    rw [← this, e, e0]
    congr 1
    omega

end Machine

end Sys2Proof
end

