-- ==== Sys2Proof/Laws/CodeTable.lean ====
section
/-! SUPPORT. What the walk of `GEN` finds (spec/42_code_table.md R140, R142) and how a code is stored (spec/10_state.md
R31). -/

namespace Sys2Proof.Machine

section Walk
variable {a : Arena} {d i : Nat} {path : List Bool}

/-- The walk at a leaf (R140). -/
theorem walk_leaf {b : Byte} {fr : NodeFreq} (h : a[i]? = some (.leaf b fr)) : walk a d i path = .ok [(b, path)] := by
  cases d <;> simp [walk, Arena.read_eq, h]

/-- The walk at an internal node (R140). -/
theorem walk_internal {fr : NodeFreq} {l r : NodeIndex} (h : a[i]? = some (.internal fr l r)) :
    walk a (d + 1) i path = (walk a d l.toNat (path ++ [false])).bind fun ls =>
      (walk a d r.toNat (path ++ [true])).map fun rs => ls ++ rs := by
  rw [walk, Arena.read_eq, h]

/-- What a walk that answers went through: a leaf, or an internal node and its two children. -/
theorem walk_cases {es : List (Byte × List Bool)} (h : walk a d i path = .ok es) :
    (∃ b fr, a[i]? = some (.leaf b fr) ∧ es = [(b, path)]) ∨
    (∃ fr l r d' ls rs, a[i]? = some (.internal fr l r) ∧ d = d' + 1 ∧
      walk a d' l.toNat (path ++ [false]) = .ok ls ∧ walk a d' r.toNat (path ++ [true]) = .ok rs ∧ es = ls ++ rs) := by
  cases hi : a[i]? with
  | none => cases d <;> simp [walk, Arena.read_eq, hi] at h
  | some n =>
    cases n with
    | leaf b fr =>
      rw [walk_leaf hi] at h
      cases h
      exact .inl ⟨b, fr, rfl, rfl⟩
    | internal fr l r =>
      cases d with
      | zero => simp [walk, Arena.read_eq, hi] at h
      | succ d =>
        rw [walk_internal hi] at h
        cases hl : walk a d l.toNat (path ++ [false]) with
        | error e => simp [hl, Except.bind] at h
        | ok ls =>
          cases hr : walk a d r.toNat (path ++ [true]) with
          | error e => simp [hl, hr, Except.bind, Except.map] at h
          | ok rs =>
            simp only [hl, hr, Except.bind, Except.map, Except.ok.injEq] at h
            exact .inr ⟨fr, l, r, d, ls, rs, rfl, rfl, hl, hr, h.symm⟩

/-- Every path found below a node extends the path to it. -/
theorem walk_extends {es : List (Byte × List Bool)} (h : walk a d i path = .ok es) : ∀ e ∈ es, path <+: e.2 := by
  induction d generalizing i path es with
  | zero =>
    rcases walk_cases h with ⟨b, fr, -, rfl⟩ | ⟨_, _, _, _, _, _, _, h', _⟩
    · simp
    · omega
  | succ d ih =>
    rcases walk_cases h with ⟨b, fr, -, rfl⟩ | ⟨fr, l, r, d', ls, rs, -, hd, hl, hr, rfl⟩
    · simp
    · obtain rfl : d = d' := by omega
      intro e he
      rcases List.mem_append.1 he with he | he
      · exact (List.prefix_append _ _).trans (ih hl e he)
      · exact (List.prefix_append _ _).trans (ih hr e he)

/-- Two lists that part at a symbol are no prefixes of each other's extensions. -/
theorem not_prefix_of_part {p q c : List Bool} {s t : Bool} (h : c ++ [s] <+: p) (h' : c ++ [t] <+: q) (hst : s ≠ t) :
    ¬ p <+: q := by
  intro hpq
  obtain ⟨u, rfl⟩ := h
  obtain ⟨v, rfl⟩ := h'
  have := (List.prefix_append (c ++ [s]) u).trans hpq
  rw [List.append_assoc, List.prefix_append_right_inj] at this
  simp at this
  exact hst this

/-- The paths of a walk are prefix-free: "no leaf lies on the path to another" (R142 item 3). -/
theorem walk_prefixFree {es : List (Byte × List Bool)} (h : walk a d i path = .ok es) :
    es.Pairwise fun e f => ¬ e.2 <+: f.2 ∧ ¬ f.2 <+: e.2 := by
  induction d generalizing i path es with
  | zero =>
    rcases walk_cases h with ⟨b, fr, -, rfl⟩ | ⟨_, _, _, _, _, _, _, h', _⟩
    · simp
    · omega
  | succ d ih =>
    rcases walk_cases h with ⟨b, fr, -, rfl⟩ | ⟨fr, l, r, d', ls, rs, -, hd, hl, hr, rfl⟩
    · simp
    · obtain rfl : d = d' := by omega
      refine List.pairwise_append.2 ⟨ih hl, ih hr, fun e he f hf => ?_⟩
      exact ⟨not_prefix_of_part (walk_extends hl e he) (walk_extends hr f hf) (by decide),
        not_prefix_of_part (walk_extends hr f hf) (walk_extends hl e he) (by decide)⟩

/-- Every long enough bit sequence runs into a leaf: "every internal node has exactly two children" (R142 item 4). -/
theorem walk_complete {es : List (Byte × List Bool)} (h : walk a d i path = .ok es) (bits : List Bool)
    (hb : d ≤ bits.length) : ∃ e ∈ es, e.2 <+: path ++ bits := by
  induction d generalizing i path es bits with
  | zero =>
    rcases walk_cases h with ⟨b, fr, -, rfl⟩ | ⟨_, _, _, _, _, _, _, h', _⟩
    · exact ⟨_, List.mem_singleton.2 rfl, List.prefix_append _ _⟩
    · omega
  | succ d ih =>
    rcases walk_cases h with ⟨b, fr, -, rfl⟩ | ⟨fr, l, r, d', ls, rs, -, hd, hl, hr, rfl⟩
    · exact ⟨_, List.mem_singleton.2 rfl, List.prefix_append _ _⟩
    · obtain rfl : d = d' := by omega
      cases bits with
      | nil => simp at hb
      | cons s bits =>
        simp only [List.length_cons] at hb
        cases s with
        | false =>
          obtain ⟨e, he, hp⟩ := ih hl bits (by omega)
          exact ⟨e, List.mem_append_left _ he, by simpa using hp⟩
        | true =>
          obtain ⟨e, he, hp⟩ := ih hr bits (by omega)
          exact ⟨e, List.mem_append_right _ he, by simpa using hp⟩

end Walk

section Tree
variable {s : State}

/-- A leaf of the tree (R126 item 3). -/
theorem State.TreeOk.leaf_at (h : s.TreeOk) (ht : s.TableOk) {i : Nat} (hi : i < s.nleaf.toNat) :
    ∃ b, s.keys[i]? = some b ∧ s.node[i]? = some (leafOf s b) := by
  have hl := ht.nleaf_eq
  exact ⟨_, List.getElem?_eq_getElem (by omega), by
    rw [h.leaves i hi, List.getElem?_eq_getElem (by omega)]; rfl⟩

/-- A node of the tree is a leaf or has two children of smaller index (R126 items 3 and 4). -/
theorem State.TreeOk.node_cases (h : s.TreeOk) (ht : s.TableOk) {i : Nat} (hi : i < s.nnodes.toNat) :
    (∃ b fr, s.node[i]? = some (.leaf b fr)) ∨
    ∃ fr l r, s.node[i]? = some (.internal fr l r) ∧ l.toNat < i ∧ r.toNat < i := by
  by_cases hin : i < s.nleaf.toNat
  · obtain ⟨b, -, hb⟩ := h.leaf_at ht hin
    exact .inl ⟨_, _, hb⟩
  · obtain ⟨fr, l, r, hn, hl, hr, -⟩ := Arena.joinsSmaller_iff.1 (h.internals i hi (by omega))
    exact .inr ⟨fr, l, r, hn, hl, hr⟩

/-- A child has the smaller index, and its parent is an internal node of the tree (R126 item 4). -/
theorem State.TreeOk.child_lt (h : s.TreeOk) (ht : s.TableOk) {i j : Nat} (hi : i < s.nnodes.toNat)
    (hc : s.node.isChild i j = true) : j < i ∧ s.nleaf.toNat ≤ i := by
  obtain ⟨fr, l, r, h1, h2⟩ := Arena.isChild_iff.1 hc
  by_cases hin : i < s.nleaf.toNat
  · obtain ⟨b, -, h3⟩ := h.leaf_at ht hin
    rw [h1] at h3
    cases h3
  · obtain ⟨fr', l', r', h3, h4, h5, -, -⟩ := Arena.joinsSmaller_iff.1 (h.internals i hi (by omega))
    rw [h1] at h3
    cases h3
    omega

/-- No node has two parents (R126 item 4). -/
theorem State.TreeOk.parent_unique (h : s.TreeOk) (ht : s.TableOk) {i k j : Nat} (hi : i < s.nnodes.toNat)
    (hk : k < s.nnodes.toNat) (hij : s.node.isChild i j = true) (hkj : s.node.isChild k j = true) : i = k := by
  have := h.child_lt ht hi hij
  obtain ⟨p, -, -, hp⟩ := h.parents j (by omega)
  rw [hp i hi hij, hp k hk hkj]

/-- Node `j` lies below node `i` or is `i` itself. -/
def State.Below (s : State) : Nat → Nat → Prop :=
  Relation.ReflTransGen fun i j => i < s.nnodes.toNat ∧ s.node.isChild i j = true

theorem State.TreeOk.below_le (h : s.TreeOk) (ht : s.TableOk) {i j : Nat} (hb : s.Below i j) : j ≤ i := by
  induction hb with
  | refl => exact le_rfl
  | tail _ hc ih => have := h.child_lt ht hc.1 hc.2; omega

/-- Of two nodes above a third, one lies below the other. -/
theorem State.TreeOk.below_linear (h : s.TreeOk) (ht : s.TableOk) {x y j : Nat} (hx : s.Below x j) (hy : s.Below y j) :
    s.Below x y ∨ s.Below y x := by
  induction hx with
  | refl => exact .inr hy
  | tail hxp hc ih =>
    rcases Relation.ReflTransGen.cases_tail hy with rfl | ⟨p, hyp, hc'⟩
    · exact .inl (hxp.tail hc)
    · rw [h.parent_unique ht hc'.1 hc.1 hc'.2 hc.2] at hyp
      exact ih hyp

/-- The two subtrees below a node have no node in common. -/
theorem State.TreeOk.below_disjoint (h : s.TreeOk) (ht : s.TableOk) {i l r j : Nat} (hi : i < s.nnodes.toNat)
    (hl : s.node.isChild i l = true) (hr : s.node.isChild i r = true) (hlr : l ≠ r) (hlj : s.Below l j)
    (hrj : s.Below r j) : False := by
  have key : ∀ x y, s.node.isChild i x = true → s.node.isChild i y = true → x ≠ y → ¬ s.Below x y := by
    intro x y hx hy hxy hb
    rcases Relation.ReflTransGen.cases_tail hb with rfl | ⟨p, hxp, hc⟩
    · exact hxy rfl
    · rw [h.parent_unique ht hc.1 hi hc.2 hy] at hxp
      have := h.below_le ht hxp
      have := h.child_lt ht hi hx
      omega
  rcases h.below_linear ht hlj hrj with hb | hb
  · exact key l r hl hr hlr hb
  · exact key r l hr hl hlr.symm hb

/-- Every node lies below the root (R126 item 4). -/
theorem State.TreeOk.below_root (h : s.TreeOk) (ht : s.TableOk) {j : Nat} (hj : j < s.nnodes.toNat) :
    s.Below s.root.toNat j := by
  have hroot := h.root_eq
  by_cases he : j = s.root.toNat
  · subst he; exact .refl
  · obtain ⟨i, hi, hc, -⟩ := h.parents j (by omega)
    have := h.child_lt ht hi hc
    exact (h.below_root ht hi).tail ⟨hi, hc⟩
termination_by s.nnodes.toNat - j

theorem State.TreeOk.walk_spec_leaf (h : s.TreeOk) (ht : s.TableOk) (d : Nat) {i : Nat} (hi : i < s.nleaf.toNat)
    (path : List Bool) :
    ∃ es, walk s.node d i path = .ok es ∧ (es.map Prod.fst).Nodup ∧
      (∀ b, b ∈ es.map Prod.fst ↔ ∃ j < s.nleaf.toNat, s.Below i j ∧ s.keys[j]? = some b) ∧
      ∀ e ∈ es, e.2.length ≤ path.length + (i + 1 - s.nleaf.toNat) := by
  obtain ⟨b, hb, hn⟩ := h.leaf_at ht hi
  refine ⟨_, walk_leaf hn, by simp, fun c => ?_, by simp⟩
  simp only [List.map_cons, List.map_nil, List.mem_singleton]
  constructor
  · rintro rfl
    exact ⟨i, hi, .refl, hb⟩
  · rintro ⟨j, hj, hij, hc⟩
    rcases Relation.ReflTransGen.cases_head hij with rfl | ⟨k, hk, -⟩
    · rw [hb] at hc
      exact (Option.some.inj hc).symm
    · have := h.child_lt ht hk.1 hk.2
      have := h.nnodes_eq
      omega

/-- What the walk finds below a node of the tree: each leaf below it once, with a path that is at most as long as there
are internal nodes up to it (R131, R140, R142). -/
theorem State.TreeOk.walk_spec (h : s.TreeOk) (ht : s.TableOk) (d : Nat) {i : Nat} (hi : i < s.nnodes.toNat) (hd : i ≤ d)
    (path : List Bool) :
    ∃ es, walk s.node d i path = .ok es ∧ (es.map Prod.fst).Nodup ∧
      (∀ b, b ∈ es.map Prod.fst ↔ ∃ j < s.nleaf.toNat, s.Below i j ∧ s.keys[j]? = some b) ∧
      ∀ e ∈ es, e.2.length ≤ path.length + (i + 1 - s.nleaf.toNat) := by
  have hpos := h.leaf_pos
  have hlen := ht.nleaf_eq
  by_cases hin : i < s.nleaf.toNat
  · exact h.walk_spec_leaf ht d hin path
  · induction d generalizing i path with
    | zero => omega
    | succ d ih =>
      obtain ⟨fr, l, r, hn, hl, hr, hlr, -⟩ := Arena.joinsSmaller_iff.1 (h.internals i hi (by omega))
      have hcl : s.node.isChild i l.toNat = true := Arena.isChild_iff.2 ⟨_, _, _, hn, .inl rfl⟩
      have hcr : s.node.isChild i r.toNat = true := Arena.isChild_iff.2 ⟨_, _, _, hn, .inr rfl⟩
      have hne : l.toNat ≠ r.toNat := fun e => hlr (BitVec.eq_of_toNat_eq e)
      have ih' : ∀ {j : Nat}, j < i → ∀ p, ∃ es, walk s.node d j p = .ok es ∧ (es.map Prod.fst).Nodup ∧
          (∀ b, b ∈ es.map Prod.fst ↔ ∃ k < s.nleaf.toNat, s.Below j k ∧ s.keys[k]? = some b) ∧
          ∀ e ∈ es, e.2.length ≤ p.length + (j + 1 - s.nleaf.toNat) := by
        intro j hj p
        by_cases hjn : j < s.nleaf.toNat
        · exact h.walk_spec_leaf ht d hjn p
        · exact ih (by omega) (by omega) p hjn
      obtain ⟨ls, hls, hln, hlm, hll⟩ := ih' hl (path ++ [false])
      obtain ⟨rs, hrs, hrn, hrm, hrl⟩ := ih' hr (path ++ [true])
      refine ⟨ls ++ rs, by simp [walk_internal hn, hls, hrs, Except.bind, Except.map], ?_, fun b => ?_, fun e he => ?_⟩
      · rw [List.map_append, List.nodup_append]
        refine ⟨hln, hrn, ?_⟩
        rintro b hb c hc rfl
        obtain ⟨j, hj, hlj, hbj⟩ := (hlm b).1 hb
        obtain ⟨k, hk, hrk, hbk⟩ := (hrm b).1 hc
        have : j = k := by
          refine (List.getElem?_inj (by omega) (keys_nodup s)).1 (hbj.trans hbk.symm)
        subst this
        exact h.below_disjoint ht hi hcl hcr hne hlj hrk
      · rw [List.map_append, List.mem_append, hlm, hrm]
        constructor
        · rintro (⟨j, hj, hb, hk⟩ | ⟨j, hj, hb, hk⟩)
          · exact ⟨j, hj, .head ⟨hi, hcl⟩ hb, hk⟩
          · exact ⟨j, hj, .head ⟨hi, hcr⟩ hb, hk⟩
        · rintro ⟨j, hj, hb, hk⟩
          rcases Relation.ReflTransGen.cases_head hb with rfl | ⟨m, ⟨-, hm⟩, hb'⟩
          · omega
          · obtain ⟨fr', l', r', h1, h2⟩ := Arena.isChild_iff.1 hm
            rw [hn] at h1
            cases h1
            rcases h2 with rfl | rfl
            · exact .inl ⟨j, hj, hb', hk⟩
            · exact .inr ⟨j, hj, hb', hk⟩
      · rcases List.mem_append.1 he with he | he
        · have := hll e he
          simp only [List.length_append, List.length_singleton] at this
          omega
        · have := hrl e he
          simp only [List.length_append, List.length_singleton] at this
          omega

/-- What the walk of `GEN` finds in a tree: every key once, with a path of at most 255 symbols (R131, R142). -/
theorem State.TreeOk.leafPaths_spec (h : s.TreeOk) (ht : s.TableOk) :
    ∃ es, s.leafPaths = .ok es ∧ (es.map Prod.fst).Perm s.keys ∧ ∀ e ∈ es, e.2.length ≤ s.nleaf.toNat - 1 := by
  have hroot := h.root_eq
  have hnn := h.nnodes_eq
  have hpos := h.leaf_pos
  have hlen := ht.nleaf_eq
  have hle := keys_length_le s
  obtain ⟨es, he, hn, hm, hl⟩ := h.walk_spec ht Config.maxNodes (i := s.root.toNat) (by omega)
    (by simp only [Config.maxNodes]; omega) []
  refine ⟨es, he, (List.perm_ext_iff_of_nodup hn (keys_nodup s)).2 fun b => ?_, fun e hx => ?_⟩
  · rw [hm]
    constructor
    · rintro ⟨j, -, -, hj⟩
      exact List.mem_of_getElem? hj
    · intro hb
      obtain ⟨j, hj, rfl⟩ := List.getElem_of_mem hb
      exact ⟨j, by omega, h.below_root ht (by omega), List.getElem?_eq_getElem hj⟩
  · have := hl e hx
    simp only [List.length_nil, Nat.zero_add] at this
    omega

end Tree

/-- The bits of a stored code (R31). -/
theorem codeField_getLsbD (path : List Bool) (h : path.length ≤ 255) (k : Nat) :
    (codeField path).getLsbD k = (path.reverse[k]?).getD false := by
  induction path using List.reverseRecOn generalizing k with
  | nil => simp [codeField]
  | append_singleton p s ih =>
    simp only [List.length_append, List.length_singleton] at h
    have hc : codeField (p ++ [s]) = (codeField p <<< 1) ||| bitValue 255 s := by simp [codeField]
    have hb : ∀ k, (bitValue 255 s).getLsbD k = (decide (k = 0) && s) := by
      intro k
      cases s
      · simp [bitValue]
      · simp [bitValue, BitVec.getLsbD_one]
    rw [hc, BitVec.getLsbD_or, hb, BitVec.getLsbD_shiftLeft]
    cases k with
    | zero => simp
    | succ k =>
      simp only [List.reverse_append, List.reverse_singleton, List.singleton_append, List.getElem?_cons_succ]
      rw [← ih (by omega) k]
      by_cases hk : k + 1 < 255
      · simp [hk]
      · have : (codeField p).getLsbD k = false := by
          rw [ih (by omega), List.getElem?_eq_none (by simp; omega)]
          rfl
        simp [hk, this]

/-- A code of at most 255 symbols is read back as it was stored (R31). -/
theorem codeSymbols_codeField (path : List Bool) (h : path.length ≤ 255) :
    codeSymbols (BitVec.ofNat 8 path.length) (codeField path) = path := by
  have hl : (BitVec.ofNat 8 path.length).toNat = path.length := by simp; omega
  refine List.ext_getElem (by simp [codeSymbols, hl]) fun k h1 h2 => ?_
  simp only [codeSymbols, hl, List.getElem_map, List.getElem_range]
  rw [codeField_getLsbD path h, List.getElem?_reverse (by omega), List.getElem?_eq_getElem (by omega)]
  simp only [Option.getD_some]
  congr 1
  omega

/-- Recording the leaves writes the code table alone (R140). -/
theorem foldl_recordCode_frame (es : List (Byte × List Bool)) (s : State) :
    es.foldl recordCode s = { s with
      code := (es.foldl recordCode s).code
      clen := (es.foldl recordCode s).clen
      cvalid := (es.foldl recordCode s).cvalid } := by
  induction es generalizing s with
  | nil => rfl
  | cons e es ih => simp only [List.foldl_cons]; rw [ih]; rfl

/-- Recording leaves with different bytes gives each byte the code of its path and leaves the other bytes alone
(R140, R141). -/
theorem foldl_recordCode_spec (es : List (Byte × List Bool)) (s : State) (hn : (es.map Prod.fst).Nodup) :
    (∀ b, (es.foldl recordCode s).cvalid.read b = (s.cvalid.read b || decide (b ∈ es.map Prod.fst))) ∧
    (∀ e ∈ es, (es.foldl recordCode s).clen.read e.1 = BitVec.ofNat 8 e.2.length ∧
      (es.foldl recordCode s).code.read e.1 = codeField e.2) ∧
    ∀ b, b ∉ es.map Prod.fst → (es.foldl recordCode s).clen.read b = s.clen.read b ∧
      (es.foldl recordCode s).code.read b = s.code.read b := by
  induction es generalizing s with
  | nil => simp
  | cons e es ih =>
    simp only [List.map_cons, List.nodup_cons] at hn
    obtain ⟨h1, h2, h3⟩ := ih (recordCode s e) hn.2
    simp only [List.foldl_cons]
    refine ⟨fun b => ?_, fun f hf => ?_, fun b hb => ?_⟩
    · rw [h1 b]
      simp only [recordCode_cvalid, Table.read_write, List.map_cons, List.mem_cons]
      by_cases hb : b = e.1 <;> simp [hb]
    · rcases List.mem_cons.1 hf with rfl | hf
      · obtain ⟨h4, h5⟩ := h3 f.1 hn.1
        rw [h4, h5]
        simp
      · exact h2 f hf
    · simp only [List.map_cons, List.mem_cons, not_or] at hb
      obtain ⟨h4, h5⟩ := h3 b hb.2
      rw [h4, h5]
      simp [Table.read_write_ne _ _ hb.1]

end Sys2Proof.Machine
end

