-- ==== Sys2Proof/Laws/BitUnpacker.lean ====
section
/-! SUPPORT. What the automaton of `CONS` does with bits (spec/44_bit_unpacker.md R165 to R168): one bit, the eight bits
of a byte, the bits of a code. -/

namespace Sys2Proof.Machine

/-- The automaton takes a sequence of bits. -/
def takeList : List Bool → State → Except Fault State
  | [], s => .ok s
  | b :: bs, s => (takeBit b s).bind (takeList bs)

theorem takeList_append (bs cs : List Bool) (s : State) :
    takeList (bs ++ cs) s = (takeList bs s).bind (takeList cs) := by
  induction bs generalizing s with
  | nil => rfl
  | cons b bs ih =>
    simp only [List.cons_append, takeList]
    cases takeBit b s with
    | error e => rfl
    | ok t => exact ih t

/-- `CONS` takes the bits of its byte, most significant first (R165, R65). -/
theorem takeBits_eq_takeList (p : Byte) (s : State) : takeBits 8 p s = takeList (bitsOf p) s := by
  have key : ∀ (n : Nat), n ≤ 8 → ∀ (w : Byte) (s : State),
      takeBits n w s = takeList ((List.range n).map fun k => w.getLsbD (7 - k)) s := by
    intro n
    induction n with
    | zero => intro _ w s; rfl
    | succ n ih =>
      intro hn w s
      rw [List.range_succ_eq_map, List.map_cons, List.map_map]
      simp only [takeBits, takeList]
      have hmsb : w.msb = w.getLsbD (7 - 0) := by simp [BitVec.msb_eq_getLsbD_last]
      rw [hmsb]
      congr 1
      funext t
      rw [ih (by omega)]
      congr 1
      refine List.map_congr_left fun k hk => ?_
      have hk := List.mem_range.1 hk
      have h1 : 7 - k < 8 := by omega
      have h2 : ¬ 7 - k < 1 := by omega
      simp only [BitVec.getLsbD_shiftLeft, h1, h2, decide_true, decide_false, Bool.not_false, Bool.true_and,
        Function.comp_apply]
      congr 1
  exact key 8 (by omega) p s

section Bit
variable {s : State} {bit : Bool} {fr : NodeFreq} {l r : NodeIndex}

/-- A bit at an internal node: no output, a step down (R165). -/
theorem takeBit_internal (h : s.node[s.cur.toNat]? = some (.internal fr l r)) :
    takeBit bit s = .ok { s with cur := if bit then r else l } := by
  simp [takeBit, emitPending, descend, Arena.read_eq, h, Except.map, Except.bind]

/-- A bit at a pending leaf of a tree whose root is Internal: the leaf's byte is emitted, and the walk steps down from
the root (R165, R166). -/
theorem takeBit_leaf {b : Byte} {fr' : NodeFreq} (h : s.node[s.cur.toNat]? = some (.leaf b fr'))
    (hr : s.node[s.root.toNat]? = some (.internal fr l r)) :
    takeBit bit s = .ok { s with out := s.out ++ [b], cur := if bit then r else l } := by
  simp [takeBit, emitPending, descend, Arena.read_eq, h, hr, Except.map, Except.bind, outAll]

/-- A bit at the only leaf of a one-leaf tree: its byte is emitted and the walk stays (R167). -/
theorem takeBit_oneLeaf {b : Byte} {fr' : NodeFreq} (h : s.node[s.cur.toNat]? = some (.leaf b fr'))
    (hr : s.node[s.root.toNat]? = some (.leaf b fr')) :
    takeBit bit s = .ok { s with out := s.out ++ [b], cur := s.root } := by
  simp [takeBit, emitPending, descend, Arena.read_eq, h, hr, Except.map, Except.bind, outAll]

end Bit

/-- The bits of a path through internal nodes move `CUR` along it and output nothing (R165, R166). -/
theorem takeList_follow (path : List Bool) {s : State} {j : NodeIndex} (h : s.node.follow s.cur.toNat path = some j.toNat) :
    takeList path s = .ok { s with cur := j } := by
  induction path generalizing s with
  | nil =>
    simp only [Arena.follow, Option.some.injEq] at h
    have : s.cur = j := BitVec.eq_of_toNat_eq h
    simp [takeList, ← this]
  | cons b bs ih =>
    rw [Arena.follow] at h
    split at h
    · rename_i fr l r hn
      simp only [takeList, takeBit_internal hn, Except.bind]
      rw [ih (s := { s with cur := if b then r else l }) (by rw [← h]; cases b <;> rfl)]
    · cases h
    · cases h

/-- Each path the walk finds leads to the leaf of its byte (R140). -/
theorem walk_follow {a : Arena} {d i : Nat} {path : List Bool} {es : List (Byte × List Bool)}
    (h : walk a d i path = .ok es) :
    ∀ e ∈ es, ∃ q j, e.2 = path ++ q ∧ a.follow i q = some j ∧ a.leafByte j = some e.1 ∧ j < 511 := by
  induction d generalizing i path es with
  | zero =>
    rcases walk_cases h with ⟨b, fr, hn, rfl⟩ | ⟨_, _, _, _, _, _, _, h', _⟩
    · simp only [List.mem_singleton, forall_eq]
      exact ⟨[], i, by simp, rfl, by simp [Arena.leafByte, hn], (Vector.getElem?_eq_some_iff.1 hn).1⟩
    · omega
  | succ d ih =>
    rcases walk_cases h with ⟨b, fr, hn, rfl⟩ | ⟨fr, l, r, d', ls, rs, hn, hd, hl, hr, rfl⟩
    · simp only [List.mem_singleton, forall_eq]
      exact ⟨[], i, by simp, rfl, by simp [Arena.leafByte, hn], (Vector.getElem?_eq_some_iff.1 hn).1⟩
    · obtain rfl : d = d' := by omega
      intro e he
      rcases List.mem_append.1 he with he | he
      · obtain ⟨q, j, h1, h2, h3, h4⟩ := ih hl e he
        exact ⟨false :: q, j, by simp [h1], by simp [Arena.follow, hn, h2], h3, h4⟩
      · obtain ⟨q, j, h1, h2, h3, h4⟩ := ih hr e he
        exact ⟨true :: q, j, by simp [h1], by simp [Arena.follow, hn, h2], h3, h4⟩

/-- The walk finds every path that leads to a leaf (R140). -/
theorem mem_walk_of_follow {a : Arena} {d i : Nat} {path : List Bool} {es : List (Byte × List Bool)}
    (h : walk a d i path = .ok es) {q : List Bool} {j : Nat} {b : Byte} (hq : a.follow i q = some j)
    (hb : a.leafByte j = some b) : (b, path ++ q) ∈ es := by
  induction q generalizing d i path es with
  | nil =>
    simp only [Arena.follow, Option.some.injEq] at hq
    subst hq
    rcases walk_cases h with ⟨c, fr, hn, rfl⟩ | ⟨fr, l, r, d', ls, rs, hn, -⟩
    · simp_all [Arena.leafByte]
    · simp [Arena.leafByte, hn] at hb
  | cons x q ih =>
    rcases walk_cases h with ⟨c, fr, hn, rfl⟩ | ⟨fr, l, r, d', ls, rs, hn, -, hl, hr, rfl⟩
    · simp [Arena.follow, hn] at hq
    · simp only [Arena.follow, hn] at hq
      cases x with
      | false => exact List.mem_append.2 (.inl (by simpa using ih hl hq))
      | true => exact List.mem_append.2 (.inr (by simpa using ih hr hq))

/-- A path in two parts is followed part by part (R165). -/
theorem follow_append (a : Arena) (p q : List Bool) (i : Nat) :
    a.follow i (p ++ q) = (a.follow i p).bind fun j => a.follow j q := by
  induction p generalizing i with
  | nil => rfl
  | cons b p ih =>
    simp only [List.cons_append, Arena.follow]
    split
    · exact ih _
    · rfl
    · rfl

/-- A leaf has no children (R30). -/
theorem follow_leaf {a : Arena} {i : Nat} {b : Byte} (h : a.leafByte i = some b) {q : List Bool} (hq : q ≠ []) :
    a.follow i q = none := by
  obtain ⟨x, q, rfl⟩ := List.exists_cons_of_ne_nil hq
  unfold Arena.leafByte at h
  split at h
  · simp [Arena.follow, *]
  · cases h
  · cases h

/-- No code is a proper prefix of another one, since a leaf has no children (R142 item 3). -/
theorem State.leadsTo.eq_of_prefix {s : State} {p q : List Bool} {b c : Byte} (hp : s.leadsTo p b) (hq : s.leadsTo q c)
    (h : p <+: q) : p = q ∧ b = c := by
  obtain ⟨j, hj, hb⟩ := hp
  obtain ⟨k, hk, hc⟩ := hq
  obtain ⟨r, rfl⟩ := h
  rw [follow_append, hj] at hk
  cases r with
  | nil =>
    simp only [Option.bind_some, Arena.follow, Option.some.injEq] at hk
    subst hk
    exact ⟨(List.append_nil p).symm, Option.some.inj (hb.symm.trans hc)⟩
  | cons x r =>
    rw [Option.bind_some, follow_leaf hb (List.cons_ne_nil x r)] at hk
    cases hk

/-- Bits split into codes in at most one way (R170, R142 item 3). -/
theorem State.Splits.unique {s : State} {bits rest rest' : List Bool} {codes codes' : List (Byte × List Bool)}
    (h : s.Splits bits codes rest) (h' : s.Splits bits codes' rest') : codes = codes' ∧ rest = rest' := by
  induction codes generalizing bits codes' with
  | nil =>
    have e := h.bits_eq
    cases codes' with
    | nil => exact ⟨rfl, by simpa [h.bits_eq] using h'.bits_eq⟩
    | cons c codes' =>
      refine absurd (h'.is_code c (by simp)) (h.no_more _ _ ⟨codes'.flatMap Prod.snd ++ rest', ?_⟩)
      simpa using e.symm.trans h'.bits_eq |>.symm
  | cons c codes ih =>
    have e := h.bits_eq
    have hc := h.is_code c (by simp)
    cases codes' with
    | nil =>
      refine absurd hc (h'.no_more _ _ ⟨codes.flatMap Prod.snd ++ rest, ?_⟩)
      simpa using h'.bits_eq.symm.trans e |>.symm
    | cons d codes' =>
      have e' := h'.bits_eq
      have hd := h'.is_code d (by simp)
      have ee : c.2 ++ (codes.flatMap Prod.snd ++ rest) = d.2 ++ (codes'.flatMap Prod.snd ++ rest') := by
        simpa using e.symm.trans e'
      have hcd : c.2 = d.2 ∧ c.1 = d.1 := by
        rcases List.prefix_or_prefix_of_prefix (List.prefix_append c.2 _) (ee ▸ List.prefix_append d.2 _) with hp | hp
        · exact hc.eq_of_prefix hd hp
        · exact (hd.eq_of_prefix hc hp).imp Eq.symm Eq.symm
      have ht : codes.flatMap Prod.snd ++ rest = codes'.flatMap Prod.snd ++ rest' := by
        rw [hcd.1] at ee
        exact List.append_cancel_left ee
      obtain ⟨h1, h2⟩ := ih (codes' := codes') ⟨rfl, fun x hx => h.is_code x (by simp [hx]), h.no_more⟩
        ⟨ht, fun x hx => h'.is_code x (by simp [hx]), h'.no_more⟩
      exact ⟨by rw [h1, Prod.ext hcd.2 hcd.1], h2⟩

end Sys2Proof.Machine
end

