-- ==== Sys2Proof/Laws/Decode.lean ====
section
/-! SUPPORT. The fields of a command word and the rows of the opcode map (spec/30_encoding.md R90, R93). -/

namespace Sys2Proof

@[simp] theorem CommandWord.op_append (o b : Byte) : CommandWord.op (o ++ b) = o := by
  refine BitVec.eq_of_getLsbD_eq fun i hi => ?_
  have h := BitVec.getLsbD_append (x := o) (y := b) (i := 8 + i)
  simp only [CommandWord.op, BitVec.getLsbD_extractLsb', hi, decide_true, Bool.true_and]
  exact h.trans (by simp)

@[simp] theorem CommandWord.low_append (o b : Byte) : CommandWord.low (o ++ b) = b := by
  refine BitVec.eq_of_getLsbD_eq fun i hi => ?_
  have h := BitVec.getLsbD_append (x := o) (y := b) (i := 0 + i)
  simp only [CommandWord.low, BitVec.getLsbD_extractLsb', hi, decide_true, Bool.true_and]
  exact h.trans (by simp [hi])

/-- A word is its two fields (R90). -/
theorem CommandWord.eq_append (w : CommandWord) : w = w.op ++ w.low := by
  refine BitVec.eq_of_getLsbD_eq fun i hi => ?_
  have h := BitVec.getLsbD_append (x := w.op) (y := w.low) (i := i)
  refine Eq.trans ?_ h.symm
  by_cases h8 : i < 8
  · simp [h8, CommandWord.low]
  · have : i - 8 < 8 := by omega
    simp [h8, CommandWord.op, this, show 8 + (i - 8) = i by omega]

/-- The mask of every row keeps the opcode alone (R93). -/
theorem CommandWord.masked (w : CommandWord) : w &&& 0xFF00#16 = w.op ++ 0#8 := by
  refine BitVec.eq_of_getLsbD_eq fun i hi => ?_
  have h := BitVec.getLsbD_append (x := w.op) (y := 0#8) (i := i)
  refine Eq.trans ?_ h.symm
  have hm : (0xFF00#16).getLsbD i = decide (8 ≤ i) := by
    have : ∀ i < 16, (0xFF00#16).getLsbD i = decide (8 ≤ i) := by decide
    exact this i hi
  by_cases h8 : i < 8
  · simp [hm, h8]
  · have : i - 8 < 8 := by omega
    simp [hm, h8, CommandWord.op, this, show 8 + (i - 8) = i by omega]
    intro; omega

/-- A row claims a word exactly when the word has the row's opcode (R93). -/
theorem OpcodeRow.claims_iff {r : OpcodeRow} {w : CommandWord} (h : r ∈ opcodeMap) :
    r.claims w = true ↔ w.op = CommandWord.op r.pattern := by
  have hr : ∀ r ∈ opcodeMap, r.mask = 0xFF00#16 ∧ r.pattern = CommandWord.op r.pattern ++ 0#8 := by decide
  obtain ⟨hm, hp⟩ := hr r h
  simp only [OpcodeRow.claims, hm, CommandWord.masked, decide_eq_true_eq]
  constructor
  · intro e
    simpa using congrArg CommandWord.op e
  · intro e
    rw [e, ← hp]

/-- No two rows of the opcode map claim one word: their opcodes differ (R93). -/
theorem opcodeMap_disjoint :
    opcodeMap.Pairwise fun r q => CommandWord.op r.pattern ≠ CommandWord.op q.pattern := by
  decide

end Sys2Proof
end

