-- ==== Sys2Proof/Laws/Dispatch.lean ====
section
/-! SUPPORT. What `exec` can answer, once for all commands but `RST` (spec/30_encoding.md R96). -/

namespace Sys2Proof.Machine

/-- The own rule of each command other than `RST`, which the treatment of R96 applies in a legal phase. -/
def ownRule : Instr → State → Answer
  | .rst, s => .next (restart s)
  | .cnt b, s => .next (countOne b .count s)
  | .cntfin, s => .next (countOne Config.sentinel .table s)
  | .mdrd b, s => .next (readMetadata b s)
  | .build, s => if s.nleaf = 0#9 then .next (raise .emptyAlphabet 0#8 s) else answer (buildTree s)
  | .gen, s => answer (generateCodes s)
  | .mdwr, s => .next { outAll s.metadataBlock s with phase := .pack }
  | .emit b, s =>
    if s.cvalid.read b = false then .next (raise .codeMissing b s) else .next ((s.codeOf b).foldl packSymbol s)
  | .fin, s => .next { flushBits s with phase := .done }
  | .cons p, s => answer ((takeBits 8 p s).map fun s => { s with phase := .unpack })
  | .endSource, s =>
    if s.phase = .idle ∨ s.phase = .mdread then .next (raise .malformedMetadata 5#8 s)
    else .next { s with phase := .done }
  | .srcerr, s => .next (raise .sourceUnreadable 0#8 s)

variable {i : Instr} {s t : State}

theorem exec_rst (s : State) : exec .rst s = .next (restart s) := rfl

/-- Every command but `RST` is treated in one way (R96). -/
theorem exec_eq_sequenced (hi : i ≠ .rst) (s : State) : exec i s = sequenced i s (ownRule i) := by
  cases i with
  | rst => exact absurd rfl hi
  | _ => rfl

/-- A faulted block ignores every command but `RST` (R226). -/
theorem exec_faulted (hi : i ≠ .rst) (h : s.fault ≠ .none) : exec i s = .next s := by
  rw [exec_eq_sequenced hi, sequenced_faulted h]

/-- A command in a phase that forbids it raises `IllegalSequence` (R222). -/
theorem exec_illegal (h : s.fault = .none) (hp : legalIn i s.phase = false) :
    exec i s = .next (raise .illegalSequence i.opcode s) := by
  have hi : i ≠ .rst := by rintro rfl; cases hp
  rw [exec_eq_sequenced hi, sequenced_illegal h hp]

/-- A command in a phase that allows it follows its own rule (R96 step 6). -/
theorem exec_legal (h : s.fault = .none) (hp : legalIn i s.phase = true) : exec i s = ownRule i s := by
  by_cases hi : i = .rst
  · subst hi; rfl
  · rw [exec_eq_sequenced hi, sequenced_legal h hp]

/-- Everything a command other than `RST` can answer that is a next state. -/
theorem exec_next (hi : i ≠ .rst) (h : exec i s = .next t) :
    (s.fault ≠ .none ∧ t = s) ∨
    (s.fault = .none ∧ legalIn i s.phase = false ∧ t = raise .illegalSequence i.opcode s) ∨
    (s.fault = .none ∧ legalIn i s.phase = true ∧ ownRule i s = .next t) :=
  sequenced_next (exec_eq_sequenced hi s ▸ h)

end Sys2Proof.Machine
end

