-- ==== Sys2Proof/Laws/Frames.lean ====
section
/-! SUPPORT. What each command can write, once per shared operation and then for every command's own rule; and that the
tree and the code table rest on their own registers alone. -/

namespace Sys2Proof.Machine

variable {s t : State}

/-- Counting an occurrence overflows with nothing else written, or writes the frequency table and the phase (R110). -/
theorem countOne_cases (b : Byte) (p : Phase) (s : State) :
    (countOne b p s = raise .countOverflow b s ∧ s.present.read b = true ∧ s.freq.read b = Config.countMax) ∨
    ∃ present freq nleaf,
      countOne b p s = { s with present := present, freq := freq, nleaf := nleaf, phase := p } := by
  unfold countOne
  split
  · exact .inr ⟨_, _, _, rfl⟩
  · split
    · exact .inl ⟨rfl, by simp_all, ‹_›⟩
    · exact .inr ⟨_, _, _, rfl⟩

/-- The metadata reader raises `MalformedMetadata(1)` to `(4)` with nothing else written, or writes its own registers,
the frequency table and the phase (R186). -/
theorem readMetadata_cases (b : Byte) (s : State) :
    (∃ k, k ∈ [1#8, 2#8, 3#8, 4#8] ∧ readMetadata b s = raise .malformedMetadata k s) ∨
    ∃ present freq nleaf phase mdpos mdsize mdcnt mdkey mdword,
      readMetadata b s = { s with
        present := present, freq := freq, nleaf := nleaf, phase := phase, mdpos := mdpos, mdsize := mdsize,
        mdcnt := mdcnt, mdkey := mdkey, mdword := mdword } := by
  unfold readMetadata readSizeByte readKeyByte readCountByte
  dsimp only
  split <;> [skip; split] <;> split <;> (try split) <;> (try split) <;>
    first
    | exact .inl ⟨_, by decide, rfl⟩
    | exact .inr ⟨_, _, _, _, _, _, _, _, _, rfl⟩

/-- A bit writes `CUR` and appends to `OUT` (R165). -/
theorem takeBit_frame {bit : Bool} (h : takeBit bit s = .ok t) :
    ∃ bytes, t = { s with cur := t.cur, out := s.out ++ bytes } := by
  unfold takeBit emitPending descend at h
  cases h1 : s.node.read s.cur.toNat with
  | error e => simp [h1, Except.map, Except.bind] at h
  | ok n =>
    rw [h1] at h
    cases n with
    | internal =>
      simp only [Except.map, Except.bind, h1] at h
      cases h; exact ⟨[], by simp⟩
    | leaf b _ =>
      simp only [Except.map, Except.bind, outAll] at h
      cases h2 : s.node.read s.root.toNat with
      | error e => simp [h2] at h
      | ok m =>
        rw [h2] at h
        cases m <;> cases h <;> exact ⟨[b], rfl⟩

/-- The bits of an operand write `CUR` and append to `OUT` (R165). -/
theorem takeBits_frame {n : Nat} {p : Byte} (h : takeBits n p s = .ok t) :
    ∃ bytes, t = { s with cur := t.cur, out := s.out ++ bytes } := by
  induction n generalizing p s with
  | zero => cases h; exact ⟨[], by simp⟩
  | succ n ih =>
    rw [takeBits] at h
    cases h1 : takeBit p.msb s with
    | error e => simp [h1, Except.bind] at h
    | ok u =>
      simp only [h1, Except.bind] at h
      obtain ⟨y, hy⟩ := takeBit_frame h1
      obtain ⟨z, hz⟩ := ih h
      exact ⟨y ++ z, by rw [hz, hy]; simp⟩

/-- Packing symbols writes `ACC` and `NBITS` and appends to `OUT` (R150). -/
theorem foldl_packSymbol_frame (path : List Bool) (s : State) :
    ∃ bytes, path.foldl packSymbol s = { s with
      acc := (path.foldl packSymbol s).acc
      nbits := (path.foldl packSymbol s).nbits
      out := s.out ++ bytes } := by
  induction path generalizing s with
  | nil => exact ⟨[], by simp⟩
  | cons sym path ih =>
    obtain ⟨y, hy⟩ := ih (packSymbol s sym)
    simp only [List.foldl_cons]
    by_cases h : s.nbits + 1#4 = 8#4
    · refine ⟨((s.acc <<< 1) ||| bitValue 8 sym) :: y, ?_⟩
      rw [packSymbol_flush h] at *
      rw [hy]; simp
    · refine ⟨y, ?_⟩
      rw [packSymbol_shift h] at *
      exact hy

/-- Everything the own rule of a command can do in a phase that allows it (R110 to R206). -/
theorem ownRule_cases {i : Instr} (hl : legalIn i s.phase = true) (h : ownRule i s = .next t) :
    match i with
    | .rst => t = restart s
    | .cnt b => t = countOne b .count s
    | .cntfin => t = countOne Config.sentinel .table s
    | .mdrd b => t = readMetadata b s
    | .build => (s.nleaf = 0#9 ∧ t = raise .emptyAlphabet 0#8 s) ∨
        (s.nleaf ≠ 0#9 ∧ ∃ node nnodes root cur,
          t = { s with node := node, nnodes := nnodes, root := root, cur := cur, phase := .tree })
    | .gen => ∃ cvalid clen code, t = { s with cvalid := cvalid, clen := clen, code := code, phase := .codes }
    | .mdwr => t = { s with out := s.out ++ s.metadataBlock, phase := .pack }
    | .emit b => (s.cvalid.read b = false ∧ t = raise .codeMissing b s) ∨
        (s.cvalid.read b = true ∧ ∃ acc nbits bytes, t = { s with acc := acc, nbits := nbits, out := s.out ++ bytes })
    | .fin => ∃ acc nbits bytes, t = { s with acc := acc, nbits := nbits, out := s.out ++ bytes, phase := .done }
    | .cons _ => ∃ cur bytes, t = { s with cur := cur, out := s.out ++ bytes, phase := .unpack }
    | .endSource => ((s.phase = .idle ∨ s.phase = .mdread) ∧ t = raise .malformedMetadata 5#8 s) ∨
        (s.phase ∈ [.tree, .codes, .unpack] ∧ t = { s with phase := .done })
    | .srcerr => t = raise .sourceUnreadable 0#8 s := by
  cases i <;> simp only [ownRule] at h ⊢
  case build =>
    split at h
    · cases h; exact .inl ⟨‹_›, rfl⟩
    · refine .inr ⟨‹_›, ?_⟩
      rw [answer_next] at h
      unfold buildTree at h
      cases hh : huffmanForest s <;> simp only [hh, Except.map] at h
      · cases h
      · cases h; exact ⟨_, _, _, _, rfl⟩
  case gen =>
    rw [answer_next] at h
    unfold generateCodes at h
    cases hh : s.leafPaths <;> simp only [hh, Except.map] at h
    · cases h
    · rw [foldl_recordCode_frame] at h
      cases h; exact ⟨_, _, _, rfl⟩
  case emit b =>
    split at h
    · cases h; exact .inl ⟨‹_›, rfl⟩
    · cases h
      obtain ⟨y, hy⟩ := foldl_packSymbol_frame (s.codeOf b) s
      exact .inr ⟨by simp_all, _, _, _, hy⟩
  case fin =>
    cases h
    unfold flushBits
    split
    · exact ⟨_, _, _, rfl⟩
    · exact ⟨s.acc, s.nbits, [], by simp⟩
  case cons p =>
    rw [answer_next] at h
    cases hh : takeBits 8 p s with
    | error e => simp [hh, Except.map] at h
    | ok u =>
      simp only [hh, Except.map] at h
      obtain ⟨y, hy⟩ := takeBits_frame hh
      cases h
      exact ⟨u.cur, y, by rw [hy]⟩
  case endSource =>
    split at h
    · cases h; exact .inl ⟨‹_›, rfl⟩
    · cases h
      refine .inr ⟨?_, rfl⟩
      simp only [legalIn] at hl
      simp_all [or_assoc]
  all_goals (cases h; rfl)

/-- The tree rests on the table, the arena and their registers alone (R126). -/
theorem State.TreeOk.congr (h : s.TreeOk) (h1 : t.nleaf = s.nleaf) (h2 : t.nnodes = s.nnodes) (h3 : t.root = s.root)
    (h4 : t.node = s.node) (h5 : t.present = s.present) (h6 : t.freq = s.freq) : t.TreeOk := by
  have hk : t.keys = s.keys := keys_congr h5
  have hl : leafOf t = leafOf s := by funext b; simp [leafOf, h6]
  exact ⟨by rw [h1]; exact h.1, by rw [h1, h2]; exact h.2, by rw [h2, h3]; exact h.3,
    by rw [h1, h4, hk, hl]; exact h.4, by rw [h1, h2, h4]; exact h.5, by rw [h2, h4]; exact h.6⟩

/-- The code table rests on the tree, the keys and its own arrays alone (R142). -/
theorem State.CodesOk.congr (h : s.CodesOk) (h1 : t.cvalid = s.cvalid) (h2 : t.clen = s.clen) (h3 : t.root = s.root)
    (h4 : t.node = s.node) (h5 : t.present = s.present) (h6 : t.code = s.code) : t.CodesOk := by
  obtain ⟨es, he, hp⟩ := h.paths
  refine ⟨by rw [h1, h5, h.valid], es, by simp only [State.leafPaths, h3, h4]; exact he, ?_⟩
  have hc : t.codeOf = s.codeOf := by funext b; simp [State.codeOf, h2, h6]
  rw [keys_congr h5, hc]
  exact hp

end Sys2Proof.Machine
end

