-- ==== Sys2Proof/Laws/Sequences.lean ====
section
/-! SUPPORT. Command sequences as folds (spec/20_memory.md R70), and what the host reads in `STATUS` (spec/10_state.md
R27). -/

namespace Sys2Proof.Machine

@[simp] theorem andThen_next {α β : Type} (a : α) (f : α → Host.Outcome β Fault Refusal) :
    andThen (.next a) f = f a := rfl

theorem execAll_cons {i : Instr} {is : List Instr} {s t : State} (h : exec i s = .next t) :
    execAll (i :: is) s = execAll is t := by
  simp [execAll, h]

theorem execAll_append (is js : List Instr) (s : State) :
    execAll (is ++ js) s = andThen (execAll is s) (execAll js) := by
  induction is generalizing s with
  | nil => rfl
  | cons i is ih =>
    simp only [List.cons_append, execAll]
    cases exec i s with
    | next t => exact ih t
    | fault r => rfl
    | refused r => rfl

/-- The fields of `STATUS` (R27). -/
theorem status_fields (s : State) :
    s.status.extractLsb' 0 4 = phaseCode s.phase ∧ s.status.extractLsb' 4 4 = faultValue s.fault ∧
      s.status.extractLsb' 8 8 = s.finfo ∧ s.status.extractLsb' 16 9 = s.nleaf ∧ s.status.extractLsb' 25 7 = 0#7 := by
  have key : ∀ (z : BitVec 7) (n : BitVec 9) (f : BitVec 8) (g h : BitVec 4) (st w : Nat),
      (z ++ n ++ f ++ g ++ h).extractLsb' st w = (z ++ n ++ f ++ g ++ h : BitVec (7 + 9 + 8 + 4 + 4)).extractLsb' st w :=
    fun _ _ _ _ _ _ _ => rfl
  have bit : ∀ (z : BitVec 7) (n : BitVec 9) (f : BitVec 8) (g h : BitVec 4) (i : Nat),
      (z ++ n ++ f ++ g ++ h : BitVec (7 + 9 + 8 + 4 + 4)).getLsbD i =
        if i < 4 then h.getLsbD i else if i < 8 then g.getLsbD (i - 4) else if i < 16 then f.getLsbD (i - 8)
        else if i < 25 then n.getLsbD (i - 16) else z.getLsbD (i - 25) := by
    intro z n f g h i
    simp only [BitVec.getLsbD_append]
    repeat' split
    all_goals first | rfl | omega
  refine ⟨?_, ?_, ?_, ?_, ?_⟩ <;>
  · refine BitVec.eq_of_getLsbD_eq fun i hi => ?_
    rw [BitVec.getLsbD_extractLsb']
    simp only [hi, decide_true, Bool.true_and]
    refine (bit _ _ _ _ _ _).trans ?_
    repeat' split
    all_goals first | omega | (congr 1; omega)

@[simp] theorem statusPhase_eq (s : State) : s.statusPhase = phaseCode s.phase := (status_fields s).1

@[simp] theorem statusFault_eq (s : State) : s.statusFault = faultValue s.fault := (status_fields s).2.1

theorem phaseCode_inj {p q : Phase} : phaseCode p = phaseCode q ↔ p = q := by
  cases p <;> cases q <;> decide

theorem faultValue_eq_zero {f : FaultCode} : faultValue f = 0#4 ↔ f = .none := by
  cases f <;> decide

end Sys2Proof.Machine
end

