-- ==== Sys2Proof/Laws/MetadataCodec.lean ====
section
/-! SUPPORT. The bytes of an integer and their assembly (spec/20_memory.md R64, spec/30_encoding.md R92), and what the
metadata reader does with a size field and with an entry (spec/45_metadata_codec.md R186). -/

namespace Sys2Proof.Machine

/-- The bits of a word after a byte is put in (R92). -/
theorem insertByte_getLsbD (w : BitVec 32) (k : Nat) (b : Byte) (hk : k < 4) (i : Nat) (hi : i < 32) :
    (insertByte w k b).getLsbD i = if 8 * k ≤ i ∧ i < 8 * k + 8 then b.getLsbD (i - 8 * k) else w.getLsbD i := by
  have hm : ∀ k < 4, ∀ i < 32, (0xFF#32 <<< (8 * k)).getLsbD i = decide (8 * k ≤ i ∧ i < 8 * k + 8) := by decide
  have hz : ∀ j, (b.zeroExtend 32).getLsbD j = (decide (j < 32) && b.getLsbD j) := by
    intro j; simp [BitVec.getLsbD_setWidth]
  simp only [insertByte, BitVec.getLsbD_or, BitVec.getLsbD_and, BitVec.getLsbD_not, hm k hk i hi,
    BitVec.getLsbD_shiftLeft, hz, hi]
  by_cases h1 : 8 * k ≤ i
  · have h2 : i - 8 * k < 32 := by omega
    by_cases h3 : i < 8 * k + 8
    · simp [h1, h2, h3, Nat.not_lt.2 h1]
    · have : b.getLsbD (i - 8 * k) = false := BitVec.getLsbD_of_ge _ _ (by omega)
      simp [h3, this]
  · simp [h1, Nat.not_le.1 h1]

/-- Four bytes put into a word give the integer they are the bytes of, whatever the word held (R64, R92). -/
theorem insertByte_le32 (v w : BitVec 32) :
    insertByte (insertByte (insertByte (insertByte w 0 (v.extractLsb' 0 8)) 1 (v.extractLsb' 8 8)) 2
      (v.extractLsb' 16 8)) 3 (v.extractLsb' 24 8) = v := by
  refine BitVec.eq_of_getLsbD_eq fun i hi => ?_
  rw [insertByte_getLsbD _ _ _ (by omega) _ hi, insertByte_getLsbD _ _ _ (by omega) _ hi,
    insertByte_getLsbD _ _ _ (by omega) _ hi, insertByte_getLsbD _ _ _ (by omega) _ hi]
  simp only [BitVec.getLsbD_extractLsb']
  split
  · rw [show 24 + (i - 8 * 3) = i by omega]; simp; omega
  split
  · rw [show 16 + (i - 8 * 2) = i by omega]; simp; omega
  split
  · rw [show 8 + (i - 8 * 1) = i by omega]; simp; omega
  · rw [if_pos (by omega), show 0 + (i - 8 * 0) = i by omega]; simp; omega

theorem le32_length (v : BitVec 32) : (le32 v).length = 4 := rfl

/-- A word is not negative exactly when it is below 2^31 (R8). -/
theorem signed32_neg {v : BitVec 32} : signed32 v < 0 ↔ 2 ^ 31 ≤ v.toNat := by
  unfold signed32
  rw [BitVec.toInt_eq_toNat_cond]
  have := v.isLt
  split <;> omega

theorem signed32_of_lt {v : BitVec 32} (h : v.toNat < 2 ^ 31) : signed32 v = v.toNat := by
  unfold signed32
  rw [BitVec.toInt_eq_toNat_cond]
  split <;> omega

/-- `MDRD` hands its byte to the reader in phases IDLE and MDREAD (R25, R186). -/
theorem execMdrd_reads {s : State} {b : Byte} (hf : s.fault = .none) (hp : s.phase = .idle ∨ s.phase = .mdread) :
    exec (.mdrd b) s = .next (readMetadata b s) := by
  have hl : legalIn (.mdrd b) s.phase = true := by rcases hp with h | h <;> simp [legalIn, h]
  simp only [exec, execMdrd, sequenced_legal hf hl]

section Positions
variable {s : State} {b : Byte}

theorem readMetadata_size (h : s.mdpos.toNat < 4) : readMetadata b s = readSizeByte b s := by
  simp [readMetadata, h]

theorem readMetadata_key {m : Nat} (h : s.mdpos.toNat = 4 + 5 * m) : readMetadata b s = readKeyByte b s := by
  have h1 : ¬ s.mdpos.toNat < 4 := by omega
  have h2 : (s.mdpos.toNat - 4) % 5 = 0 := by omega
  simp [readMetadata, h1, h2]

theorem readMetadata_count {m k : Nat} (h : s.mdpos.toNat = 4 + 5 * m + k) (hk : 1 ≤ k) (hk4 : k ≤ 4) :
    readMetadata b s = readCountByte k b s := by
  have h1 : ¬ s.mdpos.toNat < 4 := by omega
  have h2 : (s.mdpos.toNat - 4) % 5 = k := by omega
  have h3 : k ≠ 0 := by omega
  simp [readMetadata, h1, h2, h3]

end Positions

/-- The state after an entry with a new key and a legal count is stored (R186). -/
def storeEntry (key : Byte) (v : BitVec 32) (s : State) : State :=
  { s with
    mdkey := key
    mdword := v
    mdpos := s.mdpos + 5#11
    freq := s.freq.write key v
    present := s.present.write key true
    nleaf := s.nleaf + 1#9
    mdcnt := s.mdcnt + 1#9
    phase := if s.mdcnt + 1#9 = s.mdsize then .table else s.phase }

/-- Five `MDRD` commands with an entry of a new key and a legal count store the entry (R186). -/
theorem execAll_entry {s : State} {m : Nat} (key : Byte) (v : BitVec 32) (hf : s.fault = .none)
    (hp : s.phase = .mdread) (hpos : s.mdpos.toNat = 4 + 5 * m) (hm : m < 256) (hnew : s.present.read key = false)
    (hv : v.toNat < 2 ^ 31) : execAll (mdrds (key :: le32 v)) s = .next (storeEntry key v s) := by
  have hadd : ∀ k : Nat, k ≤ 4 → ∀ p : BitVec 11, p.toNat = 4 + 5 * m + k → (p + 1#11).toNat = 4 + 5 * m + (k + 1) := by
    intro k hk p hp
    rw [BitVec.toNat_add, hp]
    simp
    omega
  have h1 := hadd 0 (by omega) _ hpos
  have h2 := hadd 1 (by omega) _ h1
  have h3 := hadd 2 (by omega) _ h2
  have h4 := hadd 3 (by omega) _ h3
  simp only [mdrds, le32, List.map_cons, List.map_nil]
  rw [execAll_cons (execMdrd_reads hf (.inr hp)), readMetadata_key hpos]
  simp only [readKeyByte, hnew, Bool.false_eq_true, if_false]
  rw [execAll_cons (execMdrd_reads (by exact hf) (.inr (by exact hp))),
    readMetadata_count (m := m) (k := 1) h1 (by omega) (by omega)]
  simp only [readCountByte, Nat.reduceEqDiff, if_false, Nat.reduceSub]
  rw [execAll_cons (execMdrd_reads (by exact hf) (.inr (by exact hp))),
    readMetadata_count (m := m) (k := 2) h2 (by omega) (by omega)]
  simp only [readCountByte, Nat.reduceEqDiff, if_false, Nat.reduceSub]
  rw [execAll_cons (execMdrd_reads (by exact hf) (.inr (by exact hp))),
    readMetadata_count (m := m) (k := 3) h3 (by omega) (by omega)]
  simp only [readCountByte, Nat.reduceEqDiff, if_false, Nat.reduceSub]
  rw [execAll_cons (execMdrd_reads (by exact hf) (.inr (by exact hp))),
    readMetadata_count (m := m) (k := 4) h4 (by omega) (by omega)]
  simp only [readCountByte, if_true, Nat.reduceSub, insertByte_le32]
  have hs : ¬ signed32 v < 0 := by rw [signed32_neg]; omega
  simp only [hs, if_false, execAll, storeEntry]
  congr 2
  rw [BitVec.add_assoc, BitVec.add_assoc, BitVec.add_assoc, BitVec.add_assoc]
  rfl

/-- Four `MDRD` commands with the size field of a block (R186, R188). -/
theorem execAll_size {s : State} (v : BitVec 32) (hf : s.fault = .none) (hp : s.phase = .idle) (hpos : s.mdpos = 0#11)
    (hv : v.toNat ≤ 256) :
    execAll (mdrds (le32 v)) s = .next
      { s with
        mdsize := v.extractLsb' 0 9
        mdword := v
        mdpos := 4#11
        phase := if v = 0#32 then .table else .mdread } := by
  have hs : ¬ signed32 v < 0 := by rw [signed32_neg]; omega
  have hs' : ¬ signed32 v > Config.maxSizeField := by rw [signed32_of_lt (by omega)]; simp; omega
  simp only [mdrds, le32, List.map_cons, List.map_nil]
  rw [execAll_cons (execMdrd_reads hf (.inl hp)), readMetadata_size (by simp [hpos])]
  simp only [readSizeByte, hpos, BitVec.reduceEq, if_false, BitVec.reduceAdd]
  rw [execAll_cons (execMdrd_reads (by exact hf) (.inr rfl)), readMetadata_size (by simp)]
  simp only [readSizeByte, BitVec.reduceEq, if_false, BitVec.reduceAdd]
  rw [execAll_cons (execMdrd_reads (by exact hf) (.inr rfl)), readMetadata_size (by simp)]
  simp only [readSizeByte, BitVec.reduceEq, if_false, BitVec.reduceAdd]
  rw [execAll_cons (execMdrd_reads (by exact hf) (.inr rfl)), readMetadata_size (by simp)]
  simp only [readSizeByte, if_true, BitVec.reduceToNat, insertByte_le32, hs, hs', if_false, BitVec.reduceAdd, execAll]

end Sys2Proof.Machine
end

