-- ==== Sys2Proof/Laws/PerInstr.lean ====
section
/-! SUPPORT. Statements about every command as syntax, one lemma per constructor: the fields of its word (spec/
30_encoding.md R90, R93, R102). -/

namespace Sys2Proof.Laws.EncodedFields

/-- The word of a command is well formed, its bits 15:8 are the opcode of the command and its bits 7:0 the operand, or
0 without one; an operand is there exactly in format B (R90, R93, R102). -/
def Statement (i : Instr) : Prop :=
  CommandWord.wellFormed (encode i) = true ∧ CommandWord.op (encode i) = i.opcode ∧
    CommandWord.low (encode i) = i.operand.getD 0#8 ∧ i.wellFormed = true ∧
    (i.mnemonic.format = .b ↔ i.operand.isSome = true)

/-- The fields hold for a command whose opcode is one of the twelve and which is well formed. -/
theorem of_opcode {i : Instr} (h : 1 ≤ i.opcode.toNat ∧ i.opcode.toNat ≤ 12) (hw : i.wellFormed = true)
    (hb : i.mnemonic.format = .b ↔ i.operand.isSome = true) : Statement i := by
  have ho : CommandWord.op (encode i) = i.opcode := by simp [encode]
  refine ⟨?_, ho, by simp [encode, Instr.lowByte], hw, hb⟩
  have : (encode i).extractLsb' 8 8 = i.opcode := ho
  simp [CommandWord.wellFormed, this, h]

theorem rst : Statement .rst := of_opcode (by decide) rfl (by decide)
theorem cnt (b : Byte) : Statement (.cnt b) := of_opcode (by simp [Instr.opcode]) rfl (iff_of_true rfl rfl)
theorem cntfin : Statement .cntfin := of_opcode (by decide) rfl (by decide)
theorem mdrd (b : Byte) : Statement (.mdrd b) := of_opcode (by simp [Instr.opcode]) rfl (iff_of_true rfl rfl)
theorem build : Statement .build := of_opcode (by decide) rfl (by decide)
theorem gen : Statement .gen := of_opcode (by decide) rfl (by decide)
theorem mdwr : Statement .mdwr := of_opcode (by decide) rfl (by decide)
theorem emit (b : Byte) : Statement (.emit b) := of_opcode (by simp [Instr.opcode]) rfl (iff_of_true rfl rfl)
theorem fin : Statement .fin := of_opcode (by decide) rfl (by decide)
theorem cons (p : Byte) : Statement (.cons p) := of_opcode (by simp [Instr.opcode]) rfl (iff_of_true rfl rfl)
theorem endSource : Statement .endSource := of_opcode (by decide) rfl (by decide)
theorem srcerr : Statement .srcerr := of_opcode (by decide) rfl (by decide)

end Sys2Proof.Laws.EncodedFields
end

