-- ==== Sys2Proof/Tests/Slice0.lean ====
section
/-! SUPPORT. Tests: expected values come from the words of the opcode map (spec/30_encoding.md R93) and from the vectors
of spec/95_test_vectors.md (cited as V-…), and the witnesses of the hypotheses of every statement. -/

namespace Sys2Proof.Tests
open Sys2Proof.Machine

set_option Elab.async false

/-! ### Well-formedness: an ill-formed term for each check -/

theorem test_wellFormed_word : CommandWord.wellFormed 0x0100#16 = true ∧ CommandWord.wellFormed 0x0CFF#16 = true := by
  decide

theorem test_illFormed_word :
    CommandWord.wellFormed 0x0000#16 = false ∧ CommandWord.wellFormed 0x00FF#16 = false ∧
      CommandWord.wellFormed 0x0D00#16 = false ∧ CommandWord.wellFormed 0xFFFF#16 = false := by
  decide

theorem test_wellFormed_source :
    SourceCommand.wellFormed ⟨.cnt, some 255⟩ = true ∧ SourceCommand.wellFormed ⟨.build, none⟩ = true := by decide

theorem test_illFormed_source :
    SourceCommand.wellFormed ⟨.cnt, some 256⟩ = false ∧ SourceCommand.wellFormed ⟨.cnt, none⟩ = false ∧
      SourceCommand.wellFormed ⟨.build, some 0⟩ = false := by
  decide

/-- A command as the model holds it cannot be ill formed: its operand is in its constructor (R91). -/
theorem test_wellFormed_instr : Instr.wellFormed (.cnt 0xFF#8) = true ∧ Instr.wellFormed .build = true := by decide

/-! ### Decoding: each command's word, written out as opcode and operand (R90, R93) -/

theorem test_decode_rst : decode 0b00000001_00000000#16 = .ok .rst := by decide
theorem test_decode_cnt : decode 0b00000010_01100001#16 = .ok (.cnt 97#8) := by decide
theorem test_decode_cntfin : decode 0b00000011_00000000#16 = .ok .cntfin := by decide
theorem test_decode_mdrd : decode 0b00000100_10000000#16 = .ok (.mdrd 128#8) := by decide
theorem test_decode_build : decode 0b00000101_00000000#16 = .ok .build := by decide
theorem test_decode_gen : decode 0b00000110_00000000#16 = .ok .gen := by decide
theorem test_decode_mdwr : decode 0b00000111_00000000#16 = .ok .mdwr := by decide
theorem test_decode_emit : decode 0b00001000_00000001#16 = .ok (.emit 1#8) := by decide
theorem test_decode_fin : decode 0b00001001_00000000#16 = .ok .fin := by decide
theorem test_decode_cons : decode 0b00001010_11110000#16 = .ok (.cons 0xF0#8) := by decide
theorem test_decode_end : decode 0b00001011_00000000#16 = .ok .endSource := by decide
theorem test_decode_srcerr : decode 0b00001100_00000000#16 = .ok .srcerr := by decide

/-- V-F-15: the operand byte of a format N command is ignored (R94). -/
theorem test_decode_ignores_operand :
    decode 0x01AB#16 = .ok .rst ∧ decode 0x03FF#16 = .ok .cntfin ∧ decode 0x0577#16 = .ok .build ∧
      decode 0x0601#16 = .ok .gen ∧ decode 0x07EE#16 = .ok .mdwr := by
  decide

/-- V-F-11, V-F-12: reserved opcodes (R95). -/
theorem test_decode_reserved :
    decode 0x0D00#16 = .error (.reservedOpcode 0x0D#8) ∧ decode 0x0000#16 = .error (.reservedOpcode 0x00#8) ∧
      decode 0xFF00#16 = .error (.reservedOpcode 0xFF#8) := by
  decide

/-- P1: the words of the source lines `CNT 'a'` and `BUILD` (R102). -/
theorem test_encode : encode (.cnt 97#8) = 0x0261#16 ∧ encode .build = 0x0500#16 := by decide

/-- P1: the source lines `CNT 'a'` and `BUILD ; NODE` assemble to 0x0261 and 0x0500 (R102). -/
theorem test_assembleLine :
    assembleLine [67, 78, 84, 32, 39, 97, 39] = .ok (some 0x0261#16) ∧
      assembleLine [66, 85, 73, 76, 68, 32, 59, 32, 78, 79, 68, 69] = .ok (some 0x0500#16) := by
  decide

/-- P2: the source line `MDRD 0x18` (R102). -/
theorem test_assembleLine_hex : assembleLine [77, 68, 82, 68, 32, 48, 120, 49, 56] = .ok (some 0x0418#16) := by decide

/-! ### Small states, as the vectors of spec/95_test_vectors.md list them -/

/-- The state after one command word; a stop keeps the state. -/
def after (w : CommandWord) (s : State) : State :=
  match acceptWord w s with
  | .next t => t
  | .fault _ => s
  | .refused _ => s

/-- The table of bits with a 1 at the bytes of a list. -/
def bitsAt (ks : List Byte) : Table Bool := ks.foldl (fun t b => t.write b true) (Vector.replicate 256 false)

/-- The arena with the nodes of a list from index 0 on. -/
def nodesOf (ns : List Node) : Arena :=
  (ns.zipIdx).foldl (fun a n => a.setIfInBounds n.2 n.1) (Vector.replicate 511 (.leaf 0#8 0#40))

/-- Phase TABLE with a frequency table. -/
def tableOf (entries : List (Byte × Count)) : State :=
  { State.reset with
    phase := .table
    present := bitsAt (entries.map Prod.fst)
    freq := entries.foldl (fun t e => t.write e.1 e.2) (Vector.replicate 256 0#32)
    nleaf := BitVec.ofNat 9 entries.length }

/-- V-CNT-2: the table of "aabbb". -/
def aabbbTable : State := tableOf [(24#8, 1#32), (97#8, 2#32), (98#8, 3#32)]

/-- V-BUILD-1: its tree. -/
def aabbbTree : State :=
  { aabbbTable with
    phase := .tree
    node := nodesOf [.leaf 24#8 1#40, .leaf 97#8 2#40, .leaf 98#8 3#40, .internal 3#40 0#9 1#9, .internal 6#40 2#9 3#9]
    nnodes := 5#10
    root := 4#9
    cur := 4#9 }

/-- V-GEN-1: its codes, 98 "0", 24 "10", 97 "11". -/
def aabbbCodes : State :=
  { aabbbTree with
    phase := .codes
    cvalid := bitsAt [24#8, 97#8, 98#8]
    clen := Table.write (Table.write (Table.write (Vector.replicate 256 0#8) 24#8 2#8) 97#8 2#8) 98#8 1#8
    code := Table.write (Table.write (Vector.replicate 256 0#255) 24#8 0b10#255) 97#8 0b11#255 }

/-- Phase PACK of "aabbb", with the bits held before the command. -/
def aabbbPack (acc : BitVec 8) (nbits : BitVec 4) : State := { aabbbCodes with phase := .pack, acc := acc, nbits := nbits }

/-- Phase UNPACK of "aabbb" after V-CONS-1, with the leaf 'b' pending. -/
def aabbbUnpack : State :=
  { aabbbTree with phase := .unpack, cur := 2#9, out := [0x61#8, 0x61#8, 0x62#8, 0x62#8, 0x62#8] }

/-- V-BUILD-2: the tree with one leaf 24. -/
def oneLeafTree : State :=
  { tableOf [(24#8, 1#32)] with phase := .tree, node := nodesOf [.leaf 24#8 1#40], nnodes := 1#10 }

/-- V-GEN-2: its codes, 24 "". -/
def oneLeafCodes : State := { oneLeafTree with phase := .codes, cvalid := bitsAt [24#8] }

/-- V-CNT-6 and V-CNT-7: phase COUNT with a full count of one byte. -/
def fullCount (b : Byte) : State := { tableOf [(b, 0x7FFFFFFF#32)] with phase := .count }

/-- Phase MDREAD with one entry of two read: V-F-7 before its last word. -/
def oneEntryRead : State :=
  { tableOf [(97#8, 1#32)] with
    phase := .mdread, mdpos := 9#11, mdsize := 2#9, mdcnt := 1#9, mdkey := 97#8, mdword := 1#32 }

/-- Phase MDREAD inside an entry, `k` of its five bytes read: V-MD-7 and V-F-8. -/
def insideEntry (k : BitVec 11) (w : BitVec 32) : State :=
  { State.reset with phase := .mdread, mdpos := 4#11 + k, mdsize := 1#9, mdkey := 97#8, mdword := w }

/-- Phase MDREAD inside the size field: V-F-4 to V-F-6, V-MD-6. -/
def insideSize (k : BitVec 11) (w : BitVec 32) : State :=
  { State.reset with phase := .mdread, mdpos := k, mdword := w }

/-- V-F-17 after its first word: a block faulted with `IllegalSequence`. -/
def faulted : State := { State.reset with fault := .illegalSequence, finfo := 5#8 }

/-! ### One step of each command -/

/-- V-F-20: `RST` in PACK with bits held outputs nothing and leaves the reset state. -/
theorem test_rst :
    ∃ t, exec .rst (aabbbPack 7#8 3#4) = .next t ∧
      (t.phase, t.acc, t.nbits, t.out, t.nleaf, t.status) = (.idle, 0#8, 0#4, [], 0#9, 0#32) := ⟨_, rfl, rfl⟩

/-- V-F-16: `RST` clears a fault. -/
theorem test_rst_clears_fault : ∃ t, acceptWord 0x0100#16 faulted = .next t ∧ t.status = 0#32 := ⟨_, rfl, rfl⟩

/-- V-CNT-1. -/
theorem test_cnt :
    (after 0x0261#16 State.reset).status = 0x00010001#32 ∧ (after 0x0261#16 State.reset).freq.read 97#8 = 1#32 := by
  decide +kernel

/-- V-CNT-6. -/
theorem test_cnt_overflow :
    (after 0x0261#16 (fullCount 97#8)).status = 0x00016151#32 ∧
      (after 0x0261#16 (fullCount 97#8)).freq.read 97#8 = 0x7FFFFFFF#32 := by
  decide +kernel

/-- V-CNT-3. -/
theorem test_cntfin :
    (after 0x0300#16 State.reset).status = 0x00010003#32 ∧ (after 0x0300#16 State.reset).freq.read 24#8 = 1#32 := by
  decide +kernel

/-- V-CNT-7. -/
theorem test_cntfin_overflow : (after 0x0300#16 (fullCount 24#8)).status = 0x00011851#32 := by decide +kernel

/-- V-MD-7 at its last byte: the bytes of a count are little-endian. -/
theorem test_mdrd :
    (after 0x0401#16 (insideEntry 4#11 0x00020304#32)).freq.read 97#8 = 0x01020304#32 ∧
      (after 0x0401#16 (insideEntry 4#11 0x00020304#32)).status = 0x00010003#32 := by
  decide +kernel

/-- V-F-7: a duplicate key; the first entry stays stored. -/
theorem test_mdrd_duplicate :
    (after 0x0461#16 oneEntryRead).status = 0x00010322#32 ∧ (after 0x0461#16 oneEntryRead).mdpos = 9#11 := by
  decide +kernel

/-- V-BUILD-1: the leaf 'b' beats the internal node of equal frequency. -/
theorem test_build :
    (after 0x0500#16 aabbbTable).node.toList.take 5 =
        [.leaf 24#8 1#40, .leaf 97#8 2#40, .leaf 98#8 3#40, .internal 3#40 0#9 1#9, .internal 6#40 2#9 3#9] ∧
      (after 0x0500#16 aabbbTable).root = 4#9 := by
  decide +kernel

/-- V-BUILD-12. -/
theorem test_build_empty : (after 0x0500#16 (tableOf [])).status = 0x00000033#32 := by decide +kernel

/-- V-GEN-1: codes 98 "0", 24 "10", 97 "11". -/
theorem test_gen :
    (after 0x0600#16 aabbbTree).codeOf 98#8 = [false] ∧ (after 0x0600#16 aabbbTree).codeOf 24#8 = [true, false] ∧
      (after 0x0600#16 aabbbTree).codeOf 97#8 = [true, true] ∧ (after 0x0600#16 aabbbTree).phase = .codes := by
  decide +kernel

/-- V-GEN-2: the code of a one-leaf tree is empty. -/
theorem test_gen_oneLeaf :
    (after 0x0600#16 oneLeafTree).clen.read 24#8 = 0#8 ∧ (after 0x0600#16 oneLeafTree).cvalid.read 24#8 = true := by
  decide +kernel

/-- V-MD-3. -/
theorem test_mdwr :
    (after 0x0700#16 aabbbCodes).out = [3#8, 0#8, 0#8, 0#8, 0x18#8, 1#8, 0#8, 0#8, 0#8, 0x61#8, 2#8, 0#8, 0#8, 0#8,
      0x62#8, 3#8, 0#8, 0#8, 0#8] := by
  decide +kernel

/-- V-MD-10: `MDWR` in phase TREE outputs nothing. -/
theorem test_mdwr_illegal :
    (after 0x0700#16 aabbbTree).fault = .illegalSequence ∧ (after 0x0700#16 aabbbTree).finfo = 7#8 ∧
      (after 0x0700#16 aabbbTree).out = [] := by
  decide +kernel

/-- V-EMIT-4: the eighth bit flushes. -/
theorem test_emit :
    (after 0x0862#16 (aabbbPack 0x78#8 7#4)).out = [0xF0#8] ∧
      ((after 0x0862#16 (aabbbPack 0x78#8 7#4)).acc, (after 0x0862#16 (aabbbPack 0x78#8 7#4)).nbits) = (0#8, 0#4) := by
  decide +kernel

/-- V-EMIT-7: a byte without a code. -/
theorem test_emit_missing :
    (after 0x0863#16 (aabbbPack 3#8 2#4)).fault = .codeMissing ∧ (after 0x0863#16 (aabbbPack 3#8 2#4)).finfo = 0x63#8 ∧
      (after 0x0863#16 (aabbbPack 3#8 2#4)).acc = 3#8 := by
  decide +kernel

/-- V-FIN-4. -/
theorem test_fin :
    (after 0x0900#16 (aabbbPack 1#8 1#4)).out = [0x80#8] ∧
      (after 0x0900#16 (aabbbPack 1#8 1#4)).status = 0x00030008#32 := by
  decide +kernel

/-- V-FIN-3: no empty byte is written. -/
theorem test_fin_nothing_held :
    (after 0x0900#16 (aabbbPack 0#8 0#4)).out = [] ∧ (after 0x0900#16 (aabbbPack 0#8 0#4)).phase = .done := by
  decide +kernel

/-- V-CONS-1. -/
theorem test_cons :
    (after 0x0AF0#16 aabbbTree).out = [0x61#8, 0x61#8, 0x62#8, 0x62#8, 0x62#8] ∧
      (after 0x0AF0#16 aabbbTree).cur = 2#9 := by
  decide +kernel

/-- V-CONS-5: a one-leaf tree. -/
theorem test_cons_oneLeaf : (after 0x0AFF#16 oneLeafTree).out = List.replicate 8 0x18#8 := by decide +kernel

/-- P2: `END` after V-CONS-1 drops the pending leaf. -/
theorem test_end :
    (after 0x0B00#16 aabbbUnpack).out = aabbbUnpack.out ∧ (after 0x0B00#16 aabbbUnpack).status = 0x00030008#32 := by
  decide +kernel

/-- V-F-3: `END` before any byte. -/
theorem test_end_truncated : (after 0x0B00#16 State.reset).status = 0x00000520#32 := by decide +kernel

/-- V-F-18: `SRCERR` in phase DONE; here of the three-leaf table. -/
theorem test_srcerr : (after 0x0C00#16 { aabbbTree with phase := .done }).status = 0x00030018#32 := by decide +kernel

/-- V-F-17: the first fault wins. -/
theorem test_faulted : (after 0xFF00#16 faulted).status = 0x00000560#32 := by decide +kernel

/-- V-CNT-1 through the fetch: the word placed by `withFetchWord` is the one the next step runs. -/
theorem test_withFetchWord :
    ∃ t, step (State.reset.withFetchWord 16 0x0261) = .next t ∧ t.status = 0x00010001#32 ∧ t.pending = [] :=
  ⟨_, rfl, by decide +kernel, rfl⟩

/-! ### Concrete states that meet the invariants -/

theorem read_bitsAt (ks : List Byte) (b : Byte) : (bitsAt ks).read b = decide (b ∈ ks) := by
  have key : ∀ (ks : List Byte) (t : Table Bool),
      (ks.foldl (fun t b => t.write b true) t).read b = (decide (b ∈ ks) || t.read b) := by
    intro ks
    induction ks with
    | nil => simp
    | cons k ks ih =>
      intro t
      rw [List.foldl_cons, ih, Table.read_write]
      by_cases h : b = k <;> simp [h]
  rw [bitsAt, key]
  simp

theorem keys_bitsAt {s : State} {ks : List Byte} (h : s.present = bitsAt ks)
    (hs : ascendingBytes.filter (fun b => decide (b ∈ ks)) = ks) : s.keys = ks := by
  rw [State.keys, h, show (bitsAt ks).read = fun b => decide (b ∈ ks) from funext (read_bitsAt ks), hs]

theorem keys_of_aabbb : ascendingBytes.filter (fun b => decide (b ∈ [24#8, 97#8, 98#8])) = [24#8, 97#8, 98#8] := by
  decide +kernel

/-- The invariants of R37 as a computation, for a state with the keys `ks`. -/
def meetsInv (ks : List Byte) (s : State) : Bool :=
  (decide (s.nleaf.toNat = ks.length) && ks.all fun b => decide ((s.freq.read b).toNat ≤ Config.countMax.toNat)) &&
  (decide (s.nbits.toNat ≤ 7) && decide (s.acc.toNat < 2 ^ s.nbits.toNat) &&
    decide (s.phase ≠ .pack → s.nbits = 0#4 ∧ s.acc = 0#8)) &&
  (decide (s.phase = .idle → s.mdpos = 0#11 ∧ s.mdcnt = 0#9 ∧ ks = []) &&
    decide (s.phase = .mdread → 1 ≤ s.mdpos.toNat) &&
    decide (s.phase = .mdread → s.mdpos.toNat < 4 → s.mdcnt = 0#9) &&
    decide (s.phase = .mdread → 4 ≤ s.mdpos.toNat →
      s.mdsize.toNat ≤ 256 ∧ s.mdpos.toNat < 4 + 5 * s.mdsize.toNat ∧ s.mdcnt.toNat = (s.mdpos.toNat - 4) / 5) &&
    decide (s.phase = .mdread → 4 ≤ s.mdpos.toNat → (s.mdpos.toNat - 4) % 5 ≠ 0 → s.present.read s.mdkey = false)) &&
  (!s.phase.hasTree ||
    (decide (1 ≤ s.nleaf.toNat) && decide (s.nnodes.toNat = 2 * s.nleaf.toNat - 1) &&
      decide (s.root.toNat = s.nnodes.toNat - 1) &&
      decide (∀ i < s.nleaf.toNat, s.node[i]? = ks[i]?.map (leafOf s)) &&
      decide (∀ i < s.nnodes.toNat, s.nleaf.toNat ≤ i → s.node.joinsSmaller i = true) &&
      decide (∀ j < s.nnodes.toNat - 1, ∃ i < s.nnodes.toNat,
        s.node.isChild i j = true ∧ ∀ k < s.nnodes.toNat, s.node.isChild k j = true → k = i) &&
      decide (s.cur.toNat < s.nnodes.toNat))) &&
  (!s.phase.hasCodes ||
      match s.leafPaths with
      | .ok es => es.isPerm (ks.map fun b => (b, s.codeOf b))
      | .error _ => false)

theorem inv_of_meetsInv {s : State} {ks : List Byte} (hk : s.keys = ks)
    (hv : s.phase.hasCodes = true → s.cvalid = s.present) (h : meetsInv ks s = true) : s.Inv := by
  subst hk
  simp only [meetsInv, Bool.and_eq_true, Bool.or_eq_true, Bool.not_eq_true', decide_eq_true_eq, List.all_eq_true] at h
  obtain ⟨⟨⟨⟨⟨h1, h2⟩, ⟨h3, h4⟩, h5⟩, ⟨⟨⟨h6, h7⟩, h8⟩, h9⟩, h10⟩, h11⟩, h12⟩ := h
  refine ⟨⟨h1, fun b hb => h2 b (mem_keys.2 hb)⟩, ⟨h3, h4, h5⟩, ⟨h6, h7, h8, h9, h10⟩, fun ht => ?_, fun hc => ?_⟩
  · obtain ⟨⟨⟨⟨⟨⟨a, b⟩, c⟩, d⟩, e⟩, f⟩, g⟩ := h11.resolve_left (by simp [ht])
    exact ⟨⟨a, b, c, d, e, f⟩, g⟩
  · have b := h12.resolve_left (by simp [hc])
    refine ⟨hv hc, ?_⟩
    split at b
    · exact ⟨_, ‹_›, List.isPerm_iff.1 b⟩
    · cases b

/-- Phase IDLE, a run later than the first. -/
def idle : State := { State.reset with restarts := 1 }

theorem inv_idle : idle.Inv :=
  inv_of_meetsInv (ks := []) (keys_bitsAt rfl (by decide +kernel)) (by decide) (by decide +kernel)
theorem inv_count : ({ tableOf [(97#8, 1#32)] with phase := .count } : State).Inv :=
  inv_of_meetsInv (ks := [97#8]) (keys_bitsAt rfl (by decide +kernel)) (by decide) (by decide +kernel)
theorem inv_oneEntryRead : oneEntryRead.Inv :=
  inv_of_meetsInv (ks := [97#8]) (keys_bitsAt rfl (by decide +kernel)) (by decide) (by decide +kernel)
theorem inv_insideEntry : (insideEntry 4#11 0x00020304#32).Inv :=
  inv_of_meetsInv (ks := []) (keys_bitsAt rfl (by decide +kernel)) (by decide) (by decide +kernel)
theorem inv_aabbbTable : aabbbTable.Inv :=
  inv_of_meetsInv (keys_bitsAt rfl keys_of_aabbb) (by decide) (by decide +kernel)
theorem inv_aabbbTree : aabbbTree.Inv :=
  inv_of_meetsInv (keys_bitsAt rfl keys_of_aabbb) (by decide) (by decide +kernel)
theorem inv_aabbbCodes : aabbbCodes.Inv :=
  inv_of_meetsInv (keys_bitsAt rfl keys_of_aabbb) (fun _ => rfl) (by decide +kernel)
theorem inv_aabbbPack : (aabbbPack 0x78#8 7#4).Inv :=
  inv_of_meetsInv (keys_bitsAt rfl keys_of_aabbb) (fun _ => rfl) (by decide +kernel)
theorem inv_aabbbUnpack : aabbbUnpack.Inv :=
  inv_of_meetsInv (keys_bitsAt rfl keys_of_aabbb) (by decide) (by decide +kernel)
theorem inv_oneLeafTree : oneLeafTree.Inv :=
  inv_of_meetsInv (ks := [24#8]) (keys_bitsAt rfl (by decide +kernel)) (by decide) (by decide +kernel)
theorem inv_oneLeafCodes : oneLeafCodes.Inv :=
  inv_of_meetsInv (ks := [24#8]) (keys_bitsAt rfl (by decide +kernel)) (fun _ => rfl) (by decide +kernel)

/-! ### Witnesses: what meets the hypotheses of each statement, and of each of its clauses -/

/-- The fault and the phase after an instruction, if it answers a next state. -/
def result (i : Instr) (s : State) : Option (FaultCode × Phase) :=
  match exec i s with
  | .next t => some (t.fault, t.phase)
  | .fault _ => none
  | .refused _ => none

theorem of_result {i : Instr} {s : State} {f : FaultCode} {p : Phase} (h : result i s = some (f, p)) :
    ∃ t, exec i s = .next t ∧ t.fault = f ∧ t.phase = p := by
  unfold result at h
  split at h
  · cases h; exact ⟨_, ‹_›, rfl, rfl⟩
  · cases h
  · cases h

theorem build_aabbb : result .build aabbbTable = some (.none, .tree) := by decide +kernel

theorem gen_aabbb : result .gen aabbbTree = some (.none, .codes) := by decide +kernel

/-- Two entries, not in ascending order, one with the largest count and one with count 0 (R29, R187). -/
theorem isTable_unordered : IsTable [(97#8, 0x7FFFFFFF#32), (24#8, 0#32)] := ⟨by simp, by simp, by simp⟩

theorem witness_DecodeEncodeRoundTrip : Instr.wellFormed (.cons 0xFF#8) = true ∧ Instr.wellFormed .srcerr = true := by
  decide

theorem witness_DecodeReadsOpcodeAndOperand : Instr.operand .build = none ∧ Instr.operand (.cnt 97#8) = some 97#8 := by
  decide

theorem witness_EveryWordIsCommandOrIllegal :
    ((0x00FF#16).extractLsb' 8 8).toNat = 0 ∧ ((0x0D00#16).extractLsb' 8 8).toNat = 0x0D ∧
      ((0x0100#16).extractLsb' 8 8).toNat = 1 ∧ ((0x0CFF#16).extractLsb' 8 8).toNat = 0x0C ∧
      State.reset.fault = .none := by
  decide

/-- Next in line: a word that decodes, a reserved word and a hardware reset. -/
theorem witness_StepRunsDecodedCommand :
    ({ State.reset with pending := [.command 0x0261#16] } : State).pending = .command 0x0261#16 :: [] ∧
      decode 0x0261#16 = .ok (.cnt 97#8) ∧ (∃ t, step { State.reset with pending := [.command 0x0261#16] } = .next t) ∧
      ({ State.reset with pending := [.command 0x0D00#16] } : State).pending = .command 0x0D00#16 :: [] ∧
      decode 0x0D00#16 = .error (.reservedOpcode 0x0D#8) ∧
      ({ faulted with pending := [.hardwareReset] } : State).pending = .hardwareReset :: [] :=
  ⟨rfl, by decide, ⟨_, rfl⟩, rfl, by decide, rfl⟩

theorem witness_WaitingChangesNothing : State.reset.pending = [] := rfl

theorem witness_FaultedBlockIgnoresCommands :
    faulted.fault ≠ .none ∧ (0x0261#16).extractLsb' 8 8 ≠ 0x01#8 ∧ (0x0000#16).extractLsb' 8 8 ≠ 0x01#8 := by decide

theorem witness_IllegalSequenceIsRaised :
    aabbbTable.fault = .none ∧ aabbbTable.phase ∉ [.idle, .count] ∧ aabbbTable.phase ∉ [.idle, .mdread] ∧
      aabbbTree.fault = .none ∧ aabbbTree.phase ≠ .table ∧ aabbbTable.phase ≠ .tree ∧ aabbbTable.phase ≠ .codes ∧
      aabbbTable.phase ≠ .pack ∧ aabbbTable.phase ∉ [.tree, .codes, .unpack] ∧
      aabbbTable.phase ∈ [.count, .table, .pack, .done] := by
  decide

/-- A command of each kind that raises no fault in a state that meets the invariants; `SRCERR` always raises one. -/
theorem witness_PhaseFollowsTable :
    (idle.Inv ∧ idle.fault = .none ∧ ∃ t, exec (.cnt 97#8) idle = .next t ∧ t.fault = .none) ∧
    (idle.Inv ∧ idle.fault = .none ∧ ∃ t, exec .cntfin idle = .next t ∧ t.fault = .none) ∧
    (idle.Inv ∧ idle.fault = .none ∧ ∃ t, exec (.mdrd 1#8) idle = .next t ∧ t.fault = .none) ∧
    ((insideEntry 4#11 0x00020304#32).Inv ∧ (insideEntry 4#11 0x00020304#32).fault = .none ∧
      ∃ t, exec (.mdrd 1#8) (insideEntry 4#11 0x00020304#32) = .next t ∧ t.fault = .none ∧ t.phase = .table) ∧
    (aabbbTable.Inv ∧ aabbbTable.fault = .none ∧ ∃ t, exec .build aabbbTable = .next t ∧ t.fault = .none) ∧
    (aabbbTree.Inv ∧ aabbbTree.fault = .none ∧ ∃ t, exec .gen aabbbTree = .next t ∧ t.fault = .none) ∧
    (aabbbCodes.Inv ∧ aabbbCodes.fault = .none ∧ ∃ t, exec .mdwr aabbbCodes = .next t ∧ t.fault = .none) ∧
    ((aabbbPack 0x78#8 7#4).Inv ∧ (aabbbPack 0x78#8 7#4).fault = .none ∧
      (∃ t, exec (.emit 97#8) (aabbbPack 0x78#8 7#4) = .next t ∧ t.fault = .none) ∧
      ∃ t, exec .fin (aabbbPack 0x78#8 7#4) = .next t ∧ t.fault = .none) ∧
    (aabbbUnpack.Inv ∧ aabbbUnpack.fault = .none ∧
      (∃ t, exec (.cons 0xF0#8) aabbbUnpack = .next t ∧ t.fault = .none) ∧
      (∃ t, exec .endSource aabbbUnpack = .next t ∧ t.fault = .none) ∧
      ∃ t, exec .rst aabbbUnpack = .next t ∧ t.fault = .none) := by
  have run : ∀ {i s p}, result i s = some (.none, p) → ∃ t, exec i s = .next t ∧ t.fault = .none := fun h =>
    let ⟨t, h1, h2, _⟩ := of_result h
    ⟨t, h1, h2⟩
  exact ⟨⟨inv_idle, rfl, run (p := .count) (by decide +kernel)⟩, ⟨inv_idle, rfl, run (p := .table) (by decide +kernel)⟩,
    ⟨inv_idle, rfl, run (p := .mdread) (by decide +kernel)⟩, ⟨inv_insideEntry, rfl, of_result (by decide +kernel)⟩,
    ⟨inv_aabbbTable, rfl, run build_aabbb⟩,
    ⟨inv_aabbbTree, rfl, run gen_aabbb⟩, ⟨inv_aabbbCodes, rfl, _, rfl, rfl⟩,
    ⟨inv_aabbbPack, rfl, run (p := .pack) (by decide +kernel), run (p := .done) (by decide +kernel)⟩,
    ⟨inv_aabbbUnpack, rfl, run (p := .unpack) (by decide +kernel), run (p := .done) (by decide +kernel), _, rfl, rfl⟩⟩

/-- The fault and the phase after a command word, if the answer is a next state. -/
def wordResult (w : CommandWord) (s : State) : Option (FaultCode × Phase) :=
  match acceptWord w s with
  | .next t => some (t.fault, t.phase)
  | .fault _ => none
  | .refused _ => none

theorem of_wordResult {w : CommandWord} {s : State} {f : FaultCode} {p : Phase} (h : wordResult w s = some (f, p)) :
    ∃ t, acceptWord w s = .next t ∧ t.fault = f ∧ t.phase = p := by
  unfold wordResult at h
  split at h
  · cases h; exact ⟨_, ‹_›, rfl, rfl⟩
  · cases h
  · cases h

/-- One word that raises each fault, and one that raises none. -/
theorem witness_FaultInformation :
    (idle.fault = .none ∧ (tableOf []).fault = .none ∧ (aabbbPack 0#8 0#4).fault = .none) ∧
    (∃ t, acceptWord 0x0C00#16 idle = .next t ∧ t.fault = .sourceUnreadable ∧ t.phase = .idle) ∧
    (∃ t, acceptWord 0x0461#16 oneEntryRead = .next t ∧ t.fault = .malformedMetadata ∧ t.phase = .mdread) ∧
    (∃ t, acceptWord 0x0B00#16 idle = .next t ∧ t.fault = .malformedMetadata ∧ t.phase = .idle) ∧
    (∃ t, acceptWord 0x0500#16 (tableOf []) = .next t ∧ t.fault = .emptyAlphabet ∧ t.phase = .table) ∧
    (∃ t, acceptWord 0x0863#16 (aabbbPack 0#8 0#4) = .next t ∧ t.fault = .codeMissing ∧ t.phase = .pack) ∧
    (∃ t, acceptWord 0x0261#16 (fullCount 97#8) = .next t ∧ t.fault = .countOverflow ∧ t.phase = .count) ∧
    (∃ t, acceptWord 0x0300#16 (fullCount 24#8) = .next t ∧ t.fault = .countOverflow ∧ t.phase = .count) ∧
    (∃ t, acceptWord 0x0500#16 idle = .next t ∧ t.fault = .illegalSequence ∧ t.phase = .idle) ∧
    (∃ t, acceptWord 0x0D00#16 idle = .next t ∧ t.fault = .illegalCommand ∧ t.phase = .idle) ∧
    ∃ t, acceptWord 0x0261#16 idle = .next t ∧ t.fault = .none ∧ t.phase = .count :=
  ⟨by decide, of_wordResult (by decide +kernel), of_wordResult (by decide +kernel), of_wordResult (by decide +kernel),
    of_wordResult (by decide +kernel), of_wordResult (by decide +kernel), of_wordResult (by decide +kernel),
    of_wordResult (by decide +kernel), of_wordResult (by decide +kernel), of_wordResult (by decide +kernel),
    of_wordResult (by decide +kernel)⟩

theorem witness_FaultsArePrecise :
    State.reset.fault = .none ∧
      (∃ t, acceptWord 0x0500#16 State.reset = .next t ∧ t.fault ≠ .none) ∧
      ∃ t, acceptWord 0x0D00#16 State.reset = .next t ∧ t.fault ≠ .none :=
  ⟨rfl, ⟨_, rfl, by decide⟩, _, rfl, by decide⟩

theorem witness_FaultStaysUntilRestart :
    (∃ t, acceptInput (.command 0x0261#16) faulted = .next t) ∧ (∃ t, acceptInput .hardwareReset faulted = .next t) ∧
      (∃ t, acceptInput (.command 0x01AB#16) faulted = .next t) ∧ faulted.fault ≠ .none :=
  ⟨⟨_, rfl⟩, ⟨_, rfl⟩, ⟨_, rfl⟩, by decide⟩

theorem witness_CntCountsOneOccurrence :
    (State.reset.fault = .none ∧ State.reset.phase ∈ [.idle, .count] ∧ State.reset.present.read 0#8 = false) ∧
    ((fullCount 97#8).fault = .none ∧ (fullCount 97#8).phase ∈ [.idle, .count] ∧
      (fullCount 97#8).present.read 97#8 = true ∧ (fullCount 97#8).freq.read 97#8 = 0x7FFFFFFF#32) ∧
    (fullCount 97#8).present.read 255#8 = false ∧
    ({ tableOf [(97#8, 0x7FFFFFFE#32)] with phase := .count } : State).present.read 97#8 = true ∧
    ({ tableOf [(97#8, 0x7FFFFFFE#32)] with phase := .count } : State).freq.read 97#8 ≠ 0x7FFFFFFF#32 := by
  decide +kernel

theorem witness_CntfinCountsSentinel :
    (State.reset.fault = .none ∧ State.reset.phase ∈ [.idle, .count] ∧ State.reset.present.read 24#8 = false) ∧
    ((fullCount 24#8).fault = .none ∧ (fullCount 24#8).phase ∈ [.idle, .count] ∧
      (fullCount 24#8).present.read 24#8 = true ∧ (fullCount 24#8).freq.read 24#8 = 0x7FFFFFFF#32) ∧
    ({ tableOf [(24#8, 0x7FFFFFFE#32)] with phase := .count } : State).present.read 24#8 = true ∧
    ({ tableOf [(24#8, 0x7FFFFFFE#32)] with phase := .count } : State).freq.read 24#8 ≠ 0x7FFFFFFF#32 := by
  decide +kernel

theorem count_lt_of_length {x : List Byte} (h : x.length < 2 ^ 31) (b : Byte) : x.count b < 2 ^ 31 :=
  List.count_le_length.trans_lt h

theorem witness_CountingGivesOccurrences :
    idle.Inv ∧ idle.fault = .none ∧ idle.phase = .idle ∧ ∀ b : Byte, [97#8, 24#8, 97#8].count b < 2 ^ 31 :=
  ⟨inv_idle, rfl, rfl, count_lt_of_length (by decide)⟩

theorem witness_SentinelIsAlwaysCounted :
    idle.Inv ∧ idle.fault = .none ∧ idle.phase = .idle ∧ (∀ b : Byte, [24#8].count b < 2 ^ 31) ∧
      ∀ b : Byte, [24#8, 24#8, 97#8].count b < 2 ^ 31 :=
  ⟨inv_idle, rfl, rfl, count_lt_of_length (by decide), count_lt_of_length (by decide)⟩

/-- Also the witness of `BuildJoinsSmallestPairs` and `BuildConservesFrequency`, with two internal nodes. -/
theorem witness_BuildMakesStrictTree :
    aabbbTable.TableOk ∧ aabbbTable.fault = .none ∧ aabbbTable.phase = .table ∧ aabbbTable.nleaf ≠ 0#9 ∧
      ∃ t, exec .build aabbbTable = .next t ∧ t.fault = .none ∧ t.phase = .tree :=
  ⟨inv_aabbbTable.table, rfl, rfl, by decide, of_result build_aabbb⟩

theorem witness_BuildJoinsSmallestPairs :
    aabbbTable.TableOk ∧ aabbbTable.fault = .none ∧ aabbbTable.phase = .table ∧ aabbbTable.nleaf ≠ 0#9 ∧
      ∃ t, exec .build aabbbTable = .next t ∧ t.fault = .none ∧ t.phase = .tree :=
  witness_BuildMakesStrictTree

theorem witness_BuildConservesFrequency :
    aabbbTable.TableOk ∧ aabbbTable.fault = .none ∧ aabbbTable.phase = .table ∧ aabbbTable.nleaf ≠ 0#9 ∧
      ∃ t, exec .build aabbbTable = .next t ∧ t.fault = .none ∧ t.phase = .tree :=
  witness_BuildMakesStrictTree

theorem witness_BuildOfEmptyTableFaults :
    (tableOf []).fault = .none ∧ (tableOf []).phase = .table ∧ (tableOf []).nleaf = 0#9 := by decide

/-- The table of "aabbb" beside one that differs in the count of an absent key. -/
theorem witness_BuildDependsOnTableOnly :
    aabbbTable.TableOk ∧ ({ aabbbTable with freq := aabbbTable.freq.write 5#8 7#32 } : State).TableOk ∧
      aabbbTable.nleaf ≠ 0#9 ∧
      ∀ b, aabbbTable.present.read b = true → (aabbbTable.freq.write 5#8 7#32).read b = aabbbTable.freq.read b := by
  have h5 : aabbbTable.present.read 5#8 = false := (read_bitsAt _ _).trans (by decide)
  have hne : ∀ b, aabbbTable.present.read b = true →
      (aabbbTable.freq.write 5#8 7#32).read b = aabbbTable.freq.read b := fun b hb =>
    Table.read_write_ne _ _ (by rintro rfl; rw [h5] at hb; cases hb)
  refine ⟨inv_aabbbTable.table, ⟨inv_aabbbTable.table.nleaf_eq, fun b hb => ?_⟩, by decide, hne⟩
  exact (congrArg BitVec.toNat (hne b hb)).trans_le (inv_aabbbTable.table.count_le b hb)

theorem witness_GenRecordsPathsToLeaves :
    (aabbbTree.TableOk ∧ aabbbTree.TreeOk ∧ aabbbTree.fault = .none ∧ aabbbTree.phase = .tree ∧
      aabbbTree.present.read 24#8 = true ∧ aabbbTree.present.read 25#8 = false) ∧
    (oneLeafTree.TableOk ∧ oneLeafTree.TreeOk ∧ oneLeafTree.fault = .none ∧ oneLeafTree.phase = .tree) :=
  ⟨⟨inv_aabbbTree.table, (inv_aabbbTree.tree rfl).1, rfl, rfl, by decide +kernel, by decide +kernel⟩,
    inv_oneLeafTree.table, (inv_oneLeafTree.tree rfl).1, rfl, rfl⟩

theorem witness_CodesArePrefixFreeAndComplete :
    aabbbCodes.Inv ∧ aabbbCodes.phase ∈ [.codes, .pack] ∧ 2 ≤ aabbbCodes.nleaf.toNat ∧
      aabbbCodes.present.read 24#8 = true ∧ aabbbCodes.present.read 97#8 = true ∧ (24#8 : Byte) ≠ 97#8 ∧
      255 ≤ (List.replicate 255 true).length :=
  ⟨inv_aabbbCodes, by decide, by decide, by decide +kernel, by decide +kernel, by decide, List.length_replicate.ge⟩

theorem witness_CodeLengthsAreBounded :
    (aabbbCodes.Inv ∧ aabbbCodes.phase ∈ [.codes, .pack] ∧ aabbbCodes.present.read 24#8 = true ∧
      2 ≤ aabbbCodes.nleaf.toNat) ∧
    (oneLeafCodes.Inv ∧ oneLeafCodes.phase ∈ [.codes, .pack] ∧ oneLeafCodes.present.read 24#8 = true ∧
      oneLeafCodes.nleaf.toNat = 1) :=
  ⟨⟨inv_aabbbCodes, by decide, by decide +kernel, by decide⟩, inv_oneLeafCodes, by decide, by decide +kernel, by decide⟩

theorem witness_MdwrWritesMetadataBlock :
    aabbbCodes.fault = .none ∧ aabbbCodes.phase = .codes ∧ aabbbCodes.TableOk := ⟨rfl, rfl, inv_aabbbCodes.table⟩

/-- A byte of the size field at positions 0, 2 and 3; at 3 with the sizes -1, -2^31, 257, 256 and 0. -/
theorem witness_MdrdReadsSizeField :
    (State.reset.fault = .none ∧ State.reset.phase ∈ [.idle, .mdread] ∧ State.reset.mdpos.toNat = 0) ∧
    ((insideSize 2#11 0#32).fault = .none ∧ (insideSize 2#11 0#32).phase ∈ [.idle, .mdread] ∧
      (insideSize 2#11 0#32).mdpos.toNat = 2) ∧
    (insideSize 3#11 0x00FFFFFF#32).mdpos.toNat = 3 ∧ (insertByte 0x00FFFFFF#32 3 0xFF#8).toInt = -1 ∧
    (insertByte 0#32 3 0x80#8).toInt = -2 ^ 31 ∧ (insertByte 0x00000101#32 3 0#8).toInt = 257 ∧
    (insertByte 0x00000100#32 3 0#8).toInt = 256 ∧ (insertByte 0#32 3 0#8).toInt = 0 := by
  decide +kernel

/-- A key byte, present and new; count bytes 1, 3 and 4; the counts -2^31, 0 and 2^31 - 1; the last entry and another. -/
theorem witness_MdrdReadsEntry :
    (oneEntryRead.fault = .none ∧ oneEntryRead.phase ∈ [.idle, .mdread] ∧ 4 ≤ oneEntryRead.mdpos.toNat ∧
      (oneEntryRead.mdpos.toNat - 4) % 5 = 0 ∧ oneEntryRead.present.read 97#8 = true ∧
      oneEntryRead.present.read 98#8 = false) ∧
    ((insideEntry 1#11 0#32).fault = .none ∧ (insideEntry 1#11 0#32).phase ∈ [.idle, .mdread] ∧
      4 ≤ (insideEntry 1#11 0#32).mdpos.toNat ∧ ((insideEntry 1#11 0#32).mdpos.toNat - 4) % 5 = 1 ∧
      ((insideEntry 3#11 0#32).mdpos.toNat - 4) % 5 = 3 ∧ ((insideEntry 4#11 0#32).mdpos.toNat - 4) % 5 = 4) ∧
    (insertByte 0#32 (4 - 1) 0x80#8).toInt < 0 ∧ (insertByte 0#32 (4 - 1) 0#8).toInt = 0 ∧
    (insertByte 0x00FFFFFF#32 (4 - 1) 0x7F#8).toInt = 2 ^ 31 - 1 ∧
    (insideEntry 4#11 0#32).mdcnt + 1#9 = (insideEntry 4#11 0#32).mdsize ∧
    ({ insideEntry 4#11 0#32 with mdsize := 2#9 } : State).mdcnt + 1#9 ≠ 2#9 := by
  decide +kernel

/-- Fronts of no byte, of the size field alone and of all but the last byte. -/
theorem witness_MetadataBlockIsRead :
    IsTable [(97#8, 0x7FFFFFFF#32), (24#8, 0#32)] ∧ idle.Inv ∧ idle.fault = .none ∧ idle.phase = .idle ∧
      ∀ n ∈ [0, 4, 13],
        (blockOf [(97#8, 0x7FFFFFFF#32), (24#8, 0#32)]).take n <+: blockOf [(97#8, 0x7FFFFFFF#32), (24#8, 0#32)] ∧
        (blockOf [(97#8, 0x7FFFFFFF#32), (24#8, 0#32)]).take n ≠ blockOf [(97#8, 0x7FFFFFFF#32), (24#8, 0#32)] :=
  ⟨isTable_unordered, inv_idle, rfl, rfl, by decide +kernel⟩

theorem witness_MetadataRoundTrip :
    aabbbCodes.Inv ∧ aabbbCodes.fault = .none ∧ aabbbCodes.phase = .codes ∧ idle.Inv ∧ idle.fault = .none ∧
      idle.phase = .idle :=
  ⟨inv_aabbbCodes, rfl, rfl, inv_idle, rfl, rfl⟩

theorem witness_TruncatedMetadataIsReported :
    IsTable [(97#8, 0x7FFFFFFF#32), (24#8, 0#32)] ∧
      ∀ n ∈ [0, 13],
        (blockOf [(97#8, 0x7FFFFFFF#32), (24#8, 0#32)]).take n <+: blockOf [(97#8, 0x7FFFFFFF#32), (24#8, 0#32)] ∧
        (blockOf [(97#8, 0x7FFFFFFF#32), (24#8, 0#32)]).take n ≠ blockOf [(97#8, 0x7FFFFFFF#32), (24#8, 0#32)] :=
  ⟨isTable_unordered, by decide +kernel⟩

theorem witness_EmitAppendsCode :
    (aabbbPack 0x78#8 7#4).PackerOk ∧ (aabbbPack 0x78#8 7#4).fault = .none ∧ (aabbbPack 0x78#8 7#4).phase = .pack ∧
      (aabbbPack 0x78#8 7#4).cvalid.read 97#8 = true :=
  ⟨inv_aabbbPack.packer, rfl, rfl, by decide +kernel⟩

theorem witness_EmitWithoutCodeFaults :
    (aabbbPack 3#8 2#4).fault = .none ∧ (aabbbPack 3#8 2#4).phase = .pack ∧
      (aabbbPack 3#8 2#4).cvalid.read 99#8 = false := by
  decide +kernel

theorem packerOk_aabbb : (aabbbPack 0#8 0#4).PackerOk := ⟨by decide, by decide, fun h => absurd rfl h⟩

theorem witness_FinPadsLastByte :
    ((aabbbPack 0#8 0#4).PackerOk ∧ (aabbbPack 0#8 0#4).fault = .none ∧ (aabbbPack 0#8 0#4).phase = .pack ∧
      (aabbbPack 0#8 0#4).nbits = 0#4) ∧
    ((aabbbPack 0x78#8 7#4).PackerOk ∧ (aabbbPack 0x78#8 7#4).fault = .none ∧ (aabbbPack 0x78#8 7#4).phase = .pack ∧
      (aabbbPack 0x78#8 7#4).nbits ≠ 0#4) :=
  ⟨⟨packerOk_aabbb, rfl, rfl, rfl⟩, inv_aabbbPack.packer, rfl, rfl, by decide⟩

theorem witness_PayloadIsPackedCodes :
    (aabbbPack 0#8 0#4).PackerOk ∧ (aabbbPack 0#8 0#4).fault = .none ∧ (aabbbPack 0#8 0#4).phase = .pack ∧
      (aabbbPack 0#8 0#4).nbits = 0#4 ∧
      ∀ b ∈ [97#8, 97#8, 98#8], (aabbbPack 0#8 0#4).cvalid.read b = true :=
  ⟨packerOk_aabbb, rfl, rfl, rfl, by decide +kernel⟩

theorem witness_ConsAlwaysCompletes :
    (aabbbTree.Inv ∧ aabbbTree.fault = .none ∧ aabbbTree.phase ∈ [.tree, .codes, .unpack]) ∧
    (aabbbCodes.Inv ∧ aabbbCodes.fault = .none ∧ aabbbCodes.phase ∈ [.tree, .codes, .unpack]) ∧
    (aabbbUnpack.Inv ∧ aabbbUnpack.fault = .none ∧ aabbbUnpack.phase ∈ [.tree, .codes, .unpack]) :=
  ⟨⟨inv_aabbbTree, rfl, by decide⟩, ⟨inv_aabbbCodes, rfl, by decide⟩, inv_aabbbUnpack, rfl, by decide⟩

theorem witness_ConsOfOneLeafTree :
    oneLeafTree.Inv ∧ oneLeafTree.fault = .none ∧ oneLeafTree.phase ∈ [.tree, .codes, .unpack] ∧
      oneLeafTree.nleaf.toNat = 1 :=
  ⟨inv_oneLeafTree, rfl, by decide, by decide⟩

/-- `CUR` at an Internal node, and `CUR` at a leaf with an Internal root. -/
theorem witness_ConsTakesBitsFromTheTop :
    (aabbbTree.fault = .none ∧ aabbbTree.phase ∈ [.tree, .codes, .unpack] ∧
      aabbbTree.node[aabbbTree.cur.toNat]? = some (.internal 6#40 2#9 3#9)) ∧
    (aabbbUnpack.fault = .none ∧ aabbbUnpack.phase ∈ [.tree, .codes, .unpack] ∧
      aabbbUnpack.node[aabbbUnpack.root.toNat]? = some (.internal 6#40 2#9 3#9) ∧
      aabbbUnpack.node.leafByte aabbbUnpack.cur.toNat = some 98#8) := by
  decide +kernel

/-- Phases TREE and CODES; in TREE the bits 0 11 11 11 1 of 0x7F, the codes of 98, 97, 97, 97 and one bit more, and the
bits of 0xFF, four codes of 97 and no bit more. -/
theorem witness_ConsDecodesCodes :
    (aabbbTree.Inv ∧ aabbbTree.fault = .none ∧ aabbbTree.phase ∈ [.tree, .codes, .unpack] ∧
      2 ≤ aabbbTree.nleaf.toNat ∧ aabbbTree.cur = aabbbTree.root) ∧
    (aabbbCodes.Inv ∧ aabbbCodes.fault = .none ∧ aabbbCodes.phase = .codes ∧ 2 ≤ aabbbCodes.nleaf.toNat ∧
      aabbbCodes.cur = aabbbCodes.root) ∧
    aabbbTree.Splits (bitStream [0x7F#8])
      [(98#8, [false]), (97#8, [true, true]), (97#8, [true, true]), (97#8, [true, true])] [true] ∧
    aabbbTree.Splits (bitStream [0xFF#8]) (List.replicate 4 (97#8, [true, true])) [] := by
  have h98 : aabbbTree.leadsTo [false] 98#8 := ⟨2, by decide +kernel, by decide +kernel⟩
  have h97 : aabbbTree.leadsTo [true, true] 97#8 := ⟨1, by decide +kernel, by decide +kernel⟩
  have h0 : ∀ b, ¬ aabbbTree.leadsTo [] b := fun b ⟨j, hj, hb⟩ => by
    obtain rfl : aabbbTree.root.toNat = j := Option.some.inj hj
    rw [show aabbbTree.node.leafByte aabbbTree.root.toNat = none by decide +kernel] at hb
    cases hb
  have h1 : ∀ b, ¬ aabbbTree.leadsTo [true] b := fun b ⟨j, hj, hb⟩ => by
    rw [show aabbbTree.node.follow aabbbTree.root.toNat [true] = some 3 by decide +kernel] at hj
    obtain rfl : 3 = j := Option.some.inj hj
    rw [show aabbbTree.node.leafByte 3 = none by decide +kernel] at hb
    cases hb
  refine ⟨⟨inv_aabbbTree, rfl, by decide, by decide, rfl⟩, ⟨inv_aabbbCodes, rfl, rfl, by decide, rfl⟩,
    ⟨by decide, by simpa using ⟨h98, h97⟩, fun p b hp => ?_⟩, ⟨by decide, by simpa using h97, fun p b hp => ?_⟩⟩
  · rcases List.prefix_cons_iff.1 hp with rfl | ⟨t, rfl, ht⟩
    · exact h0 b
    · rw [List.prefix_nil.1 ht]; exact h1 b
  · rw [List.prefix_nil.1 hp]; exact h0 b

theorem witness_EndOfSourceOutcomes :
    (State.reset.fault = .none ∧ State.reset.phase ∈ [.idle, .mdread]) ∧ oneEntryRead.phase ∈ [.idle, .mdread] ∧
      (aabbbUnpack.fault = .none ∧ aabbbUnpack.phase ∈ [.tree, .codes, .unpack]) := by
  decide

theorem witness_SrcerrRaisesSourceUnreadable :
    State.reset.fault = .none ∧ ({ aabbbTree with phase := .done } : State).fault = .none := by decide

theorem witness_StepKeepsInvariants :
    (idle.Inv ∧ ∃ t, step idle = .next t) ∧
    (aabbbCodes.Inv ∧ ∃ t, step { aabbbCodes with pending := [.command 0x0700#16] } = .next t) :=
  ⟨⟨inv_idle, _, rfl⟩, inv_aabbbCodes, _, rfl⟩

theorem witness_StepNeverStops : aabbbTree.Inv := inv_aabbbTree

theorem witness_ClosedTableNeverChanges :
    Instr.mdwr ≠ .rst ∧ aabbbCodes.phase ∉ [.idle, .count, .mdread] ∧ ∃ t, exec .mdwr aabbbCodes = .next t :=
  ⟨by decide, by decide, _, rfl⟩

theorem witness_OutputOnlyGrows :
    (Instr.mdwr ≠ .rst ∧ ∃ t, exec .mdwr aabbbCodes = .next t) ∧
    (Instr.build ≠ .mdwr ∧ (∀ b, Instr.build ≠ .emit b) ∧ Instr.build ≠ .fin ∧ (∀ p, Instr.build ≠ .cons p) ∧
      ∃ t, exec .build aabbbTable = .next t ∧ t.fault = .none ∧ t.phase = .tree) :=
  ⟨⟨by decide, _, rfl⟩, by decide, by simp, by decide, by simp, of_result build_aabbb⟩

/-- `GEN` meets every clause but its own; `BUILD` meets that one. -/
theorem witness_RegistersHaveTheirWriters :
    (Instr.gen ≠ .rst ∧ (∀ b, Instr.gen ≠ .emit b) ∧ Instr.gen ≠ .fin ∧ Instr.gen ≠ .build ∧
      (∀ p, Instr.gen ≠ .cons p) ∧ (∀ b, Instr.gen ≠ .cnt b) ∧ Instr.gen ≠ .cntfin ∧ (∀ b, Instr.gen ≠ .mdrd b) ∧
      ∃ t, exec .gen aabbbTree = .next t ∧ t.fault = .none ∧ t.phase = .codes) ∧
    (Instr.build ≠ .gen ∧ ∃ t, exec .build aabbbTable = .next t ∧ t.fault = .none ∧ t.phase = .tree) :=
  ⟨⟨by decide, by simp, by decide, by decide, by simp, by simp, by decide, by simp, of_result gen_aabbb⟩,
    by decide, of_result build_aabbb⟩

/-- Two tables of "aabbb" that differ in the count of an absent key and in the counter of restarts. -/
theorem witness_UnspecifiedContentsAreNeverRead :
    aabbbTable.Inv ∧ ({ aabbbTable with freq := aabbbTable.freq.write 5#8 7#32, restarts := 1 } : State).Inv ∧
      aabbbTable.SameSpecified { aabbbTable with freq := aabbbTable.freq.write 5#8 7#32, restarts := 1 } ∧
      ∃ t, step aabbbTable = .next t :=
  ⟨inv_aabbbTable, inv_of_meetsInv (keys_bitsAt rfl keys_of_aabbb) (by decide) (by decide +kernel),
    ⟨rfl, witness_BuildDependsOnTableOnly.2.2.2, fun _ _ => rfl, fun _ _ => rfl, fun _ _ => rfl⟩, _, rfl⟩

theorem witness_EncodeRunWritesStream :
    (∀ b : Byte, [24#8].count b < 2 ^ 31) ∧ ∀ b : Byte, [24#8, 97#8, 97#8, 98#8].count b < 2 ^ 31 :=
  ⟨count_lt_of_length (by decide), count_lt_of_length (by decide)⟩

theorem witness_RoundTripLaw :
    (∀ b : Byte, [24#8].count b < 2 ^ 31) ∧ (∀ b : Byte, [24#8, 24#8, 24#8].count b < 2 ^ 31) ∧
      ∀ b : Byte, [24#8, 97#8, 97#8, 98#8].count b < 2 ^ 31 :=
  ⟨count_lt_of_length (by decide), count_lt_of_length (by decide), count_lt_of_length (by decide)⟩

end Sys2Proof.Tests
end

section
/-! SUPPORT. The invariants of spec/10_state.md R37, part by part: what each part rests on, and that a reset gives them
(R36). -/

namespace Sys2Proof.Machine

variable {s t : State}

/-- The reset table holds whatever stands in the contents that R36 leaves unspecified and in the host's line. -/
theorem atReset_of_free (freq : Table Count) (node : Arena) (clen : Table (BitVec 8)) (code : Table CodeField)
    (pending : List HostInput) (restarts : Nat) :
    ({ State.reset with
      freq := freq, node := node, clen := clen, code := code, pending := pending, restarts := restarts } :
        State).AtReset := by
  refine ⟨rfl, rfl, rfl, Table.read_replicate false, rfl, rfl, rfl, rfl, Table.read_replicate false, rfl, rfl, rfl,
    rfl, rfl, rfl, rfl, rfl, ?_⟩
  simp only [State.status, State.reset]
  decide

theorem reset_atReset : State.reset.AtReset := atReset_of_free _ _ _ _ _ _

theorem restart_atReset (s : State) : (restart s).AtReset := atReset_of_free _ _ _ _ _ _

/-- The values of the reset table meet the invariants: the table is empty, the packer and the reader are at 0, and the
phase needs no tree (R36, R37). -/
theorem State.AtReset.inv (h : s.AtReset) : s.Inv := by
  have hk : s.keys = [] := keys_eq_nil.2 h.present
  refine ⟨⟨by rw [h.nleaf, hk]; rfl, fun b hb => ?_⟩, ⟨?_, ?_, fun _ => ⟨h.nbits, h.acc⟩⟩,
    ⟨fun _ => ⟨h.mdpos, h.mdcnt, hk⟩, ?_, ?_, ?_, ?_⟩, ?_, ?_⟩
  · rw [h.present b] at hb; cases hb
  · rw [h.nbits]; decide
  · rw [h.nbits, h.acc]; decide
  all_goals rw [h.phase]; intro hp; cases hp

/-- The table's invariants rest on `PRESENT`, `FREQ` and `NLEAF` alone (R37 items 1 and 2). -/
theorem State.TableOk.congr (h : s.TableOk) (h1 : t.present = s.present) (h2 : t.freq = s.freq)
    (h3 : t.nleaf = s.nleaf) : t.TableOk :=
  ⟨by rw [h3, keys_congr h1]; exact h.nleaf_eq, by rw [h1, h2]; exact h.count_le⟩

/-- A new key with a legal count keeps the table's invariants (R29, R37 items 1 and 2). -/
theorem State.TableOk.insert (h : s.TableOk) {b : Byte} {v : Count} (hb : s.present.read b = false)
    (hv : v.toNat ≤ Config.countMax.toNat) (h1 : t.present = s.present.write b true)
    (h2 : t.freq = s.freq.write b v) (h3 : t.nleaf = s.nleaf + 1#9) : t.TableOk := by
  have hk := keys_length_insert hb h1
  have hle := keys_length_le t
  have hn := h.nleaf_eq
  refine ⟨?_, fun c hc => ?_⟩
  · rw [h3, BitVec.toNat_add, hk, hn]
    exact Nat.mod_eq_of_lt (by simp; omega)
  · rw [h1, Table.read_write] at hc
    rw [h2, Table.read_write]
    split at hc
    · simpa [*] using hv
    · simpa [*] using h.count_le c hc

/-- A legal count for a byte keeps the table's invariants (R37 item 2). -/
theorem State.TableOk.recount (h : s.TableOk) {b : Byte} {v : Count} (hv : v.toNat ≤ Config.countMax.toNat)
    (h1 : t.present = s.present) (h2 : t.freq = s.freq.write b v) (h3 : t.nleaf = s.nleaf) : t.TableOk := by
  refine ⟨by rw [h3, keys_congr h1]; exact h.nleaf_eq, fun c hc => ?_⟩
  rw [h2, Table.read_write]
  split
  · exact hv
  · exact h.count_le c (h1 ▸ hc)

/-- The packer's invariants rest on its registers and on whether the phase is PACK (R37 item 5). -/
theorem State.PackerOk.congr (h : s.PackerOk) (h1 : t.nbits = s.nbits) (h2 : t.acc = s.acc)
    (h3 : t.phase = .pack ∨ s.phase ≠ .pack) : t.PackerOk := by
  refine ⟨by rw [h1]; exact h.nbits_le, by rw [h1, h2]; exact h.acc_lt, fun hp => ?_⟩
  rw [h1, h2]
  exact h.idle (h3.resolve_left hp)

/-- The reader's invariants say nothing outside phases IDLE and MDREAD (R37 item 6). -/
theorem State.ReaderOk.of_phase (h1 : s.phase ≠ .idle) (h2 : s.phase ≠ .mdread) : s.ReaderOk :=
  ⟨fun h => absurd h h1, fun h => absurd h h2, fun h => absurd h h2, fun h => absurd h h2, fun h => absurd h h2⟩

/-- No invariant speaks of `FAULT`, `FINFO` or the line of inputs (R37, log 1). -/
theorem State.Inv.of_control (h : s.Inv) (f : FaultCode) (info : Byte) (rest : List HostInput) :
    ({ s with fault := f, finfo := info, pending := rest } : State).Inv where
  table := h.table.congr rfl rfl rfl
  packer := h.packer.congr rfl rfl (Decidable.em _)
  reader := ⟨h.reader.fresh, h.reader.started, h.reader.in_size, h.reader.in_entries, h.reader.key_new⟩
  tree hp := ⟨(h.tree hp).1.congr rfl rfl rfl rfl rfl rfl, (h.tree hp).2⟩
  codes hp := (h.codes hp).congr rfl rfl rfl rfl rfl rfl

theorem State.Inv.raise (h : s.Inv) (f : FaultCode) (info : Byte) : (raise f info s).Inv :=
  h.of_control f info s.pending

/-- Settles O9. -/
theorem rstGivesResetValues : Obligations.RstGivesResetValues :=
  ⟨reset_atReset, fun s => ⟨restart s, exec_rst s, restart_atReset s⟩⟩

/-- Settles O46. -/
theorem resetMeetsInvariants : Obligations.ResetMeetsInvariants := reset_atReset.inv

/-- Settles O10: the fields by their bits, the codes by the tables of R24 and R215. -/
theorem statusShowsRegisters : Obligations.StatusShowsRegisters :=
  ⟨status_fields, by decide, by decide⟩

end Sys2Proof.Machine
end

section
/-! SUPPORT. How the metadata reader takes a byte (spec/45_metadata_codec.md R186), and what it keeps of the invariants
(spec/10_state.md R37 items 1, 2 and 6). -/

namespace Sys2Proof.Machine

variable {s t : State} {b : Byte}

/-- The ways in which the metadata reader takes a byte without a fault, by its position: one of the first three bytes of
the size field, the fourth, the key of an entry, one of the first three bytes of a count, the fourth (R186). -/
inductive Reads (s : State) (b : Byte) : State → Prop where
  | size (hpos : s.mdpos.toNat < 3) :
      Reads s b { s with
        phase := .mdread, mdword := insertByte s.mdword s.mdpos.toNat b, mdpos := s.mdpos + 1#11 }
  | sizeEnd (w : BitVec 32) (hpos : s.mdpos.toNat = 3) (hw : w.toNat ≤ 256) :
      Reads s b { s with
        mdsize := w.extractLsb' 0 9, phase := if w = 0#32 then .table else .mdread, mdword := w,
        mdpos := s.mdpos + 1#11 }
  | key (hpos : 4 ≤ s.mdpos.toNat) (hk : (s.mdpos.toNat - 4) % 5 = 0) (hnew : s.present.read b = false) :
      Reads s b { s with mdkey := b, mdword := 0#32, mdpos := s.mdpos + 1#11 }
  | count (w : BitVec 32) (hpos : 4 ≤ s.mdpos.toNat) (hk : (s.mdpos.toNat - 4) % 5 ≠ 0)
      (hk4 : (s.mdpos.toNat - 4) % 5 ≠ 4) :
      Reads s b { s with mdword := w, mdpos := s.mdpos + 1#11 }
  | countEnd (w : BitVec 32) (hpos : 4 ≤ s.mdpos.toNat) (hk : (s.mdpos.toNat - 4) % 5 = 4) (hw : w.toNat < 2 ^ 31) :
      Reads s b { s with
        freq := s.freq.write s.mdkey w, present := s.present.write s.mdkey true, nleaf := s.nleaf + 1#9,
        mdcnt := s.mdcnt + 1#9, phase := if s.mdcnt + 1#9 = s.mdsize then .table else s.phase, mdword := w,
        mdpos := s.mdpos + 1#11 }

/-- A size field that raises no fault is a size from 0 to 256 (R188, R189). -/
theorem toNat_le_of_size {w : BitVec 32} (h0 : ¬ signed32 w < 0) (h1 : ¬ signed32 w > Config.maxSizeField) :
    w.toNat ≤ 256 := by
  have hlt : w.toNat < 2 ^ 31 := by simpa [signed32_neg] using h0
  rw [signed32_of_lt hlt] at h1
  simp only [Config.maxSizeField] at h1
  omega

/-- The metadata reader raises `MalformedMetadata` with nothing else written, or takes the byte (R186). -/
theorem readMetadata_reads (b : Byte) (s : State) :
    (∃ k, readMetadata b s = raise .malformedMetadata k s) ∨ Reads s b (readMetadata b s) := by
  by_cases h4 : s.mdpos.toNat < 4
  · rw [readMetadata_size h4]
    unfold readSizeByte
    dsimp only
    split
    · rename_i h3
      split
      · exact .inl ⟨_, rfl⟩
      · split
        · exact .inl ⟨_, rfl⟩
        · exact .inr (.sizeEnd _ (by rw [h3]; rfl) (toNat_le_of_size ‹_› ‹_›))
    · rename_i h3
      have : s.mdpos.toNat ≠ 3 := fun e => h3 (BitVec.eq_of_toNat_eq (by simpa using e))
      exact .inr (.size (by omega))
  · by_cases hk : (s.mdpos.toNat - 4) % 5 = 0
    · simp only [readMetadata, h4, hk, if_true, if_false, readKeyByte]
      split
      · exact .inl ⟨_, rfl⟩
      · exact .inr (.key (by omega) hk (by simpa using ‹¬ s.present.read b = true›))
    · simp only [readMetadata, h4, hk, if_false, readCountByte]
      split
      · split
        · exact .inl ⟨_, rfl⟩
        · exact .inr (.countEnd _ (by omega) ‹_› (by simpa [signed32_neg] using ‹¬ signed32 _ < 0›))
      · exact .inr (.count _ (by omega) hk ‹_›)

/-- In phases IDLE and MDREAD the reader's position stays inside the block, so the next one does not wrap (R32). -/
theorem State.ReaderOk.mdpos_add_one (h : s.ReaderOk) (hp : s.phase = .idle ∨ s.phase = .mdread) :
    (s.mdpos + 1#11).toNat = s.mdpos.toNat + 1 := by
  have hlt : s.mdpos.toNat < 2000 := by
    rcases hp with hp | hp
    · simp [(h.fresh hp).1]
    · by_contra hge
      have := h.in_entries hp (by omega)
      omega
  rw [BitVec.toNat_add]
  simp
  omega

/-- Past its first byte the metadata reader is in phase MDREAD (R24). -/
theorem State.ReaderOk.phase_of_pos (h : s.ReaderOk) (hp : s.phase = .idle ∨ s.phase = .mdread)
    (hpos : 1 ≤ s.mdpos.toNat) : s.phase = .mdread := by
  refine hp.resolve_left fun hi => ?_
  rw [(h.fresh hi).1] at hpos
  cases hpos

theorem extractLsb'_size {w : BitVec 32} (hw : w.toNat ≤ 256) : (w.extractLsb' 0 9).toNat = w.toNat := by
  simp
  omega

/-- The reader has stored fewer entries than the block has, so the next one does not wrap (R32). -/
theorem State.ReaderOk.mdcnt_add_one (h : s.ReaderOk) (hp : s.phase = .mdread) (hpos : 4 ≤ s.mdpos.toNat) :
    (s.mdcnt + 1#9).toNat = s.mdcnt.toNat + 1 := by
  have := h.in_entries hp hpos
  rw [BitVec.toNat_add]
  simp
  omega

/-- The reader's invariants are kept by a byte of an entry that is not its last one (R37 item 6). -/
theorem State.ReaderOk.inside_entry (h : s.ReaderOk) (hm : s.phase = .mdread) (hpos : 4 ≤ s.mdpos.toNat)
    (hk4 : (s.mdpos.toNat - 4) % 5 ≠ 4) (h1 : t.phase = s.phase) (h2 : t.mdpos = s.mdpos + 1#11)
    (h3 : t.mdcnt = s.mdcnt) (h4 : t.mdsize = s.mdsize) (h5 : t.present.read t.mdkey = false) : t.ReaderOk := by
  obtain ⟨hsize, hend, hcnt⟩ := h.in_entries hm hpos
  have hadd : t.mdpos.toNat = s.mdpos.toNat + 1 := by rw [h2, h.mdpos_add_one (.inr hm)]
  refine ⟨fun e => ?_, fun _ => by omega, fun _ _ => by omega, fun _ _ => ?_, fun _ _ _ => h5⟩
  · rw [h1, hm] at e
    cases e
  · rw [hadd, h3, h4]
    omega

/-- The reader's invariants are kept by every byte it takes (R37 item 6). -/
theorem Reads.readerOk (hr : Reads s b t) (h : s.ReaderOk) (hp : s.phase = .idle ∨ s.phase = .mdread) :
    t.ReaderOk := by
  have hadd := h.mdpos_add_one hp
  cases hr with
  | size hpos =>
    have hcnt : s.mdcnt = 0#9 := by
      rcases hp with hp | hp
      · exact (h.fresh hp).2.1
      · exact h.in_size hp (by omega)
    exact ⟨by simp, fun _ => by simp only [hadd]; omega, fun _ _ => hcnt, fun _ _ => by simp only [hadd] at *; omega,
      fun _ _ => by simp only [hadd] at *; omega⟩
  | sizeEnd w hpos hw =>
    have hm := h.phase_of_pos hp (by omega)
    have hcnt := h.in_size hm (by omega)
    have hsize := extractLsb'_size hw
    by_cases hw0 : w = 0#32
    · exact .of_phase (by simp [hw0]) (by simp [hw0])
    · have hpos0 : w.toNat ≠ 0 := fun e => hw0 (BitVec.eq_of_toNat_eq (by simpa using e))
      refine ⟨by simp [hw0], fun _ => by simp only [hadd]; omega, fun _ _ => hcnt, fun _ _ => ?_, fun _ _ h5 => ?_⟩
      · simp only [hadd, hsize, hpos, hcnt, BitVec.toNat_ofNat]
        exact ⟨hw, by omega, trivial⟩
      · simp [hadd, hpos] at h5
  | key hpos hk hnew => exact h.inside_entry (h.phase_of_pos hp (by omega)) hpos (by omega) rfl rfl rfl rfl hnew
  | count w hpos hk hk4 =>
    have hm := h.phase_of_pos hp (by omega)
    exact h.inside_entry hm hpos hk4 rfl rfl rfl rfl (h.key_new hm hpos hk)
  | countEnd w hpos hk hw =>
    have hm := h.phase_of_pos hp (by omega)
    have he := h.in_entries hm hpos
    have hcnt := h.mdcnt_add_one hm hpos
    by_cases hlast : s.mdcnt + 1#9 = s.mdsize
    · exact .of_phase (by simp [hlast]) (by simp [hlast])
    · have hne : s.mdcnt.toNat + 1 ≠ s.mdsize.toNat := fun e => hlast (BitVec.eq_of_toNat_eq (by rw [hcnt, e]))
      refine ⟨by simp [hlast, hm], fun _ => by simp only [hadd]; omega, fun _ _ => by simp only [hadd] at *; omega,
        fun _ _ => by simp only [hadd, hcnt]; omega, fun _ _ h5 => ?_⟩
      simp only [hadd] at h5
      omega

/-- The table's invariants are kept by every byte the reader takes (R37 items 1 and 2). -/
theorem Reads.tableOk (hr : Reads s b t) (h : s.TableOk) (hro : s.ReaderOk)
    (hp : s.phase = .idle ∨ s.phase = .mdread) : t.TableOk := by
  cases hr with
  | countEnd w hpos hk hw =>
    have hm := hro.phase_of_pos hp (by omega)
    exact h.insert (hro.key_new hm hpos (by omega)) (Nat.le_pred_of_lt hw) rfl rfl rfl
  | size | sizeEnd | key | count => exact h.congr rfl rfl rfl

/-- Before the last byte of the block the reader has stored fewer entries than it has to (R186). -/
theorem State.ReaderOk.mdcnt_ne_mdsize (h : s.ReaderOk) (hm : s.phase = .mdread) (hpos : 4 ≤ s.mdpos.toNat) :
    s.mdcnt ≠ s.mdsize := by
  obtain ⟨-, hend, hcnt⟩ := h.in_entries hm hpos
  intro e
  rw [e] at hcnt
  omega

/-- The reader ends in TABLE exactly when the size field is read and as many entries as it says are stored (R25). -/
theorem Reads.phase_eq (hr : Reads s b t) (h : s.ReaderOk) (hp : s.phase = .idle ∨ s.phase = .mdread) :
    t.phase = if 4 ≤ t.mdpos.toNat ∧ t.mdcnt = t.mdsize then .table else .mdread := by
  have hadd := h.mdpos_add_one hp
  cases hr with
  | size hpos => simp [hadd]; omega
  | sizeEnd w hpos hw =>
    have hcnt := h.in_size (h.phase_of_pos hp (by omega)) (by omega)
    have hsize := extractLsb'_size hw
    have hw0 : w = 0#32 ↔ 0#9 = w.extractLsb' 0 9 := by
      rw [← BitVec.toNat_inj, ← BitVec.toNat_inj, hsize, eq_comm]; rfl
    simp [hadd, hpos, hcnt, hw0]
  | key hpos | count _ hpos =>
    have hm := h.phase_of_pos hp (by omega)
    simp [hm, h.mdcnt_ne_mdsize hm hpos]
  | countEnd w hpos hk hw =>
    have hm := h.phase_of_pos hp (by omega)
    have h4 : 4 ≤ s.mdpos.toNat + 1 := by omega
    simp [hm, hadd, h4]

end Sys2Proof.Machine
end

section
/-! SUPPORT. What a command other than `RST` does when it raises no fault (spec/10_state.md R21, R25, R26): one
constructor per command, which names the registers it writes and the phase it ends in. -/

namespace Sys2Proof.Machine

variable {i : Instr} {s t : State} {b : Byte}

/-- The next states of a command that raises no fault: only the registers named in a command's constructor differ from
those before it. `SRCERR` has no constructor, since it always raises a fault (R206). -/
inductive Effect (s : State) : Instr → State → Prop where
  | cnt (b : Byte) (present : Table Bool) (freq : Table Count) (nleaf : BitVec 9) :
      Effect s (.cnt b) { s with present := present, freq := freq, nleaf := nleaf, phase := .count }
  | cntfin (present : Table Bool) (freq : Table Count) (nleaf : BitVec 9) :
      Effect s .cntfin { s with present := present, freq := freq, nleaf := nleaf, phase := .table }
  | mdrd (b : Byte) (t : State) (h : Reads s b t) : Effect s (.mdrd b) t
  | build (node : Arena) (nnodes : BitVec 10) (root cur : NodeIndex) :
      Effect s .build { s with node := node, nnodes := nnodes, root := root, cur := cur, phase := .tree }
  | gen (cvalid : Table Bool) (clen : Table (BitVec 8)) (code : Table CodeField) :
      Effect s .gen { s with cvalid := cvalid, clen := clen, code := code, phase := .codes }
  | mdwr (bytes : List Byte) : Effect s .mdwr { s with out := s.out ++ bytes, phase := .pack }
  | emit (b : Byte) (acc : BitVec 8) (nbits : BitVec 4) (bytes : List Byte) :
      Effect s (.emit b) { s with acc := acc, nbits := nbits, out := s.out ++ bytes }
  | fin (acc : BitVec 8) (nbits : BitVec 4) (bytes : List Byte) :
      Effect s .fin { s with acc := acc, nbits := nbits, out := s.out ++ bytes, phase := .done }
  | cons (p : Byte) (cur : NodeIndex) (bytes : List Byte) :
      Effect s (.cons p) { s with cur := cur, out := s.out ++ bytes, phase := .unpack }
  | endSource (h : s.phase ∈ [.tree, .codes, .unpack]) : Effect s .endSource { s with phase := .done }

/-- The own rule of a command raises a fault with nothing else written, or has the command's effect (R225). -/
theorem ownRule_effect (hi : i ≠ .rst) (hl : legalIn i s.phase = true) (h : ownRule i s = .next t) :
    (∃ f info, f ≠ .none ∧ t = raise f info s) ∨ Effect s i t := by
  have hc := ownRule_cases hl h
  cases i with
  | rst => exact absurd rfl hi
  | cnt b =>
    obtain ⟨e, -⟩ | ⟨present, freq, nleaf, e⟩ := countOne_cases b .count s
    · exact .inl ⟨_, _, by decide, hc.trans e⟩
    · exact .inr (hc.trans e ▸ .cnt b ..)
  | cntfin =>
    obtain ⟨e, -⟩ | ⟨present, freq, nleaf, e⟩ := countOne_cases Config.sentinel .table s
    · exact .inl ⟨_, _, by decide, hc.trans e⟩
    · exact .inr (hc.trans e ▸ .cntfin ..)
  | mdrd b =>
    obtain ⟨k, e⟩ | hr := readMetadata_reads b s
    · exact .inl ⟨_, _, by decide, hc.trans e⟩
    · exact .inr (hc ▸ .mdrd b _ hr)
  | build =>
    obtain ⟨-, e⟩ | ⟨-, _, _, _, _, e⟩ := hc
    · exact .inl ⟨_, _, by decide, e⟩
    · exact .inr (e ▸ .build ..)
  | gen => obtain ⟨_, _, _, e⟩ := hc; exact .inr (e ▸ .gen ..)
  | mdwr => exact .inr (hc ▸ .mdwr _)
  | emit b =>
    obtain ⟨-, e⟩ | ⟨-, _, _, _, e⟩ := hc
    · exact .inl ⟨_, _, by decide, e⟩
    · exact .inr (e ▸ .emit b ..)
  | fin => obtain ⟨_, _, _, e⟩ := hc; exact .inr (e ▸ .fin ..)
  | cons p => obtain ⟨_, _, e⟩ := hc; exact .inr (e ▸ .cons p ..)
  | endSource =>
    obtain ⟨-, e⟩ | ⟨hp, e⟩ := hc
    · exact .inl ⟨_, _, by decide, e⟩
    · exact .inr (e ▸ .endSource hp)
  | srcerr => exact .inl ⟨_, _, by decide, hc⟩

/-- Everything a command other than `RST` does: it leaves a fault in `FAULT` and nothing else written, or it was legal
and has its effect (R96, R225, R226). -/
theorem exec_effect (hi : i ≠ .rst) (h : exec i s = .next t) :
    (∃ f info, f ≠ .none ∧ t = raise f info s) ∨ (legalIn i s.phase = true ∧ Effect s i t) := by
  obtain ⟨hf, e⟩ | ⟨-, -, e⟩ | ⟨-, hl, ho⟩ := exec_next hi h
  · exact .inl ⟨s.fault, s.finfo, hf, e⟩
  · exact .inl ⟨_, _, by decide, e⟩
  · exact (ownRule_effect hi hl ho).imp id fun he => ⟨hl, he⟩

/-- Settles O49: in these phases only commands that leave the table alone are legal. -/
theorem closedTableNeverChanges : Obligations.ClosedTableNeverChanges := by
  intro i s t hi hp h
  obtain ⟨f, info, -, rfl⟩ | ⟨hl, he⟩ := exec_effect hi h
  · exact ⟨rfl, rfl, rfl, hp⟩
  · cases he with
    | cnt | cntfin | mdrd => simp_all [legalIn]
    | emit => exact ⟨rfl, rfl, rfl, hp⟩
    | build | gen | mdwr | fin | cons | endSource => exact ⟨rfl, rfl, rfl, by simp⟩

/-- Settles O50. -/
theorem outputOnlyGrows : Obligations.OutputOnlyGrows := by
  intro i s t hi h
  obtain ⟨f, info, -, rfl⟩ | ⟨-, he⟩ := exec_effect hi h
  · exact ⟨List.prefix_rfl, fun _ => rfl⟩
  · cases he with
    | mdrd b t hr => cases hr <;> exact ⟨List.prefix_rfl, fun _ => rfl⟩
    | cnt | cntfin | build | gen | endSource => exact ⟨List.prefix_rfl, fun _ => rfl⟩
    | mdwr => exact ⟨List.prefix_append .., by simp⟩
    | emit => exact ⟨List.prefix_append .., by simp⟩
    | fin => exact ⟨List.prefix_append .., by simp⟩
    | cons => exact ⟨List.prefix_append .., by simp⟩

/-- Settles O51: each register stands in the constructors of `Effect` of its writers only. -/
theorem registersHaveTheirWriters : Obligations.RegistersHaveTheirWriters := by
  intro i s t hi h
  obtain ⟨f, info, -, rfl⟩ | ⟨-, he⟩ := exec_effect hi h
  · simp
  · cases he with
    | mdrd b t hr => cases hr <;> simp
    | cnt | cntfin | build | gen | mdwr | emit | fin | cons | endSource => simp

/-- Settles O13: a fault is no effect, each effect ends in its phase, and where the reader ends is its invariant's
doing. -/
theorem phaseFollowsTable : Obligations.PhaseFollowsTable := by
  intro i s t hinv hf h ht
  by_cases hi : i = .rst
  · subst hi
    rw [exec_rst] at h
    cases h
    exact restart_phase s
  obtain ⟨f, info, hne, rfl⟩ | ⟨hl, he⟩ := exec_effect hi h
  · exact absurd ht hne
  cases he with
  | mdrd b t hr =>
    have hp : s.phase = .idle ∨ s.phase = .mdread := by simpa [legalIn] using hl
    exact ⟨by simpa using hp, hr.phase_eq hinv.reader hp⟩
  | endSource hp => exact ⟨hp, rfl⟩
  | emit => simpa [legalIn] using hl
  | cnt | cntfin | build | gen | mdwr | fin | cons => simpa [legalIn, or_assoc] using hl

end Sys2Proof.Machine
end

section
/-! SUPPORT. What `BUILD` and `GEN` make (spec/41_tree_builder.md R120, R126, spec/42_code_table.md R140, R142), and
where `CONS` leaves `CUR` (spec/44_bit_unpacker.md R168). -/

namespace Sys2Proof.Machine

variable {s t : State}

theorem buildTree_of_forest {f : Forest} (h : huffmanForest s = .ok f) :
    buildTree s = .ok { s with
      node := f.node, nnodes := BitVec.ofNat 10 f.nnodes, root := BitVec.ofNat 9 (f.live.headD 0),
      cur := BitVec.ofNat 9 (f.live.headD 0), phase := .tree } := by
  rw [buildTree, h]; rfl

/-- `BUILD` of a nonempty table completes: the tree is that of R126, made by joining the smallest pairs, and `CUR` is at
its root (R120, R122, R126). -/
theorem buildTree_spec (h : s.TableOk) (hn : s.nleaf ≠ 0#9) :
    ∃ t, buildTree s = .ok t ∧
      t = { s with node := t.node, nnodes := t.nnodes, root := t.root, cur := t.cur, phase := .tree } ∧
      t.TreeOk ∧ t.cur = t.root ∧ ∀ i, s.nleaf.toNat ≤ i → i < t.nnodes.toNat → t.node.joinsLeast i := by
  obtain ⟨f, a₀, hf, g, hnn, hlive, hleaf⟩ := huffmanForest_spec h hn
  have hpos : s.nleaf.toNat ≠ 0 := fun e => hn (BitVec.eq_of_toNat_eq (by simpa using e))
  have hle := keys_length_le s
  have hlen := h.nleaf_eq
  have hnodes : (BitVec.ofNat 10 f.nnodes).toNat = f.nnodes := by simp; omega
  have hroot : (BitVec.ofNat 9 (f.live.headD 0)).toNat = f.nnodes - 1 := by simp [hlive]; omega
  refine ⟨_, buildTree_of_forest hf, rfl, ⟨Nat.one_le_iff_ne_zero.2 hpos, hnodes.trans hnn, ?_, ?_, ?_, ?_⟩,
    rfl, ?_⟩
  · simp only [hnodes, hroot]
  · exact fun i hi => (g.kept i hi).trans (hleaf i hi)
  · exact fun i hi hni => g.joins i hni (hnodes ▸ hi)
  · simp only [hnodes]
    refine fun j hj => g.homes j (by omega) ?_
    rw [hlive, List.mem_singleton]
    omega
  · exact fun i hi hlt => g.least i hi (hnodes ▸ hlt)

/-- `GEN` completes over a tree, and the code table it writes is that of the tree (R140, R142). -/
theorem generateCodes_spec (ht : s.TableOk) (hr : s.TreeOk) :
    ∃ t, generateCodes s = .ok t ∧
      t = { s with cvalid := t.cvalid, clen := t.clen, code := t.code, phase := .codes } ∧ t.CodesOk := by
  obtain ⟨es, hes, hperm, hlen⟩ := hr.leafPaths_spec ht
  have hn := ht.nleaf_eq
  have hle := keys_length_le s
  obtain ⟨u, hu⟩ : ∃ u, es.foldl recordCode (clearCodes s) = u := ⟨_, rfl⟩
  have hframe := foldl_recordCode_frame es (clearCodes s)
  obtain ⟨hvalid, hcode, -⟩ := foldl_recordCode_spec es (clearCodes s) (hperm.nodup_iff.2 (keys_nodup s))
  rw [hu] at hframe hvalid hcode
  have hcodeOf : ∀ e ∈ es, (e.1, u.codeOf e.1) = e := fun e he => by
    have := hlen e he
    rw [State.codeOf, (hcode e he).1, (hcode e he).2, codeSymbols_codeField e.2 (by omega)]
  have hes' : es = (es.map Prod.fst).map fun b => (b, u.codeOf b) := by
    rw [List.map_map]
    exact (List.map_id es).symm.trans (List.map_congr_left fun e he => (hcodeOf e he).symm)
  have hkeys : u.keys = s.keys := keys_congr (by rw [hframe]; rfl)
  refine ⟨{ u with phase := .codes }, by rw [generateCodes, hes, ← hu]; rfl, by rw [hframe]; rfl, ?_, es, ?_, ?_⟩
  · refine Table.ext fun b => ?_
    rw [hframe]
    simp [hvalid, hperm.mem_iff]
  · rw [hframe]; exact hes
  · exact (List.Perm.of_eq hes').trans ((hkeys ▸ hperm).map _)

/-- A bit at a leaf with a leaf at the root, as in a one-leaf tree: the byte is emitted and the walk is at the root
(R167). -/
theorem takeBit_leaf_leaf {bit : Bool} {b c : Byte} {fr fr' : NodeFreq} (h : s.node[s.cur.toNat]? = some (.leaf b fr))
    (hr : s.node[s.root.toNat]? = some (.leaf c fr')) :
    takeBit bit s = .ok { s with out := s.out ++ [b], cur := s.root } := by
  simp [takeBit, emitPending, descend, Arena.read_eq, h, hr, Except.map, Except.bind, outAll]

/-- A bit reads only nodes of the tree, so any state with these nodes, this `CUR` and this `ROOT` takes it in the same
way, and it leaves `CUR` inside the tree (R165, R168). -/
theorem State.TreeOk.takeBit_spec (hr : s.TreeOk) (ht : s.TableOk) (hc : s.cur.toNat < s.nnodes.toNat) (bit : Bool) :
    ∃ (c : NodeIndex) (bytes : List Byte), c.toNat < s.nnodes.toNat ∧
      ∀ u : State, u.cur = s.cur → u.root = s.root → (∀ i < s.nnodes.toNat, u.node[i]? = s.node[i]?) →
        takeBit bit u = .ok { u with cur := c, out := u.out ++ bytes } := by
  have hroot : s.root.toNat < s.nnodes.toNat := by have := hr.root_eq; omega
  have hchild : ∀ {i : Nat} {l r : NodeIndex}, i < s.nnodes.toNat → l.toNat < i → r.toNat < i →
      (if bit then r else l).toNat < s.nnodes.toNat := by
    intro i l r hi hl hr
    split <;> omega
  obtain ⟨b, fr, hcur⟩ | ⟨fr, l, r, hcur, hl, hr'⟩ := hr.node_cases ht hc
  · obtain ⟨c, fr', hrt⟩ | ⟨fr', l, r, hrt, hl, hr'⟩ := hr.node_cases ht hroot
    · refine ⟨s.root, [b], hroot, fun u h1 h2 h3 => ?_⟩
      rw [← h2]
      refine takeBit_leaf_leaf (fr := fr) (c := c) (fr' := fr') ?_ ?_
      · rw [h1, h3 _ hc, hcur]
      · rw [h2, h3 _ hroot, hrt]
    · refine ⟨_, [b], hchild hroot hl hr', fun u h1 h2 h3 => takeBit_leaf (fr := fr') (fr' := fr) ?_ ?_⟩
      · rw [h1, h3 _ hc, hcur]
      · rw [h2, h3 _ hroot, hrt]
  · refine ⟨_, [], hchild hc hl hr', fun u h1 h2 h3 => ?_⟩
    rw [takeBit_internal (fr := fr) (l := l) (r := r) (by rw [h1, h3 _ hc, hcur]), List.append_nil]

/-- The bits of an operand read only nodes of the tree and leave `CUR` inside it (R165, R168). -/
theorem State.TreeOk.takeBits_spec (hr : s.TreeOk) (ht : s.TableOk) (hc : s.cur.toNat < s.nnodes.toNat) (n : Nat)
    (p : Byte) :
    ∃ (c : NodeIndex) (bytes : List Byte), c.toNat < s.nnodes.toNat ∧
      ∀ u : State, u.cur = s.cur → u.root = s.root → (∀ i < s.nnodes.toNat, u.node[i]? = s.node[i]?) →
        takeBits n p u = .ok { u with cur := c, out := u.out ++ bytes } := by
  induction n generalizing p s with
  | zero => exact ⟨s.cur, [], hc, fun u h1 _ _ => by simp [takeBits, ← h1]⟩
  | succ n ih =>
    obtain ⟨c, bytes, hc', hbit⟩ := hr.takeBit_spec ht hc p.msb
    obtain ⟨d, bytes', hd, hbits⟩ := ih (s := { s with cur := c }) (hr.congr rfl rfl rfl rfl rfl rfl)
      (ht.congr rfl rfl rfl) hc' (p <<< 1)
    refine ⟨d, bytes ++ bytes', hd, fun u h1 h2 h3 => ?_⟩
    rw [takeBits, hbit u h1 h2 h3]
    exact (hbits { u with cur := c, out := u.out ++ bytes } rfl h2 h3).trans (by rw [List.append_assoc])

end Sys2Proof.Machine
end

section
/-! SUPPORT. Every command keeps the invariants of R37 (spec/10_state.md): one lemma per command, for a phase that
allows it. -/

namespace Sys2Proof.Machine

variable {i : Instr} {s t : State} {b : Byte}

theorem Phase.hasTree_of_hasCodes : ∀ {p : Phase}, p.hasCodes = true → p.hasTree = true
  | .codes, _ => rfl
  | .pack, _ => rfl

/-- The phases that allow `CONS` have a tree, and the packer is not in use (R25). -/
theorem Phase.hasTree_of_mem : ∀ p ∈ [Phase.tree, .codes, .unpack], p.hasTree = true ∧ p ≠ .pack := by decide

/-- In the phases before `BUILD` the invariants say nothing of the tree and the code table (R37). -/
theorem State.Inv.of_no_tree (h1 : s.TableOk) (h2 : s.PackerOk) (h3 : s.ReaderOk) (hp : s.phase.hasTree = false) :
    s.Inv where
  table := h1
  packer := h2
  reader := h3
  tree h := by rw [hp] at h; cases h
  codes h := by rw [Phase.hasTree_of_hasCodes h] at hp; cases hp

/-- In the phases after `BUILD` the invariants say nothing of the metadata reader (R37). -/
theorem State.Inv.of_tree (h1 : s.TableOk) (h2 : s.PackerOk) (h3 : s.TreeOk) (h4 : s.cur.toNat < s.nnodes.toNat)
    (h5 : s.phase.hasCodes = true → s.CodesOk) (hp : s.phase.hasTree = true) : s.Inv where
  table := h1
  packer := h2
  reader := .of_phase (fun e => by rw [e] at hp; cases hp) (fun e => by rw [e] at hp; cases hp)
  tree _ := ⟨h3, h4⟩
  codes := h5

/-- Counting keeps the table's invariants: a count that is full is not raised (R110). -/
theorem countOne_tableOk (b : Byte) (p : Phase) (h : s.TableOk) : (countOne b p s).TableOk := by
  unfold countOne
  split
  · exact h.insert ‹_› (by decide) rfl rfl rfl
  · split
    · exact h.congr rfl rfl rfl
    · rename_i hb hfull
      have hle := h.count_le b (by simpa using hb)
      have hmax : Config.countMax.toNat = 2 ^ 31 - 1 := rfl
      have hne : (s.freq.read b).toNat ≠ Config.countMax.toNat := fun e => hfull (BitVec.eq_of_toNat_eq e)
      refine h.recount (v := s.freq.read b + 1#32) ?_ rfl rfl rfl
      rw [BitVec.toNat_add]
      exact (Nat.mod_le _ _).trans (by simp only [BitVec.toNat_ofNat]; omega)

/-- `CNT` and `CNTFIN` keep the invariants (R110, R112). -/
theorem State.Inv.countOne (h : s.Inv) (b : Byte) {p : Phase} (hs : s.phase ≠ .pack)
    (hp : p = .count ∨ p = .table) : (countOne b p s).Inv := by
  obtain ⟨e, -⟩ | ⟨_, _, _, e⟩ := countOne_cases b p s
  · exact e ▸ h.raise _ _
  · have ht := countOne_tableOk b p h.table
    rw [e] at ht ⊢
    refine .of_no_tree ht (h.packer.congr rfl rfl (.inr hs)) ?_ ?_
    · rcases hp with rfl | rfl <;> exact .of_phase nofun nofun
    · rcases hp with rfl | rfl <;> rfl

/-- The reader does not touch the packer (R32). -/
theorem Reads.packerOk (hr : Reads s b t) (h : s.PackerOk) (hp : s.phase ≠ .pack) : t.PackerOk := by
  cases hr <;> exact h.congr rfl rfl (.inr hp)

/-- `MDRD` keeps the invariants (R186). -/
theorem State.Inv.readMetadata (h : s.Inv) (b : Byte) (hp : s.phase = .idle ∨ s.phase = .mdread) :
    (readMetadata b s).Inv := by
  obtain ⟨k, e⟩ | hr := readMetadata_reads b s
  · exact e ▸ h.raise _ _
  · have hpack : s.phase ≠ .pack := fun e => by simp [e] at hp
    refine .of_no_tree (hr.tableOk h.table h.reader hp) (hr.packerOk h.packer hpack) (hr.readerOk h.reader hp) ?_
    rw [hr.phase_eq h.reader hp]
    split <;> rfl

/-- `BUILD` keeps the invariants (R126). -/
theorem State.Inv.buildTree (h : s.Inv) (hn : s.nleaf ≠ 0#9) (hs : s.phase ≠ .pack) (ht : buildTree s = .ok t) :
    t.Inv := by
  obtain ⟨u, hu, e, htree, hcur, -⟩ := buildTree_spec h.table hn
  cases hu.symm.trans ht
  have hlt : t.cur.toNat < t.nnodes.toNat := by
    have := htree.leaf_pos
    rw [hcur, htree.root_eq, htree.nnodes_eq]
    omega
  have hphase : t.phase = .tree := by rw [e]
  exact .of_tree (h.table.congr (by rw [e]) (by rw [e]) (by rw [e]))
    (h.packer.congr (by rw [e]) (by rw [e]) (.inr hs)) htree hlt (by simp [hphase, Phase.hasCodes])
    (by rw [hphase]; rfl)

/-- `GEN` keeps the invariants (R142). -/
theorem State.Inv.generateCodes (h : s.Inv) (hs : s.phase = .tree) (ht : generateCodes s = .ok t) : t.Inv := by
  obtain ⟨htree, hcur⟩ := h.tree (by rw [hs]; rfl)
  obtain ⟨u, hu, e, hcodes⟩ := generateCodes_spec h.table htree
  cases hu.symm.trans ht
  exact .of_tree (h.table.congr (by rw [e]) (by rw [e]) (by rw [e]))
    (h.packer.congr (by rw [e]) (by rw [e]) (.inr (by simp [hs])))
    (htree.congr (by rw [e]) (by rw [e]) (by rw [e]) (by rw [e]) (by rw [e]) (by rw [e])) (by rw [e]; exact hcur)
    (fun _ => hcodes) (by rw [e]; rfl)

/-- The packer's invariants are kept by the symbols of a code (R154). -/
theorem State.PackerOk.foldl_packSymbol (h : s.PackerOk) (hs : s.phase = .pack) (path : List Bool) :
    (path.foldl packSymbol s).PackerOk := by
  obtain ⟨_, e, -, hn, ha⟩ := foldl_packSymbol_spec path s h.nbits_le h.acc_lt
  exact ⟨hn, ha, fun hp => absurd (by rw [e]; exact hs) hp⟩

/-- `FIN` leaves the packer empty (R155). -/
theorem State.PackerOk.flushBits (h : s.PackerOk) : (flushBits s).nbits = 0#4 ∧ (flushBits s).acc = 0#8 := by
  unfold Machine.flushBits
  split
  · exact ⟨rfl, rfl⟩
  · have hn : s.nbits = 0#4 := by simpa using ‹¬ s.nbits ≠ 0#4›
    have ha := h.acc_lt
    rw [hn] at ha
    exact ⟨hn, BitVec.eq_of_toNat_eq (by simpa using ha)⟩

/-- `EMIT` of a byte with a code keeps the invariants (R150). -/
theorem State.Inv.foldl_packSymbol (h : s.Inv) (hs : s.phase = .pack) (path : List Bool) :
    (path.foldl packSymbol s).Inv := by
  obtain ⟨htree, hcur⟩ := h.tree (by rw [hs]; rfl)
  have hpacker := h.packer.foldl_packSymbol hs path
  obtain ⟨bytes, e⟩ := foldl_packSymbol_frame path s
  rw [e] at hpacker ⊢
  exact .of_tree (h.table.congr rfl rfl rfl) hpacker (htree.congr rfl rfl rfl rfl rfl rfl) hcur
    (fun hp => (h.codes hp).congr rfl rfl rfl rfl rfl rfl) (by simp only [hs]; rfl)

/-- `MDWR` keeps the invariants (R180). -/
theorem State.Inv.metadataWritten (h : s.Inv) (hs : s.phase = .codes) (bytes : List Byte) :
    ({ s with out := bytes, phase := .pack } : State).Inv := by
  obtain ⟨htree, hcur⟩ := h.tree (by rw [hs]; rfl)
  exact .of_tree (h.table.congr rfl rfl rfl) (h.packer.congr rfl rfl (.inl rfl))
    (htree.congr rfl rfl rfl rfl rfl rfl) hcur (fun _ => (h.codes (by rw [hs]; rfl)).congr rfl rfl rfl rfl rfl rfl) rfl

/-- `FIN` keeps the invariants (R155). -/
theorem State.Inv.flushBits (h : s.Inv) (hs : s.phase = .pack) : ({ flushBits s with phase := .done } : State).Inv := by
  obtain ⟨htree, hcur⟩ := h.tree (by rw [hs]; rfl)
  obtain ⟨hn, ha⟩ := h.packer.flushBits
  have e : Machine.flushBits s = { s with
      acc := (Machine.flushBits s).acc, nbits := (Machine.flushBits s).nbits, out := (Machine.flushBits s).out } := by
    unfold Machine.flushBits
    split <;> rfl
  have hpacker : ({ Machine.flushBits s with phase := .done } : State).PackerOk :=
    ⟨by simp [hn], by simp [hn, ha], fun _ => ⟨hn, ha⟩⟩
  rw [e] at hpacker ⊢
  exact .of_tree (h.table.congr rfl rfl rfl) hpacker (htree.congr rfl rfl rfl rfl rfl rfl) hcur
    (fun hp => by simp [Phase.hasCodes] at hp) rfl

/-- `CONS` keeps the invariants (R168). -/
theorem State.Inv.takeBits (h : s.Inv) {p : Byte} (hs : s.phase ∈ [.tree, .codes, .unpack])
    (ht : (takeBits 8 p s).map (fun u => { u with phase := .unpack }) = .ok t) : t.Inv := by
  obtain ⟨hp, hpack⟩ := Phase.hasTree_of_mem _ hs
  obtain ⟨htree, hcur⟩ := h.tree hp
  obtain ⟨c, bytes, hlt, hbits⟩ := htree.takeBits_spec h.table hcur 8 p
  rw [hbits s rfl rfl fun _ _ => rfl] at ht
  cases ht
  exact .of_tree (h.table.congr rfl rfl rfl) (h.packer.congr rfl rfl (.inr hpack))
    (htree.congr rfl rfl rfl rfl rfl rfl) hlt (fun hp => by simp [Phase.hasCodes] at hp) rfl

/-- `END` after the metadata block keeps the invariants (R203). -/
theorem State.Inv.ended (h : s.Inv) (hs : s.phase ∈ [.tree, .codes, .unpack]) :
    ({ s with phase := .done } : State).Inv := by
  obtain ⟨hp, hpack⟩ := Phase.hasTree_of_mem _ hs
  obtain ⟨htree, hcur⟩ := h.tree hp
  exact .of_tree (h.table.congr rfl rfl rfl) (h.packer.congr rfl rfl (.inr hpack))
    (htree.congr rfl rfl rfl rfl rfl rfl) hcur (fun hp => by simp [Phase.hasCodes] at hp) rfl

/-- The own rule of every command keeps the invariants in the phases that allow the command (R25, R37). -/
theorem State.Inv.ownRule (h : s.Inv) (hl : legalIn i s.phase = true) (ho : ownRule i s = .next t) : t.Inv := by
  have hc := ownRule_cases hl ho
  cases i with
  | rst => exact hc ▸ (restart_atReset s).inv
  | cnt b => exact hc ▸ h.countOne b (by rintro e; simp [legalIn, e] at hl) (.inl rfl)
  | cntfin => exact hc ▸ h.countOne _ (by rintro e; simp [legalIn, e] at hl) (.inr rfl)
  | mdrd b => exact hc ▸ h.readMetadata b (by simpa [legalIn] using hl)
  | build =>
    obtain ⟨-, rfl⟩ | ⟨hn, -⟩ := hc
    · exact h.raise _ _
    · rw [Machine.ownRule, if_neg hn, answer_next] at ho
      exact h.buildTree hn (by rintro e; simp [legalIn, e] at hl) ho
  | gen => exact h.generateCodes (by simpa [legalIn] using hl) (answer_next.1 ho)
  | mdwr => exact hc ▸ h.metadataWritten (by simpa [legalIn] using hl) _
  | emit b =>
    obtain ⟨-, rfl⟩ | ⟨hv, -⟩ := hc
    · exact h.raise _ _
    · rw [Machine.ownRule, if_neg (by simp [hv])] at ho
      cases ho
      exact h.foldl_packSymbol (by simpa [legalIn] using hl) _
  | fin => cases ho; exact h.flushBits (by simpa [legalIn] using hl)
  | cons p => exact h.takeBits (by simpa [legalIn, or_assoc] using hl) (answer_next.1 ho)
  | endSource =>
    obtain ⟨-, rfl⟩ | ⟨hp, rfl⟩ := hc
    · exact h.raise _ _
    · exact h.ended hp
  | srcerr => exact hc ▸ h.raise _ _

/-- A command keeps the invariants (R37). -/
theorem State.Inv.exec (h : s.Inv) (he : exec i s = .next t) : t.Inv := by
  by_cases hi : i = .rst
  · subst hi
    cases he
    exact (restart_atReset s).inv
  · obtain ⟨-, rfl⟩ | ⟨-, -, rfl⟩ | ⟨-, hl, ho⟩ := exec_next hi he
    · exact h
    · exact h.raise _ _
    · exact h.ownRule hl ho

/-- Any input of the host keeps the invariants (R37, R96, R245). -/
theorem State.Inv.acceptInput (h : s.Inv) {x : HostInput} (ha : acceptInput x s = .next t) : t.Inv := by
  cases x with
  | hardwareReset => cases ha; exact (restart_atReset s).inv
  | command w =>
    simp only [Machine.acceptInput, acceptWord] at ha
    split at ha
    · exact h.exec ha
    · cases ha
      unfold rejectReserved
      split
      · exact h
      · exact h.raise _ _

/-- Settles O47: the host's next input, if any, is taken from the line, and every input keeps the invariants. -/
theorem stepKeepsInvariants : Obligations.StepKeepsInvariants := by
  intro s t h hs
  unfold step takeInput at hs
  split at hs
  · cases hs; exact h
  · exact (h.of_control s.fault s.finfo _).acceptInput hs

end Sys2Proof.Machine
end

section
/-! SUPPORT. The tree and the walk of `GEN` rest on the table and on the nodes below `NNODES` alone (spec/10_state.md
R30, spec/41_tree_builder.md R130). -/

namespace Sys2Proof

namespace Arena

variable {a a' : Arena} {i n m : Nat}

/-- A node that joins the two smallest live pairs is determined by the nodes before it (R120, R122, R130). -/
theorem getElem?_eq_of_joinsLeast (hlt : ∀ j < i, a'[j]? = a[j]?) (h : a.joinsLeast i) (h' : a'.joinsLeast i)
    (hs : a.joinsSmaller i = true) (hs' : a'.joinsSmaller i = true) : a'[i]? = a[i]? := by
  obtain ⟨f, l, r, hn, hl, hr, hlr, hleast⟩ := h
  obtain ⟨f', l', r', hn', hl', hr', hlr', hleast'⟩ := h'
  have hlive : ∀ j, a'.liveAt i j ↔ a.liveAt i j := fun j =>
    and_congr_right fun _ => forall₂_congr fun m hm => by rw [isChild_congr (hlt m hm)]
  rw [hlive] at hl' hr'
  have hbefore : ∀ {j k}, j < i → k < i → a'.before j k = a.before j k := fun hj hk =>
    before_congr (hlt _ hj) (hlt _ hk)
  have hasymm : ∀ {j k}, a.before j k = true → ¬ a.before k j = true := fun h h' => by
    rw [before_iff] at h h'; omega
  have hll : l = l' := by
    by_contra hne
    have hne : l.toNat ≠ l'.toNat := fun e => hne (BitVec.eq_of_toNat_eq e)
    have h2 := (hleast' l.toNat ((hlive _).2 hl)).1 hne
    rw [hbefore hl'.1 hl.1] at h2
    exact hasymm ((hleast l'.toNat hl').1 hne.symm) h2
  subst hll
  have hrr : r = r' := by
    by_contra hne
    have hne : r.toNat ≠ r'.toNat := fun e => hne (BitVec.eq_of_toNat_eq e)
    have hlr : r.toNat ≠ l.toNat := fun e => hlr (BitVec.eq_of_toNat_eq e.symm)
    have hlr' : r'.toNat ≠ l.toNat := fun e => hlr' (BitVec.eq_of_toNat_eq e.symm)
    have h2 := (hleast' r.toNat ((hlive _).2 hr)).2 hlr hne
    rw [hbefore hr'.1 hr.1] at h2
    exact hasymm ((hleast r'.toNat hr').2 hlr' hne.symm) h2
  subst hrr
  obtain ⟨_, _, _, e, -, -, -, hf⟩ := joinsSmaller_iff.1 hs
  obtain ⟨_, _, _, e', -, -, -, hf'⟩ := joinsSmaller_iff.1 hs'
  cases hn.symm.trans e
  cases hn'.symm.trans e'
  rw [hn, hn', hf, hf', freqAt_congr (hlt _ hl.1), freqAt_congr (hlt _ hr.1)]

/-- Equal leaves grow to equal trees (R130). -/
theorem getElem?_eq_of_leaves (hleaf : ∀ i < n, a'[i]? = a[i]?)
    (h : ∀ i, n ≤ i → i < m → a.joinsLeast i ∧ a.joinsSmaller i = true)
    (h' : ∀ i, n ≤ i → i < m → a'.joinsLeast i ∧ a'.joinsSmaller i = true) : ∀ i < m, a'[i]? = a[i]? := by
  intro i
  induction i using Nat.strong_induction_on with
  | _ i ih =>
    intro hi
    by_cases hn : i < n
    · exact hleaf i hn
    · obtain ⟨hl, hs⟩ := h i (by omega) hi
      obtain ⟨hl', hs'⟩ := h' i (by omega) hi
      exact getElem?_eq_of_joinsLeast (fun j hj => ih j hj (hj.trans hi)) hl hl' hs hs'

end Arena

namespace Machine

variable {s : State}

/-- The walk of `GEN` reads only nodes of the tree (R140). -/
theorem State.TreeOk.walk_congr (hr : s.TreeOk) (ht : s.TableOk) {a : Arena}
    (ha : ∀ i < s.nnodes.toNat, a[i]? = s.node[i]?) (d : Nat) {i : Nat} (hi : i < s.nnodes.toNat) (path : List Bool) :
    walk a d i path = walk s.node d i path := by
  induction d generalizing i path with
  | zero => simp only [walk, Arena.read_eq, ha i hi]
  | succ d ih =>
    obtain ⟨b, fr, hn⟩ | ⟨fr, l, r, hn, hl, hr⟩ := hr.node_cases ht hi
    · rw [walk_leaf hn, walk_leaf ((ha i hi).trans hn)]
    · rw [walk_internal hn, walk_internal ((ha i hi).trans hn), ih (by omega), ih (by omega)]

end Machine

end Sys2Proof
end

section
/-! SUPPORT. Two states that differ at most in contents the spec leaves unspecified do the same under every operation
(spec/10_state.md R29 to R31, spec/93_implementation_defined.md U30, U31, U33). -/

namespace Sys2Proof.Machine

variable {i : Instr} {s s' t t' : State} {b : Byte}

namespace State.SameSpecified

/-- The other state, with its free contents named. -/
theorem exists_eq (h : s.SameSpecified s') : ∃ freq node clen code restarts,
    s' = { s with freq := freq, node := node, clen := clen, code := code, restarts := restarts } :=
  ⟨_, _, _, _, _, h.rest⟩

theorem ite {c : Prop} [Decidable c] (h : c → s.SameSpecified s') (h' : ¬ c → t.SameSpecified t') :
    (if c then s else t).SameSpecified (if c then s' else t') := by
  split
  · exact h ‹_›
  · exact h' ‹_›

theorem fault_eq (h : s.SameSpecified s') : s'.fault = s.fault := by rw [h.rest]
theorem phase_eq (h : s.SameSpecified s') : s'.phase = s.phase := by rw [h.rest]
theorem pending_eq (h : s.SameSpecified s') : s'.pending = s.pending := by rw [h.rest]
theorem present_eq (h : s.SameSpecified s') : s'.present = s.present := by rw [h.rest]
theorem nleaf_eq (h : s.SameSpecified s') : s'.nleaf = s.nleaf := by rw [h.rest]
theorem cvalid_eq (h : s.SameSpecified s') : s'.cvalid = s.cvalid := by rw [h.rest]

/-- The line of inputs is the host's, and both states go on with the same (log 1). -/
theorem with_pending (h : s.SameSpecified s') (rest : List HostInput) :
    ({ s with pending := rest } : State).SameSpecified { s' with pending := rest } := by
  obtain ⟨freq, node, clen, code, restarts, rfl⟩ := h.exists_eq
  exact ⟨rfl, h.freq, h.node, h.clen, h.code⟩

theorem raise (h : s.SameSpecified s') (f : FaultCode) (info : Byte) :
    (raise f info s).SameSpecified (Machine.raise f info s') := by
  obtain ⟨freq, node, clen, code, restarts, rfl⟩ := h.exists_eq
  exact ⟨rfl, h.freq, h.node, h.clen, h.code⟩

theorem with_phase (h : s.SameSpecified s') (p : Phase) :
    ({ s with phase := p } : State).SameSpecified { s' with phase := p } := by
  obtain ⟨freq, node, clen, code, restarts, rfl⟩ := h.exists_eq
  exact ⟨rfl, h.freq, h.node, h.clen, h.code⟩

/-- A restart leaves no contents that are specified and differ (R36). -/
theorem restart (h : s.SameSpecified s') : (restart s).SameSpecified (Machine.restart s') := by
  obtain ⟨freq, node, clen, code, restarts, rfl⟩ := h.exists_eq
  refine ⟨rfl, fun b hb => ?_, fun i hi => absurd hi (Nat.not_lt_zero i), fun b hb => ?_, fun b hb => ?_⟩
  all_goals simp at hb

/-- The frequency tables still agree on the keys after the same count is written (R29). -/
theorem freq_write (h : s.SameSpecified s') (v : Count) (c : Byte) (hc : (s.present.write b true).read c = true) :
    (s'.freq.write b v).read c = (s.freq.write b v).read c := by
  rw [Table.read_write, Table.read_write]
  split
  · rfl
  · exact h.freq c (by rwa [Table.read_write_ne _ _ ‹_›] at hc)

/-- `CNT` and `CNTFIN` read counts of keys only (R110). -/
theorem countOne (h : s.SameSpecified s') (b : Byte) (p : Phase) :
    (countOne b p s).SameSpecified (Machine.countOne b p s') := by
  obtain ⟨freq, node, clen, code, restarts, rfl⟩ := h.exists_eq
  refine .ite (fun _ => ⟨rfl, h.freq_write _, h.node, h.clen, h.code⟩) fun hb => ?_
  have hb : s.present.read b = true := by simpa using hb
  have hfreq : freq.read b = s.freq.read b := h.freq b hb
  simp only [hfreq]
  refine .ite (fun _ => h.raise _ _) fun _ => ⟨rfl, fun c hc => h.freq_write _ c ?_, h.node, h.clen, h.code⟩
  rw [Table.read_write]
  split
  · rfl
  · exact hc

/-- `MDRD` reads no count (R186). -/
theorem readMetadata (h : s.SameSpecified s') (b : Byte) :
    (readMetadata b s).SameSpecified (Machine.readMetadata b s') := by
  obtain ⟨freq, node, clen, code, restarts, rfl⟩ := h.exists_eq
  refine .ite (fun _ => ?_) fun _ => .ite (fun _ => ?_) fun _ => ?_
  · exact .ite (fun _ => .ite (fun _ => h.raise _ _) fun _ => .ite (fun _ => h.raise _ _) fun _ =>
      ⟨rfl, h.freq, h.node, h.clen, h.code⟩) fun _ => ⟨rfl, h.freq, h.node, h.clen, h.code⟩
  · exact .ite (fun _ => h.raise _ _) fun _ => ⟨rfl, h.freq, h.node, h.clen, h.code⟩
  · exact .ite (fun _ => .ite (fun _ => h.raise _ _) fun _ =>
      ⟨rfl, h.freq_write _, h.node, h.clen, h.code⟩) fun _ => ⟨rfl, h.freq, h.node, h.clen, h.code⟩

/-- `BUILD` reads counts of keys only, and every node of the tree is one it has written (R120, R130). -/
theorem buildTree (h : s.SameSpecified s') (ht : s.TableOk) (ht' : s'.TableOk) (hn : s.nleaf ≠ 0#9)
    (hb : buildTree s = .ok t) : ∃ t', Machine.buildTree s' = .ok t' ∧ t.SameSpecified t' := by
  obtain ⟨u, hu, e, htree, hcur, hleast⟩ := buildTree_spec ht hn
  cases hu.symm.trans hb
  obtain ⟨t', hb', e', htree', hcur', hleast'⟩ := buildTree_spec ht' (h.nleaf_eq ▸ hn)
  have hnleaf : t.nleaf = s.nleaf := by rw [e]
  have hnleaf' : t'.nleaf = t.nleaf := by rw [e', e]; exact h.nleaf_eq
  have hnnodes : t'.nnodes = t.nnodes :=
    BitVec.eq_of_toNat_eq (by rw [htree'.nnodes_eq, htree.nnodes_eq, hnleaf'])
  have hroot : t'.root = t.root := BitVec.eq_of_toNat_eq (by rw [htree'.root_eq, htree.root_eq, hnnodes])
  have hkeys : t'.keys = t.keys := keys_congr (by rw [e', e]; exact h.present_eq)
  have hpresent : t.present = s.present := by rw [e]
  have hfreq : ∀ b, t.present.read b = true → t'.freq.read b = t.freq.read b := by
    intro b hb
    rw [e', e]
    exact h.freq b (hpresent ▸ hb)
  have hleaf : ∀ i < t.nleaf.toNat, t'.node[i]? = t.node[i]? := by
    intro i hi
    rw [htree'.leaves i (hnleaf' ▸ hi), htree.leaves i hi, hkeys]
    refine Option.map_congr fun b hb => ?_
    rw [leafOf, leafOf, hfreq b (mem_keys.1 (List.mem_of_getElem? hb))]
  refine ⟨t', hb', ?_, hfreq, ?_, ?_, ?_⟩
  · rw [e', hnnodes, hroot, hcur', hroot, ← hcur, e, h.rest]
  · rw [← hnleaf] at hleast
    rw [h.nleaf_eq, ← hnleaf, hnnodes] at hleast'
    have hint' := htree'.internals
    rw [hnnodes, hnleaf'] at hint'
    exact Arena.getElem?_eq_of_leaves hleaf (fun i hi hlt => ⟨hleast i hi hlt, htree.internals i hlt hi⟩)
      fun i hi hlt => ⟨hleast' i hi hlt, hint' i hlt hi⟩
  · rw [e', e]; exact h.clen
  · rw [e', e]; exact h.code

/-- An entry that `GEN` writes is the same in both code tables (R140). -/
theorem recordCode (h : s.SameSpecified s') (e : Byte × List Bool) :
    (recordCode s e).SameSpecified (Machine.recordCode s' e) := by
  obtain ⟨freq, node, clen, code, restarts, rfl⟩ := h.exists_eq
  have hold : ∀ b, b ≠ e.1 → (s.cvalid.write e.1 true).read b = true → s.cvalid.read b = true :=
    fun b hne hb => by rwa [Table.read_write_ne _ _ hne] at hb
  refine ⟨rfl, h.freq, h.node, fun b hb => ?_, fun b hb => ?_⟩
  · simp only [recordCode_clen, Table.read_write]
    split
    · rfl
    · exact h.clen b (hold b ‹_› hb)
  · simp only [recordCode_code, Table.read_write]
    split
    · rfl
    · exact h.code b (hold b ‹_› hb)

theorem clearCodes (h : s.SameSpecified s') : (clearCodes s).SameSpecified (Machine.clearCodes s') := by
  obtain ⟨freq, node, clen, code, restarts, rfl⟩ := h.exists_eq
  exact ⟨rfl, h.freq, h.node, fun b hb => by simp at hb, fun b hb => by simp at hb⟩

theorem foldl_recordCode (h : s.SameSpecified s') (es : List (Byte × List Bool)) :
    (es.foldl Machine.recordCode s).SameSpecified (es.foldl Machine.recordCode s') := by
  induction es generalizing s s' with
  | nil => exact h
  | cons e es ih => exact ih (h.recordCode e)

/-- `GEN` reads only nodes of the tree (R140). -/
theorem generateCodes (h : s.SameSpecified s') (ht : s.TableOk) (hr : s.TreeOk) (hg : generateCodes s = .ok t) :
    ∃ t', Machine.generateCodes s' = .ok t' ∧ t.SameSpecified t' := by
  have hroot : s.root.toNat < s.nnodes.toNat := by have := hr.root_eq; have := hr.nnodes_eq; have := hr.leaf_pos; omega
  have hroot' : s'.root = s.root := by rw [h.rest]
  have hpaths : s'.leafPaths = s.leafPaths := by
    rw [State.leafPaths, hroot', hr.walk_congr ht h.node _ hroot, State.leafPaths]
  cases hes : s.leafPaths with
  | error e => rw [Machine.generateCodes, hes] at hg; cases hg
  | ok es =>
    rw [Machine.generateCodes, hes] at hg
    cases hg
    rw [Machine.generateCodes, hpaths, hes]
    exact ⟨_, rfl, (h.clearCodes.foldl_recordCode es).with_phase .codes⟩

/-- `MDWR` reads counts of keys only (R180). -/
theorem metadataBlock_eq (h : s.SameSpecified s') : s'.metadataBlock = s.metadataBlock := by
  have hkeys : s'.keys = s.keys := keys_congr h.present_eq
  rw [State.metadataBlock, State.metadataBlock, h.nleaf_eq, hkeys]
  congr 1
  refine List.flatMap_congr fun b hb => ?_
  rw [metadataEntry, metadataEntry, h.freq b (mem_keys.1 hb)]

/-- A code that is valid is the same in both states (R31). -/
theorem codeOf_eq (h : s.SameSpecified s') (hb : s.cvalid.read b = true) : s'.codeOf b = s.codeOf b := by
  rw [State.codeOf, State.codeOf, h.clen b hb, h.code b hb]

theorem outAll (h : s.SameSpecified s') (vs : List Byte) : (outAll vs s).SameSpecified (Machine.outAll vs s') := by
  obtain ⟨freq, node, clen, code, restarts, rfl⟩ := h.exists_eq
  exact ⟨rfl, h.freq, h.node, h.clen, h.code⟩

/-- The packer reads its own registers only (R150). -/
theorem packSymbol (h : s.SameSpecified s') (sym : Bool) :
    (packSymbol s sym).SameSpecified (Machine.packSymbol s' sym) := by
  obtain ⟨freq, node, clen, code, restarts, rfl⟩ := h.exists_eq
  exact .ite (fun _ => ⟨rfl, h.freq, h.node, h.clen, h.code⟩) fun _ => ⟨rfl, h.freq, h.node, h.clen, h.code⟩

theorem foldl_packSymbol (h : s.SameSpecified s') (path : List Bool) :
    (path.foldl Machine.packSymbol s).SameSpecified (path.foldl Machine.packSymbol s') := by
  induction path generalizing s s' with
  | nil => exact h
  | cons sym path ih => exact ih (h.packSymbol sym)

theorem flushBits (h : s.SameSpecified s') : (flushBits s).SameSpecified (Machine.flushBits s') := by
  obtain ⟨freq, node, clen, code, restarts, rfl⟩ := h.exists_eq
  exact .ite (fun _ => ⟨rfl, h.freq, h.node, h.clen, h.code⟩) fun _ => h

/-- `CONS` reads only nodes of the tree (R165, R168). -/
theorem takeBits (h : s.SameSpecified s') (ht : s.TableOk) (hr : s.TreeOk) (hc : s.cur.toNat < s.nnodes.toNat)
    {n : Nat} {p : Byte} (hb : takeBits n p s = .ok t) :
    ∃ t', Machine.takeBits n p s' = .ok t' ∧ t.SameSpecified t' := by
  obtain ⟨c, bytes, -, hbits⟩ := hr.takeBits_spec ht hc n p
  rw [hbits s rfl rfl fun _ _ => rfl] at hb
  cases hb
  refine ⟨_, hbits s' (by rw [h.rest]) (by rw [h.rest]) h.node, ?_⟩
  obtain ⟨freq, node, clen, code, restarts, rfl⟩ := h.exists_eq
  exact ⟨rfl, h.freq, h.node, h.clen, h.code⟩

/-- The own rule of every command does the same in both states (R96 step 6). -/
theorem ownRule (h : s.SameSpecified s') (hs : s.Inv) (hs' : s'.Inv) (hl : legalIn i s.phase = true)
    (ho : ownRule i s = .next t) : ∃ t', Machine.ownRule i s' = .next t' ∧ t.SameSpecified t' := by
  cases i with
  | rst => cases ho; exact ⟨_, rfl, h.restart⟩
  | cnt b => cases ho; exact ⟨_, rfl, h.countOne b .count⟩
  | cntfin => cases ho; exact ⟨_, rfl, h.countOne _ .table⟩
  | mdrd b => cases ho; exact ⟨_, rfl, h.readMetadata b⟩
  | build =>
    simp only [Machine.ownRule, h.nleaf_eq] at ho ⊢
    split at ho
    · cases ho
      exact ⟨_, if_pos ‹_›, h.raise _ _⟩
    · obtain ⟨t', ht', hsame⟩ := h.buildTree hs.table hs'.table ‹_› (answer_next.1 ho)
      exact ⟨t', by rw [if_neg ‹_›, ht']; rfl, hsame⟩
  | gen =>
    have hp : s.phase = .tree := by simpa [legalIn] using hl
    obtain ⟨htree, -⟩ := hs.tree (by rw [hp]; rfl)
    obtain ⟨t', ht', hsame⟩ := h.generateCodes hs.table htree (answer_next.1 ho)
    exact ⟨t', answer_next.2 ht', hsame⟩
  | mdwr =>
    cases ho
    refine ⟨_, rfl, ?_⟩
    rw [h.metadataBlock_eq]
    exact (h.outAll _).with_phase .pack
  | emit b =>
    simp only [Machine.ownRule, h.cvalid_eq] at ho ⊢
    split at ho
    · cases ho
      exact ⟨_, if_pos ‹_›, h.raise _ _⟩
    · cases ho
      rw [if_neg ‹_›, h.codeOf_eq (by simpa using ‹¬ s.cvalid.read b = false›)]
      exact ⟨_, rfl, h.foldl_packSymbol _⟩
  | fin => cases ho; exact ⟨_, rfl, h.flushBits.with_phase .done⟩
  | cons p =>
    have hp : s.phase ∈ [.tree, .codes, .unpack] := by simpa [legalIn, or_assoc] using hl
    obtain ⟨htree, hcur⟩ := hs.tree (Phase.hasTree_of_mem _ hp).1
    rw [Machine.ownRule, answer_next] at ho
    cases hb : Machine.takeBits 8 p s with
    | error e => rw [hb] at ho; cases ho
    | ok u =>
      rw [hb] at ho
      cases ho
      obtain ⟨u', hu', hsame⟩ := h.takeBits hs.table htree hcur hb
      exact ⟨_, by rw [Machine.ownRule, hu']; rfl, hsame.with_phase .unpack⟩
  | endSource =>
    simp only [Machine.ownRule, h.phase_eq] at ho ⊢
    split at ho
    · cases ho
      exact ⟨_, if_pos ‹_›, h.raise _ _⟩
    · cases ho
      exact ⟨_, if_neg ‹_›, h.with_phase .done⟩
  | srcerr => cases ho; exact ⟨_, rfl, h.raise _ _⟩

/-- A command does the same in both states (R96). -/
theorem exec (h : s.SameSpecified s') (hs : s.Inv) (hs' : s'.Inv) (he : exec i s = .next t) :
    ∃ t', Machine.exec i s' = .next t' ∧ t.SameSpecified t' := by
  by_cases hi : i = .rst
  · subst hi
    cases he
    exact ⟨_, rfl, h.restart⟩
  · obtain ⟨hf, rfl⟩ | ⟨hf, hl, rfl⟩ | ⟨hf, hl, ho⟩ := exec_next hi he
    · exact ⟨s', exec_faulted hi (h.fault_eq ▸ hf), h⟩
    · exact ⟨_, exec_illegal (h.fault_eq.trans hf) (h.phase_eq ▸ hl), h.raise _ _⟩
    · rw [exec_legal (h.fault_eq.trans hf) (h.phase_eq ▸ hl)]
      exact h.ownRule hs hs' hl ho

/-- Any input of the host does the same in both states (R96, R245). -/
theorem acceptInput (h : s.SameSpecified s') (hs : s.Inv) (hs' : s'.Inv) {x : HostInput}
    (ha : acceptInput x s = .next t) : ∃ t', Machine.acceptInput x s' = .next t' ∧ t.SameSpecified t' := by
  cases x with
  | hardwareReset => cases ha; exact ⟨_, rfl, h.restart⟩
  | command w =>
    simp only [Machine.acceptInput, acceptWord] at ha ⊢
    split at ha
    · exact h.exec hs hs' ha
    · cases ha
      refine ⟨_, rfl, ?_⟩
      rw [rejectReserved, rejectReserved, h.fault_eq]
      exact .ite (fun _ => h) fun _ => h.raise _ _

end State.SameSpecified

/-- Settles O52: the same input is taken in both states, and every operation on the way keeps the relation. -/
theorem unspecifiedContentsAreNeverRead : Obligations.UnspecifiedContentsAreNeverRead := by
  intro s s' t hs hs' h ht
  unfold step takeInput at ht ⊢
  rw [h.pending_eq]
  split at ht
  · cases ht
    exact ⟨s', rfl, h⟩
  · exact (h.with_pending _).acceptInput (hs.of_control s.fault s.finfo _) (hs'.of_control s'.fault s'.finfo _) ht

end Sys2Proof.Machine
end

section
/-! SUPPORT. A step takes the next input of the line (spec/20_memory.md R70, spec/30_encoding.md R96, log 1), the bytes
of an integer (R64), and why nothing stops the block (R60, spec/41_tree_builder.md R126, spec/44_bit_unpacker.md
R168). -/

namespace Sys2Proof.Machine

variable {i : Instr} {s t : State} {x : HostInput} {rest : List HostInput}

/-! ### The host's line of inputs -/

theorem step_of_pending_nil (h : s.pending = []) : step s = .next s := by
  simp [step, takeInput, h]

theorem step_of_pending_cons (h : s.pending = x :: rest) : step s = acceptInput x { s with pending := rest } := by
  simp [step, takeInput, h]

theorem acceptWord_of_decode {w : CommandWord} (h : decode w = .ok i) (s : State) : acceptWord w s = exec i s := by
  simp [acceptWord, h]

@[simp] theorem rejectReserved_pending (op : Byte) (s : State) : (rejectReserved op s).pending = s.pending := by
  unfold rejectReserved
  split <;> rfl

/-- No command touches the line of inputs (log 1). -/
theorem exec_pending (h : exec i s = .next t) : t.pending = s.pending := by
  by_cases hi : i = .rst
  · subst hi
    cases h
    exact restart_pending s
  · obtain ⟨-, -, -, -, -, -, hpending, -⟩ := registersHaveTheirWriters i s t hi h
    exact hpending

/-- No input touches the inputs after it (log 1). -/
theorem acceptInput_pending (h : acceptInput x s = .next t) : t.pending = s.pending := by
  cases x with
  | hardwareReset => cases h; exact restart_pending s
  | command w =>
    simp only [acceptInput, acceptWord] at h
    split at h
    · exact exec_pending h
    · cases h; exact rejectReserved_pending _ s

/-- Settles O6: the clauses about words and the hardware reset are the cases of `acceptInput`. -/
theorem stepRunsDecodedCommand : Obligations.StepRunsDecodedCommand := by
  intro s x rest h
  have hstep := step_of_pending_cons h
  refine ⟨hstep, fun t ht => acceptInput_pending (hstep ▸ ht), ?_, ?_, ?_⟩
  · rintro w rfl
    exact hstep
  · rintro w i rfl hw
    exact hstep.trans (acceptWord_of_decode hw _)
  · rintro rfl
    exact hstep

/-! ### The bytes of an integer -/

/-- A 32-bit value is the sum of its four bytes, each by its weight (R64). -/
theorem toNat_eq_sum_bytes (v : BitVec 32) :
    v.toNat = (v.extractLsb' 0 8).toNat + 2 ^ 8 * (v.extractLsb' 8 8).toNat + 2 ^ 16 * (v.extractLsb' 16 8).toNat +
      2 ^ 24 * (v.extractLsb' 24 8).toNat := by
  have hv := v.isLt
  simp only [BitVec.extractLsb'_toNat, Nat.shiftRight_eq_div_pow]
  omega

/-- Settles O29. -/
theorem integerBytesRoundTrip : Obligations.IntegerBytesRoundTrip := fun v w =>
  ⟨_, _, _, _, rfl, toNat_eq_sum_bytes v, insertByte_le32 v w⟩

/-! ### Nothing stops the block -/

/-- In a phase that allows it the own rule of every command answers a next state: `BUILD` has room for its nodes, `GEN`
and `CONS` walk a tree, and no other command can stop (R60, R126, R168). -/
theorem State.Inv.ownRule_completes (h : s.Inv) (hl : legalIn i s.phase = true) : ∃ t, Machine.ownRule i s = .next t := by
  cases i with
  | build =>
    by_cases hn : s.nleaf = 0#9
    · exact ⟨_, if_pos hn⟩
    · obtain ⟨t, ht, -⟩ := buildTree_spec h.table hn
      exact ⟨t, (if_neg hn).trans (answer_next.2 ht)⟩
  | gen =>
    have hp : s.phase = .tree := by simpa [legalIn] using hl
    obtain ⟨htree, -⟩ := h.tree (by rw [hp]; rfl)
    obtain ⟨t, ht, -⟩ := generateCodes_spec h.table htree
    exact ⟨t, answer_next.2 ht⟩
  | cons p =>
    have hp : s.phase ∈ [.tree, .codes, .unpack] := by simpa [legalIn, or_assoc] using hl
    obtain ⟨htree, hcur⟩ := h.tree (Phase.hasTree_of_mem _ hp).1
    obtain ⟨_, _, -, hbits⟩ := htree.takeBits_spec h.table hcur 8 p
    exact ⟨_, by rw [Machine.ownRule, hbits s rfl rfl fun _ _ => rfl]; rfl⟩
  | emit b =>
    by_cases hv : s.cvalid.read b = false
    · exact ⟨_, if_pos hv⟩
    · exact ⟨_, if_neg hv⟩
  | endSource =>
    by_cases hp : s.phase = .idle ∨ s.phase = .mdread
    · exact ⟨_, if_pos hp⟩
    · exact ⟨_, if_neg hp⟩
  | rst | cnt | cntfin | mdrd | mdwr | fin | srcerr => exact ⟨_, rfl⟩

/-- Every command answers a next state: it is ignored, it raises `IllegalSequence`, or its own rule completes (R96). -/
theorem State.Inv.exec_completes (h : s.Inv) (i : Instr) : ∃ t, Machine.exec i s = .next t := by
  by_cases hi : i = .rst
  · exact ⟨restart s, hi ▸ exec_rst s⟩
  by_cases hf : s.fault = .none
  · cases hl : legalIn i s.phase with
    | false => exact ⟨_, exec_illegal hf hl⟩
    | true => exact exec_legal hf hl ▸ h.ownRule_completes hl
  · exact ⟨s, exec_faulted hi hf⟩

/-- Any input of the host has a next state (R96, R245). -/
theorem State.Inv.acceptInput_completes (h : s.Inv) (x : HostInput) : ∃ t, Machine.acceptInput x s = .next t := by
  cases x with
  | hardwareReset => exact ⟨_, rfl⟩
  | command w =>
    simp only [Machine.acceptInput, acceptWord]
    split
    · exact h.exec_completes _
    · exact ⟨_, rfl⟩

/-- Settles O48: with no input the block waits, and any input has a next state. -/
theorem stepNeverStops : Obligations.StepNeverStops := by
  intro s h
  cases hp : s.pending with
  | nil => exact ⟨s, step_of_pending_nil hp⟩
  | cons x rest =>
    rw [step_of_pending_cons hp]
    exact (h.of_control s.fault s.finfo rest).acceptInput_completes x

end Sys2Proof.Machine
end

section
/-! SUPPORT. What a command word decodes to (spec/30_encoding.md R90 to R95): the row with the word's opcode, if one
of the twelve has it. -/

namespace Sys2Proof

variable {w : CommandWord} {i : Instr} {r : OpcodeRow}

/-- The opcodes of the map are 0x01 to 0x0C (R93, R95). -/
theorem exists_row_iff {o : Byte} :
    (∃ r ∈ opcodeMap, CommandWord.op r.pattern = o) ↔ 1 ≤ o.toNat ∧ o.toNat ≤ 0x0C := by
  constructor
  · rintro ⟨r, hr, rfl⟩
    revert r
    decide
  · rintro ⟨h1, h2⟩
    have key : ∀ n < 0x0D, 1 ≤ n → ∃ r ∈ opcodeMap, CommandWord.op r.pattern = BitVec.ofNat 8 n := by decide
    simpa using key o.toNat (by omega) h1

/-- The row with the word's opcode is the one the decoder takes, since no two rows have the same opcode (R93). -/
theorem decode_of_row (hr : r ∈ opcodeMap) (h : w.op = CommandWord.op r.pattern) : decode w = .ok (r.build w.low) := by
  unfold decode
  split
  · rename_i q hq
    have hmem := List.mem_of_find?_eq_some hq
    have hclaims : q.claims w = true := List.find?_some (p := fun r : OpcodeRow => r.claims w) hq
    have hop : CommandWord.op q.pattern = CommandWord.op r.pattern :=
      ((OpcodeRow.claims_iff hmem).1 hclaims).symm.trans h
    have hnodup : (opcodeMap.map fun r => CommandWord.op r.pattern).Nodup := List.pairwise_map.2 opcodeMap_disjoint
    rw [List.inj_on_of_nodup_map hnodup hmem hr hop]
  · rename_i hnone
    exact absurd ((OpcodeRow.claims_iff hr).2 h) (List.find?_eq_none.1 hnone r hr)

/-- A word whose opcode no row has is refused with that opcode (R95). -/
theorem decode_reserved (h : ¬ ∃ r ∈ opcodeMap, CommandWord.op r.pattern = w.op) :
    decode w = .error (.reservedOpcode w.op) := by
  have hnone : opcodeMap.find? (fun r => r.claims w) = none :=
    List.find?_eq_none.2 fun r hr hc => h ⟨r, hr, ((OpcodeRow.claims_iff hr).1 hc).symm⟩
  rw [decode, hnone]

/-- A row makes a command with the row's opcode and, as operand if it has one, the low byte (R93, R94). -/
theorem OpcodeRow.build_fields (hr : r ∈ opcodeMap) (b : Byte) :
    (r.build b).opcode = CommandWord.op r.pattern ∧ ∀ c, (r.build b).operand = some c → b = c := by
  simp only [opcodeMap, List.mem_cons, List.not_mem_nil, or_false] at hr
  rcases hr with rfl | rfl | rfl | rfl | rfl | rfl | rfl | rfl | rfl | rfl | rfl | rfl <;>
    simp [Instr.opcode, Instr.operand, CommandWord.op]

/-- Every command has its row: with the command's operand in the low byte, or anything without one, the row makes the
command (R93, R94). -/
theorem Instr.exists_row (i : Instr) :
    ∃ r ∈ opcodeMap, CommandWord.op r.pattern = i.opcode ∧ ∀ b, (∀ c, i.operand = some c → b = c) → r.build b = i := by
  cases i <;> simp [opcodeMap, Instr.opcode, Instr.operand, CommandWord.op]

/-- A word decodes to a command exactly when it has the command's opcode and, if the command has an operand, the operand
in its low byte (R90, R94). -/
theorem decode_eq_ok_iff : decode w = .ok i ↔ w.op = i.opcode ∧ ∀ b, i.operand = some b → w.low = b := by
  constructor
  · intro h
    by_cases hrow : ∃ r ∈ opcodeMap, CommandWord.op r.pattern = w.op
    · obtain ⟨r, hr, hop⟩ := hrow
      rw [decode_of_row hr hop.symm] at h
      cases h
      obtain ⟨hopcode, hoperand⟩ := OpcodeRow.build_fields hr w.low
      exact ⟨hop.symm.trans hopcode.symm, hoperand⟩
    · rw [decode_reserved hrow] at h
      cases h
  · rintro ⟨hop, hoperand⟩
    obtain ⟨r, hr, hopcode, hbuild⟩ := i.exists_row
    rw [decode_of_row hr (hop.trans hopcode.symm), hbuild w.low hoperand]

/-- The fields of every command's word, from the lemmas of the constructors. -/
theorem encodedFields (i : Instr) : Laws.EncodedFields.Statement i := by
  open Laws.EncodedFields in
  cases i with
  | rst => exact rst
  | cnt b => exact cnt b
  | cntfin => exact cntfin
  | mdrd b => exact mdrd b
  | build => exact build
  | gen => exact gen
  | mdwr => exact mdwr
  | emit b => exact emit b
  | fin => exact fin
  | cons p => exact cons p
  | endSource => exact endSource
  | srcerr => exact srcerr

/-- Settles O1: the fields of the word are the ones the decoder reads. -/
theorem decodeEncodeRoundTrip : Obligations.DecodeEncodeRoundTrip := by
  intro i _
  obtain ⟨hword, hop, hlow, -⟩ := encodedFields i
  exact ⟨decode_eq_ok_iff.2 ⟨hop, fun b hb => by rw [hlow, hb]; rfl⟩, hword⟩

/-- Settles O2. -/
theorem decodeReadsOpcodeAndOperand : Obligations.DecodeReadsOpcodeAndOperand := by
  refine ⟨fun w i => decode_eq_ok_iff, fun i hi => ?_⟩
  obtain ⟨-, -, hlow, -⟩ := encodedFields i
  rw [hi] at hlow
  exact hlow

namespace Machine

/-- Settles O3: an opcode has a row exactly when it is from 0x01 to 0x0C. -/
theorem everyWordIsCommandOrIllegal : Obligations.EveryWordIsCommandOrIllegal := by
  intro w
  refine ⟨fun h s hs => ?_, fun h => ?_⟩
  · have hdec : decode w = .error (.reservedOpcode w.op) :=
      decode_reserved fun hrow => by have := exists_row_iff.1 hrow; simp only [CommandWord.op] at this; omega
    simp [acceptWord, hdec, rejectReserved, hs, raise, CommandWord.op]
  · obtain ⟨r, hr, hop⟩ := exists_row_iff.2 h
    have hdec := decode_of_row (w := w) hr hop.symm
    exact ⟨_, hdec, acceptWord_of_decode hdec⟩

/-- Settles O4. -/
theorem specWordsDecode : Obligations.SpecWordsDecode := by
  unfold Obligations.SpecWordsDecode
  decide

end Machine

end Sys2Proof
end

section
/-! SUPPORT. What the assembler reads in the text of a command (spec/30_encoding.md R102, log 16): a mnemonic, and after
a space the digits of an operand in decimal. -/

namespace Sys2Proof.Machine

/-- A word of source text: not empty, of digits and capital letters only, so with no white space, quote or semicolon. -/
def IsWord (cs : SourceText) : Prop := cs ≠ [] ∧ ∀ c ∈ cs, (48 ≤ c ∧ c ≤ 57) ∨ (65 ≤ c ∧ c ≤ 90)

/-- The digits of a number in decimal, as ASCII codes. -/
def decimalText (n : Nat) : SourceText := (Nat.toDigits 10 n).map Char.toNat

variable {cs w : SourceText} {c n : Nat} {m : Mnemonic}

/-! ### The digits of a number -/

theorem decimalText_of_lt (h : n < 10) : decimalText n = [n + 48] := by
  have hchar : ∀ d < 10, (Nat.digitChar d).toNat = d + 48 := by decide
  rw [decimalText, Nat.toDigits_of_lt_base h, List.map_singleton, hchar n h]

theorem decimalText_of_ge (h : 10 ≤ n) : decimalText n = decimalText (n / 10) ++ decimalText (n % 10) := by
  have hlt : n % 10 < 10 := Nat.mod_lt n (by decide)
  rw [decimalText, Nat.toDigits_of_base_le (by decide) h, List.map_append, ← Nat.toDigits_of_lt_base hlt]
  rfl

theorem decimalText_digit (n : Nat) : ∀ c ∈ decimalText n, 48 ≤ c ∧ c ≤ 57 := by
  induction n using Nat.strong_induction_on with
  | _ n ih =>
    by_cases h : n < 10
    · simp only [decimalText_of_lt h, List.mem_singleton, forall_eq]
      omega
    · intro c hc
      rw [decimalText_of_ge (by omega), List.mem_append] at hc
      exact hc.elim (ih _ (by omega) c) (ih _ (by omega) c)

theorem isWord_decimalText (n : Nat) : IsWord (decimalText n) :=
  ⟨by simp [decimalText, Nat.toDigits_ne_nil], fun c hc => .inl (decimalText_digit n c hc)⟩

/-- One more digit at the end of a number (R102). -/
theorem digitsValue_append_digit {base d : Nat} (h : digitsValue base cs = some n) (hc : hexDigit c = some d)
    (hd : d < base) : digitsValue base (cs ++ [c]) = some (base * n + d) := by
  cases cs with
  | nil => cases h
  | cons a as =>
    rw [digitsValue] at h
    · rw [digitsValue, List.foldlM_append, h]
      · simp [hc, hd]
      · simp
    · simp

/-- The digits of a number in decimal stand for it (R102). -/
theorem digitsValue_decimalText (n : Nat) : digitsValue 10 (decimalText n) = some n := by
  have hdigit : ∀ d < 10, hexDigit (d + 48) = some d := by decide
  induction n using Nat.strong_induction_on with
  | _ n ih =>
    by_cases h : n < 10
    · simp [decimalText_of_lt h, digitsValue, hdigit n h, h]
    · have hlt : n % 10 < 10 := Nat.mod_lt n (by decide)
      rw [decimalText_of_ge (by omega), decimalText_of_lt hlt,
        digitsValue_append_digit (ih _ (by omega)) (hdigit _ hlt) hlt, Nat.div_add_mod]

/-- Digits are neither a quoted character nor a hexadecimal number (R102). -/
theorem operandValue_decimalText (n : Nat) : operandValue (decimalText n) = some n := by
  have hdigits := decimalText_digit n
  unfold operandValue
  split
  · rename_i h
    have := hdigits 39 (by simp [h])
    omega
  · rename_i h
    have := hdigits 120 (by simp [h])
    omega
  · exact digitsValue_decimalText n

/-! ### Words, white space and comments -/

theorem isWord_mnemonicText (m : Mnemonic) : IsWord (mnemonicText m) := by
  cases m <;> exact ⟨by decide, by decide⟩

theorem find?_mnemonic (m : Mnemonic) : allMnemonics.find? (fun k => mnemonicText k == mnemonicText m) = some m := by
  cases m <;> rfl

theorem IsWord.not_blank (h : IsWord w) (hc : c ∈ w) : isBlank c = false := by
  have := h.2 c hc
  simp only [isBlank, Bool.or_eq_false_iff, beq_eq_false_iff_ne]
  omega

theorem IsWord.reverse (h : IsWord w) : IsWord w.reverse :=
  ⟨by simpa using h.1, fun c hc => h.2 c (List.mem_reverse.1 hc)⟩

/-- Text that begins with a word has no white space to drop in front. -/
theorem IsWord.dropWhile_append (h : IsWord w) (cs : SourceText) : (w ++ cs).dropWhile isBlank = w ++ cs := by
  obtain ⟨c, w', rfl⟩ := List.exists_cons_of_ne_nil h.1
  exact List.dropWhile_cons_of_neg (by simp [h.not_blank])

/-- Text that begins and ends with a word has no white space at its ends. -/
theorem trimmed_of_dropWhile (h : cs.dropWhile isBlank = w) (h' : w.reverse.dropWhile isBlank = w.reverse) :
    trimmed cs = w := by
  rw [trimmed, h, h', List.reverse_reverse]

theorem IsWord.trimmed_eq (h : IsWord w) : trimmed w = w :=
  trimmed_of_dropWhile (by simpa using h.dropWhile_append []) (by simpa using h.reverse.dropWhile_append [])

/-- A space before a word is white space (log 16). -/
theorem IsWord.trimmed_space (h : IsWord w) : trimmed (32 :: w) = w :=
  h.trimmed_eq

theorem IsWord.trimmed_two (hw : IsWord w) (h : IsWord cs) : trimmed (w ++ 32 :: cs) = w ++ 32 :: cs := by
  refine trimmed_of_dropWhile (hw.dropWhile_append _) ?_
  simpa using h.reverse.dropWhile_append (32 :: w.reverse)

/-- Text without quotes and semicolons has no comment (R102). -/
theorem withoutComment_eq_self (h : ∀ c ∈ cs, c ≠ 39 ∧ c ≠ 59) : withoutComment cs = cs := by
  induction cs using withoutComment.induct with
  | case1 => rfl
  | case2 c cs ih => exact absurd rfl (h 39 (by simp)).1
  | case3 c cs hq hc => exact absurd (by simpa using hc) (h c (by simp)).2
  | case4 c cs hq hc ih => rw [withoutComment.eq_3 c cs hq, if_neg hc, ih fun d hd => h d (by simp [hd])]

theorem IsWord.no_mark (h : IsWord w) (hc : c ∈ w) : c ≠ 39 ∧ c ≠ 59 := by
  have := h.2 c hc
  omega

/-! ### A line of text -/

/-- A mnemonic alone is a command without operand (R102). -/
theorem parseLine_mnemonic (m : Mnemonic) : parseLine (mnemonicText m) = .ok (some ⟨m, none⟩) := by
  have hw := isWord_mnemonicText m
  have hword : (mnemonicText m).takeWhile (fun c => !isBlank c) = mnemonicText m :=
    List.takeWhile_eq_self_iff.2 fun c hc => by simp [hw.not_blank hc]
  have hnil : trimmed [] = [] := rfl
  simp [parseLine, withoutComment_eq_self fun c => hw.no_mark, hw.trimmed_eq, hword, hnil, hw.1, find?_mnemonic]

/-- A mnemonic, a space and a number in decimal are a command with the number as operand (R102). -/
theorem parseLine_operand (m : Mnemonic) (n : Nat) :
    parseLine (mnemonicText m ++ 32 :: decimalText n) = .ok (some ⟨m, some n⟩) := by
  have hw := isWord_mnemonicText m
  have hd := isWord_decimalText n
  have hcomment : withoutComment (mnemonicText m ++ 32 :: decimalText n) = mnemonicText m ++ 32 :: decimalText n := by
    refine withoutComment_eq_self fun c hc => ?_
    rcases List.mem_append.1 hc with hc | hc
    · exact hw.no_mark hc
    · rcases List.mem_cons.1 hc with rfl | hc
      · decide
      · exact hd.no_mark hc
  have hword : (mnemonicText m ++ 32 :: decimalText n).takeWhile (fun c => !isBlank c) = mnemonicText m := by
    rw [List.takeWhile_append_of_pos fun c hc => by simp [hw.not_blank hc]]
    simp [isBlank]
  simp [parseLine, hcomment, hw.trimmed_two hd, hword, hd.trimmed_space, hd.1, find?_mnemonic,
    operandValue_decimalText]

/-- The source command that a command is written as stands for it (R102). -/
theorem toInstr_sourceCommand (i : Instr) :
    SourceCommand.toInstr ⟨i.mnemonic, i.operand.map BitVec.toNat⟩ = some i := by
  have hle : ∀ b : Byte, b.toNat ≤ 255 := fun b => Nat.le_of_lt_succ b.isLt
  cases i with
  | cnt b | mdrd b | emit b | cons b =>
    simp [SourceCommand.toInstr, SourceCommand.wellFormed, Instr.mnemonic, Mnemonic.format, Instr.operand, hle b]
  | rst | cntfin | build | gen | mdwr | fin | endSource | srcerr => rfl

theorem parseLine_render (i : Instr) :
    parseLine (render i) = .ok (some ⟨i.mnemonic, i.operand.map BitVec.toNat⟩) := by
  unfold render
  split
  · rename_i h
    rw [h]
    exact parseLine_mnemonic _
  · rename_i b h
    rw [h, List.append_assoc]
    exact parseLine_operand _ b.toNat

/-- Settles O5: the line parses to the source command that stands for the command. -/
theorem assembledTextGivesWord : Obligations.AssembledTextGivesWord := by
  intro i
  simp [assembleLine, parseLine_render, toInstr_sourceCommand]

end Sys2Proof.Machine
end

section
/-! SUPPORT. The encode sequence (spec/30_encoding.md R104), stage by stage: counting (spec/40_frequency_counter.md
R110 to R113), the tree and the code table, the metadata block, and the packed codes (spec/43_bit_packer.md R157). -/

namespace Sys2Proof.Machine

variable {s t : State} {x y : List Byte} {b : Byte}

/-! ### Counting -/

/-- The keys of the frequency table are the bytes of a list, each with its number of occurrences (R111). -/
structure State.Counts (s : State) (x : List Byte) : Prop where
  present : ∀ b, s.present.read b = decide (b ∈ x)
  freq : ∀ b ∈ x, (s.freq.read b).toNat = x.count b

theorem State.AtReset.counts (h : s.AtReset) : s.Counts [] :=
  ⟨fun b => by simp [h.present b], by simp⟩

/-- The order of the bytes does not matter (R111). -/
theorem State.Counts.perm (h : s.Counts x) (hp : x.Perm y) : s.Counts y :=
  ⟨fun b => by simp [h.present b, hp.mem_iff], fun b hb => by rw [h.freq b (hp.mem_iff.2 hb), hp.count_eq]⟩

theorem State.Counts.congr (h : s.Counts x) (h1 : t.present = s.present) (h2 : t.freq = s.freq) : t.Counts x :=
  ⟨by rw [h1]; exact h.present, by rw [h2]; exact h.freq⟩

/-- An occurrence whose count fits is counted, and only the table and the phase are written (R110, R111). -/
theorem State.Counts.countOne (h : s.Counts x) (hb : (b :: x).count b < 2 ^ 31) (p : Phase) :
    (countOne b p s).Counts (b :: x) ∧ countOne b p s = { s with
      present := (countOne b p s).present, freq := (countOne b p s).freq, nleaf := (countOne b p s).nleaf,
      phase := p } := by
  rw [List.count_cons_self] at hb
  have hpresent := h.present
  have hfreq := h.freq
  unfold Machine.countOne
  split
  · rename_i hnew
    have hmem : b ∉ x := by simpa [hpresent] using hnew
    refine ⟨⟨fun c => ?_, fun c hc => ?_⟩, rfl⟩
    · by_cases hcb : c = b <;> simp [Table.read_write, hcb, hpresent]
    · by_cases hcb : c = b
      · simp [hcb, List.count_eq_zero.2 hmem]
      · simp [Table.read_write, hcb, Ne.symm hcb, hfreq c (by simpa [hcb] using hc)]
  · rename_i hold
    have hmem : b ∈ x := by simpa [hpresent] using hold
    have hcount := hfreq b hmem
    split
    · rename_i hfull
      have hmax : Config.countMax.toNat = 2 ^ 31 - 1 := rfl
      rw [hfull] at hcount
      omega
    · refine ⟨⟨fun c => ?_, fun c hc => ?_⟩, rfl⟩
      · by_cases hcb : c = b <;> simp [hcb, hpresent, hmem]
      · by_cases hcb : c = b
        · simp [hcb, BitVec.toNat_add, hcount]
          omega
        · simp [Table.read_write, hcb, Ne.symm hcb, hfreq c (by simpa [hcb] using hc)]

/-- `CNTS x` counts the bytes of `x` beside those already counted, and writes the table and the phase only (R103,
R111). -/
theorem State.Counts.execAll_cnts (h : s.Counts y) (hf : s.fault = .none) (hp : s.phase = .idle ∨ s.phase = .count)
    (hx : ∀ b, (x ++ y).count b < 2 ^ 31) :
    ∃ t, execAll (cnts x) s = .next t ∧ t.Counts (x ++ y) ∧
      t = { s with present := t.present, freq := t.freq, nleaf := t.nleaf, phase := t.phase } ∧
      (t.phase = .idle ∨ t.phase = .count) := by
  induction x generalizing s y with
  | nil => exact ⟨s, rfl, h, rfl, hp⟩
  | cons b x ih =>
    have hperm : (x ++ b :: y).Perm (b :: x ++ y) := List.perm_middle
    have hb : (b :: y).count b < 2 ^ 31 :=
      ((List.sublist_append_right x _).count_le b).trans_lt (hperm.count_eq b ▸ hx b)
    have hexec : exec (.cnt b) s = .next (Machine.countOne b .count s) := by
      rw [exec_legal hf (by simpa [legalIn] using hp)]
      rfl
    obtain ⟨hcounts, hframe⟩ := h.countOne hb .count
    obtain ⟨t, ht, htc, hte, htp⟩ := ih hcounts (by rw [hframe]; exact hf) (by rw [hframe]; exact .inr rfl)
      (by simpa [hperm.count_eq] using hx)
    refine ⟨t, (execAll_cons hexec).trans ht, htc.perm hperm, ?_, htp⟩
    rw [hte, hframe]

/-- `CNTFIN` counts the sentinel and closes the table (R112). -/
theorem State.Counts.exec_cntfin (h : s.Counts x) (hf : s.fault = .none) (hp : s.phase = .idle ∨ s.phase = .count)
    (hx : ∀ b, (24#8 :: x).count b < 2 ^ 31) :
    ∃ t, exec .cntfin s = .next t ∧ t.Counts (24#8 :: x) ∧
      t = { s with present := t.present, freq := t.freq, nleaf := t.nleaf, phase := .table } := by
  obtain ⟨hcounts, hframe⟩ := h.countOne (hx 24#8) .table
  refine ⟨_, ?_, hcounts, hframe⟩
  rw [exec_legal hf (by simpa [legalIn] using hp)]
  rfl

/-! ### The tree, the code table and the metadata block -/

theorem State.Inv.execAll (h : s.Inv) {is : List Instr} (he : Machine.execAll is s = .next t) : t.Inv := by
  induction is generalizing s with
  | nil => cases he; exact h
  | cons i is ih =>
    obtain ⟨u, hu⟩ := h.exec_completes i
    exact ih (h.exec hu) (execAll_cons hu ▸ he)

/-- A table with a key has at least one entry (R37 item 1). -/
theorem State.TableOk.nleaf_ne_zero (h : s.TableOk) (hb : s.present.read b = true) : s.nleaf ≠ 0#9 := by
  intro h0
  have hlen := h.nleaf_eq
  rw [h0] at hlen
  exact (List.length_pos_of_mem (mem_keys.2 hb)).ne hlen

/-- `BUILD` of a table with a key writes the tree, its registers and the phase (R120). -/
theorem State.TableOk.exec_build (h : s.TableOk) (hf : s.fault = .none) (hp : s.phase = .table)
    (hb : s.present.read b = true) :
    ∃ t, exec .build s = .next t ∧
      t = { s with node := t.node, nnodes := t.nnodes, root := t.root, cur := t.cur, phase := .tree } := by
  have hn := h.nleaf_ne_zero hb
  obtain ⟨t, ht, e, -⟩ := buildTree_spec h hn
  refine ⟨t, ?_, e⟩
  rw [exec_legal hf (by rw [hp]; rfl)]
  exact (if_neg hn).trans (answer_next.2 ht)

/-- `GEN` of a tree writes the code table and the phase (R140). -/
theorem State.Inv.exec_gen (h : s.Inv) (hf : s.fault = .none) (hp : s.phase = .tree) :
    ∃ t, Machine.exec .gen s = .next t ∧
      t = { s with cvalid := t.cvalid, clen := t.clen, code := t.code, phase := .codes } := by
  obtain ⟨htree, -⟩ := h.tree (by rw [hp]; rfl)
  obtain ⟨t, ht, e, -⟩ := generateCodes_spec h.table htree
  refine ⟨t, ?_, e⟩
  rw [exec_legal hf (by rw [hp]; rfl)]
  exact answer_next.2 ht

theorem exec_mdwr (hf : s.fault = .none) (hp : s.phase = .codes) :
    exec .mdwr s = .next { s with out := s.out ++ s.metadataBlock, phase := .pack } := by
  rw [exec_legal hf (by rw [hp]; rfl)]
  rfl

/-- The encode sequence up to `GEN`: a new run has the table of the input and the sentinel, and its code table
(R104). -/
theorem execAll_encode_codes (x : List Byte) (s : State) (hx : ∀ b, (24#8 :: x).count b < 2 ^ 31) :
    ∃ t, execAll ([.rst] ++ cnts x ++ [.cntfin, .build, .gen]) s = .next t ∧ t.Inv ∧ t.Counts (24#8 :: x) ∧
      t.fault = .none ∧ t.phase = .codes ∧ t.out = [] := by
  have hreset := restart_atReset s
  have hx' : ∀ b, (x ++ []).count b < 2 ^ 31 := fun b => by
    rw [List.append_nil]
    exact List.count_le_count_cons.trans_lt (hx b)
  obtain ⟨t₁, h1, hc1, e1, hp1⟩ := hreset.counts.execAll_cnts (x := x) hreset.fault (.inl hreset.phase) hx'
  rw [List.append_nil] at hc1
  have hf1 : t₁.fault = .none := by rw [e1]; rfl
  obtain ⟨t₂, h2, hc2, e2⟩ := hc1.exec_cntfin hf1 hp1 hx
  have hinv2 : t₂.Inv := (hreset.inv.execAll h1).exec h2
  have hf2 : t₂.fault = .none := by rw [e2]; exact hf1
  have hkey : t₂.present.read 24#8 = true := by simp [hc2.present]
  obtain ⟨t₃, h3, e3⟩ := hinv2.table.exec_build hf2 (by rw [e2]) hkey
  have hinv3 := hinv2.exec h3
  have hf3 : t₃.fault = .none := by rw [e3]; exact hf2
  obtain ⟨t₄, h4, e4⟩ := hinv3.exec_gen hf3 (by rw [e3])
  have hcounts : t₄.Counts (24#8 :: x) := hc2.congr (by rw [e4, e3]) (by rw [e4, e3])
  refine ⟨t₄, ?_, hinv3.exec h4, hcounts, by rw [e4]; exact hf3, by rw [e4], by rw [e4, e3, e2, e1]; rfl⟩
  rw [List.append_assoc, List.singleton_append, execAll_cons (exec_rst s), execAll_append, h1, andThen_next,
    execAll_cons h2, execAll_cons h3, execAll_cons h4]
  rfl

/-! ### The payload -/

/-- `EMITS x` packs the symbols of the codes of `x`, one after the other (R103, R150). -/
theorem execAll_emits (x : List Byte) (hf : s.fault = .none) (hp : s.phase = .pack)
    (hv : ∀ b ∈ x, s.cvalid.read b = true) :
    execAll (emits x) s = .next ((x.flatMap s.codeOf).foldl packSymbol s) := by
  induction x generalizing s with
  | nil => rfl
  | cons b x ih =>
    have hexec : exec (.emit b) s = .next ((s.codeOf b).foldl packSymbol s) := by
      rw [exec_legal hf (by rw [hp]; rfl)]
      exact if_neg (by simp [hv b])
    obtain ⟨bytes, e⟩ := foldl_packSymbol_frame (s.codeOf b) s
    obtain ⟨u, hu⟩ : ∃ u, (s.codeOf b).foldl packSymbol s = u := ⟨_, rfl⟩
    rw [hu] at e hexec
    have hcode : u.codeOf = s.codeOf := by rw [e]; rfl
    refine (execAll_cons hexec).trans ?_
    rw [List.flatMap_cons, List.foldl_append, hu, ← hcode]
    exact ih (by rw [e]; exact hf) (by rw [e]; exact hp) fun c hc => by rw [e]; exact hv c (by simp [hc])

/-- The held bits leave as the top of a byte that zeros fill, or as nothing when none are held (R155). -/
theorem State.PackerOk.flushBits_spec (h : s.PackerOk) :
    ∃ bytes, Machine.flushBits s = { s with acc := 0#8, nbits := 0#4, out := s.out ++ bytes } ∧
      bitStream bytes = s.held ++ List.replicate (padBits s.held.length) false := by
  have hle := h.nbits_le
  by_cases h0 : s.nbits = 0#4
  · have hflush : Machine.flushBits s = s := if_neg (by simp [h0])
    obtain ⟨hn, ha⟩ := h.flushBits
    rw [hflush] at hn ha
    refine ⟨[], ?_, by simp [State.held, h0, padBits, bitStream]⟩
    rw [hflush, ← hn, ← ha, List.append_nil]
  · have hpos : s.nbits.toNat ≠ 0 := fun e => h0 (BitVec.eq_of_toNat_eq (by simpa using e))
    have hpad : padBits s.held.length = 8 - s.nbits.toNat := by
      rw [held_length, padBits]
      omega
    refine ⟨[s.acc <<< (8 - s.nbits.toNat)], by simp [Machine.flushBits, h0, outAll], ?_⟩
    rw [hpad, ← flushed_bits s h0 hle]
    simp [bitStream]

/-- `EMITS x` and `FIN` with nothing held output the codes of `x` and zeros up to a whole byte, and only the packer's
registers, `OUT` and the phase are written (R157). -/
theorem State.PackerOk.execAll_payload (h : s.PackerOk) (hf : s.fault = .none) (hp : s.phase = .pack)
    (hn : s.nbits = 0#4) (hv : ∀ b ∈ x, s.cvalid.read b = true) :
    ∃ bytes, execAll (emits x ++ [.fin]) s =
        .next { s with acc := 0#8, nbits := 0#4, out := s.out ++ bytes, phase := .done } ∧
      bitStream bytes = x.flatMap s.codeOf ++ List.replicate (padBits (x.flatMap s.codeOf).length) false := by
  have hheld : s.held = [] := by simp [State.held, hn]
  obtain ⟨b₁, e1, hbits1, -⟩ := foldl_packSymbol_spec (x.flatMap s.codeOf) s h.nbits_le h.acc_lt
  obtain ⟨u, hu⟩ : ∃ u, (x.flatMap s.codeOf).foldl packSymbol s = u := ⟨_, rfl⟩
  have hpacker := h.foldl_packSymbol hp (x.flatMap s.codeOf)
  rw [hu] at e1 hbits1 hpacker
  obtain ⟨b₂, e2, hbits2⟩ := hpacker.flushBits_spec
  rw [hheld, List.nil_append] at hbits1
  have hpad : padBits (x.flatMap s.codeOf).length = padBits u.held.length := by
    rw [← hbits1, List.length_append, bitStream_length, padBits, padBits]
    omega
  have hfin : exec .fin u = .next { Machine.flushBits u with phase := .done } := by
    rw [exec_legal (by rw [e1]; exact hf) (by rw [e1, hp]; rfl)]
    rfl
  refine ⟨b₁ ++ b₂, ?_, ?_⟩
  · rw [execAll_append, execAll_emits x hf hp hv, hu, andThen_next, execAll_cons hfin, e2, e1]
    simp [execAll]
  · rw [bitStream_append, hbits2, ← List.append_assoc, hbits1, hpad]

/-- The encode sequence of an input whose counts fit: the run ends in the table and the code table of a state in phase
CODES that meets the invariants, and has output its metadata block and the packed codes (R104, R157). -/
theorem execAll_encodeSequence (x : List Byte) (s : State) (hx : ∀ b, (24#8 :: x).count b < 2 ^ 31) :
    ∃ (t : State) (payload : List Byte), t.Inv ∧ t.Counts (24#8 :: x) ∧ t.fault = .none ∧ t.phase = .codes ∧
      execAll (encodeSequence x) s =
        .next { t with acc := 0#8, nbits := 0#4, out := t.metadataBlock ++ payload, phase := .done } ∧
      bitStream payload = x.flatMap t.codeOf ++ List.replicate (padBits (x.flatMap t.codeOf).length) false := by
  obtain ⟨t, ht, hinv, hcounts, hf, hp, hout⟩ := execAll_encode_codes x s hx
  have hmdwr := exec_mdwr hf hp
  rw [hout, List.nil_append] at hmdwr
  obtain ⟨hn, -⟩ := hinv.packer.idle (by simp [hp])
  have hvalid : ∀ b ∈ x, t.cvalid.read b = true := fun b hb => by
    rw [(hinv.codes (by rw [hp]; rfl)).valid, hcounts.present]
    simp [hb]
  obtain ⟨payload, hpay, hbits⟩ :=
    (hinv.metadataWritten hp t.metadataBlock).packer.execAll_payload (x := x) hf rfl hn hvalid
  refine ⟨t, payload, hinv, hcounts, hf, hp, ?_, hbits⟩
  have hsplit : encodeSequence x = ([.rst] ++ cnts x ++ [.cntfin, .build, .gen]) ++ .mdwr :: (emits x ++ [.fin]) := by
    simp [encodeSequence]
  rw [hsplit, execAll_append, ht, andThen_next, execAll_cons hmdwr, hpay]

/-- Settles O53: the packer and the phase, which the end of the run writes, are in none of the clauses about the
table. -/
theorem encodeRunWritesStream : Obligations.EncodeRunWritesStream := by
  intro x s hx
  obtain ⟨t, payload, -, hcounts, hf, -, hrun, hbits⟩ := execAll_encodeSequence x s hx
  refine ⟨_, payload, hrun, ⟨rfl, hf⟩, rfl, fun b => ?_, fun b hb => ?_, hbits⟩
  · simpa using hcounts.present b
  · exact hcounts.freq b (by simpa [hcounts.present] using hb)

end Sys2Proof.Machine
end

section
/-! SUPPORT. The frequency counter (spec/40_frequency_counter.md): what one count does to the table (R110, R112), and the
table that a fresh run's counting leaves (R111, R113). -/

namespace Sys2Proof.Machine

variable {i : Instr} {s t : State} {x : List Byte} {b : Byte} {p : Phase}

/-! ### One occurrence -/

theorem countOne_of_absent (hb : s.present.read b = false) :
    countOne b p s = { s with
      present := s.present.write b true, freq := s.freq.write b 1#32, nleaf := s.nleaf + 1#9, phase := p } :=
  if_pos hb

theorem countOne_of_not_full (hb : s.present.read b = true) (hc : s.freq.read b ≠ Config.countMax) :
    countOne b p s = { s with freq := s.freq.write b (s.freq.read b + 1#32), phase := p } := by
  simp [countOne, hb, hc]

theorem countOne_of_full (hb : s.present.read b = true) (hc : s.freq.read b = Config.countMax) :
    countOne b p s = raise .countOverflow b s := by
  simp [countOne, hb, hc]

/-- A command that counts one occurrence of `b` makes it a key, adds to its count, or overflows (R110); `CNT` and
`CNTFIN` are the two such commands. -/
theorem exec_counts_occurrence (h : exec i s = .next (countOne b p s)) :
    (s.present.read b = false →
      ∃ t, exec i s = .next t ∧
        t = { s with present := t.present, freq := t.freq, nleaf := s.nleaf + 1#9, phase := p } ∧
        t.present.read b = true ∧ t.freq.read b = 1#32 ∧
        ∀ c, c ≠ b → t.present.read c = s.present.read c ∧ t.freq.read c = s.freq.read c) ∧
    (s.present.read b = true → s.freq.read b ≠ Config.countMax →
      ∃ t, exec i s = .next t ∧ t = { s with freq := t.freq, phase := p } ∧
        t.freq.read b = s.freq.read b + 1#32 ∧ ∀ c, c ≠ b → t.freq.read c = s.freq.read c) ∧
    (s.present.read b = true → s.freq.read b = Config.countMax →
      exec i s = .next (raise .countOverflow b s)) := by
  refine ⟨fun hb => ?absent, fun hb hc => ?more, fun hb hc => ?full⟩
  case absent =>
    rw [countOne_of_absent hb] at h
    exact ⟨_, h, rfl, Table.read_write_same .., Table.read_write_same ..,
      fun c hc => ⟨Table.read_write_ne _ _ hc, Table.read_write_ne _ _ hc⟩⟩
  case more =>
    rw [countOne_of_not_full hb hc] at h
    exact ⟨_, h, rfl, Table.read_write_same .., fun c hcb => Table.read_write_ne _ _ hcb⟩
  case full => rw [h, countOne_of_full hb hc]

/-- Settles O17: `CNT b` is legal in IDLE and COUNT, where its own rule counts one occurrence of `b`. -/
theorem cntCountsOneOccurrence : Obligations.CntCountsOneOccurrence := fun b s hf hp =>
  exec_counts_occurrence (exec_legal (i := .cnt b) hf (by simpa [legalIn] using hp))

/-- Settles O18: `CNTFIN` is legal in IDLE and COUNT, where its own rule counts one occurrence of the sentinel. -/
theorem cntfinCountsSentinel : Obligations.CntfinCountsSentinel := fun s hf hp =>
  exec_counts_occurrence (exec_legal (i := .cntfin) hf (by simpa [legalIn] using hp))

/-! ### An input -/

/-- The keys of the table of `x` are the distinct bytes of `x` (R111). -/
theorem State.Counts.keys_perm (h : s.Counts x) : s.keys.Perm x.dedup := by
  rw [List.perm_ext_iff_of_nodup (keys_nodup s) x.nodup_dedup]
  intro b
  simp [h.present b]

/-- `NLEAF` is the number of distinct bytes counted (R111). -/
theorem State.Counts.nleaf_eq (h : s.Counts x) (ht : s.TableOk) : s.nleaf.toNat = x.dedup.length :=
  ht.nleaf_eq.trans h.keys_perm.length_eq

/-- The count of every key is at least 1 (R113). -/
theorem State.Counts.one_le_freq (h : s.Counts x) (hb : s.present.read b = true) : 1 ≤ (s.freq.read b).toNat := by
  have hmem : b ∈ x := by simpa [h.present b] using hb
  rw [h.freq b hmem]
  exact List.count_pos_iff.2 hmem

/-- The counts sum to the number of bytes counted (R113). -/
theorem State.Counts.countSum_eq (h : s.Counts x) : countSum s = x.length :=
  calc countSum s
    _ = (x.dedup.map fun b => (s.freq.read b).toNat).sum := (h.keys_perm.map _).sum_eq
    _ = (x.dedup.map fun b => x.count b).sum :=
        congrArg List.sum (List.map_congr_left fun b hb => h.freq b (List.mem_dedup.1 hb))
    _ = x.length := x.sum_map_count_dedup_eq_length

/-- A state of phase IDLE that meets the invariants has counted nothing yet (R37 item 6). -/
theorem State.Inv.counts_of_idle (h : s.Inv) (hp : s.phase = .idle) : s.Counts [] := by
  obtain ⟨-, -, hkeys⟩ := h.reader.fresh hp
  exact ⟨fun b => by simp [keys_eq_nil.1 hkeys b], by simp⟩

/-- Counting an input from phase IDLE completes with no fault and leaves the table of the input (R111). -/
theorem State.Inv.execAll_cnts (h : s.Inv) (hf : s.fault = .none) (hp : s.phase = .idle)
    (hx : ∀ b, x.count b < 2 ^ 31) :
    ∃ t, Machine.execAll (cnts x) s = .next t ∧ t.Inv ∧ t.Counts x ∧ t.fault = .none ∧
      (t.phase = .idle ∨ t.phase = .count) := by
  obtain ⟨t, ht, hcounts, hframe, hphase⟩ :=
    (h.counts_of_idle hp).execAll_cnts (x := x) hf (.inl hp) (by simpa using hx)
  exact ⟨t, ht, h.execAll ht, by simpa using hcounts, by rw [hframe]; exact hf, hphase⟩

/-- Settles O19: the counts are those of the input, and the invariants tie `NLEAF` to the keys. -/
theorem countingGivesOccurrences : Obligations.CountingGivesOccurrences := by
  intro x s hinv hf hp hx
  obtain ⟨t, ht, htinv, hcounts, htf, -⟩ := hinv.execAll_cnts hf hp hx
  exact ⟨t, ht, htf, hcounts.present, hcounts.freq, hcounts.nleaf_eq htinv.table⟩

/-- Settles O20: after `CNTFIN` the table counts the input and one sentinel, so it has a key and `BUILD` completes. -/
theorem sentinelIsAlwaysCounted : Obligations.SentinelIsAlwaysCounted := by
  intro x s hinv hf hp hx
  obtain ⟨t₁, h₁, hinv₁, hcounts₁, hf₁, hp₁⟩ :=
    hinv.execAll_cnts hf hp fun b => List.count_le_count_cons.trans_lt (hx b)
  obtain ⟨t, ht, hcounts, hframe⟩ := hcounts₁.exec_cntfin hf₁ hp₁ hx
  have htable : t.TableOk := (hinv₁.exec ht).table
  have htf : t.fault = .none := by rw [hframe]; exact hf₁
  have hphase : t.phase = .table := by rw [hframe]
  have hkey : t.present.read 24#8 = true := by simp [hcounts.present]
  have hnleaf : 1 ≤ t.nleaf.toNat := by
    rw [htable.nleaf_eq]
    exact List.length_pos_of_mem (mem_keys.2 hkey)
  obtain ⟨u, hu, huframe⟩ := htable.exec_build htf hphase hkey
  refine ⟨t, ?_, htf, hphase, hkey, hnleaf, fun b => hcounts.one_le_freq, hcounts.countSum_eq, u, hu, ?_⟩
  · rw [execAll_append, h₁, andThen_next, execAll_cons ht]
    rfl
  · rw [huframe]
    exact htf

end Sys2Proof.Machine
end

section
/-! SUPPORT. The tree that `BUILD` makes of a table (spec/41_tree_builder.md): its strict shape and its smallest pairs
(R120 to R126), its frequencies (R126 items 6 and 7), what it rests on (R130), and how deep it is (R131). -/

namespace Sys2Proof.Machine

variable {s t : State}

/-! ### What `BUILD` answers -/

/-- `BUILD` of a table with an entry answers the tree of its own rule (R96 step 6, R120). -/
theorem exec_build_eq_next_iff (hf : s.fault = .none) (hp : s.phase = .table) (hn : s.nleaf ≠ 0#9) :
    exec .build s = .next t ↔ buildTree s = .ok t := by
  have hown : ownRule .build s = answer (buildTree s) := if_neg hn
  rw [exec_legal hf (by rw [hp]; rfl), hown, answer_next]

/-- Settles O24: the own rule of `BUILD` looks at `NLEAF` before anything else. -/
theorem buildOfEmptyTableFaults : Obligations.BuildOfEmptyTableFaults := by
  intro s hf hp h0
  rw [exec_legal hf (by rw [hp]; rfl)]
  exact if_pos h0

/-- Settles O21: a legal `BUILD` of an entry or more is `buildTree`, whose tree and frame `buildTree_spec` gives. -/
theorem buildMakesStrictTree : Obligations.BuildMakesStrictTree := by
  intro s h hf hp hn
  obtain ⟨t, ht, hframe, htree, hcur, -⟩ := buildTree_spec h hn
  exact ⟨t, (exec_build_eq_next_iff hf hp hn).2 ht, htree, hcur, hframe⟩

/-- Settles O22: `BUILD` keeps `NLEAF`, so the internal nodes are those its passes made. -/
theorem buildJoinsSmallestPairs : Obligations.BuildJoinsSmallestPairs := by
  intro s t h hf hp hn he
  obtain ⟨u, hu, hframe, -, -, hleast⟩ := buildTree_spec h hn
  cases hu.symm.trans ((exec_build_eq_next_iff hf hp hn).1 he)
  have hnleaf : t.nleaf = s.nleaf := by rw [hframe]
  rw [hnleaf]
  exact hleast

/-! ### Frequencies -/

/-- A leaf of the tree has the count of its key as its frequency (R126 item 3). -/
theorem State.TreeOk.freqAt_leaf (h : s.TreeOk) {i : Nat} (hi : i < s.nleaf.toNat) (hk : i < s.keys.length) :
    (s.node.freqAt i).toNat = (s.freq.read s.keys[i]).toNat := by
  rw [Arena.freqAt, h.leaves i hi, List.getElem?_eq_getElem hk]
  exact leafOf_freq

/-- The frequencies of the leaves of a tree sum to the sum of the table's counts (R126 item 7). -/
theorem State.TreeOk.sum_freqAt_leaves (h : s.TreeOk) (ht : s.TableOk) :
    ((List.range s.nleaf.toNat).map fun i => (s.node.freqAt i).toNat).sum = countSum s := by
  refine congrArg List.sum (List.ext_getElem (by simp [ht.nleaf_eq]) fun i hi hk => ?_)
  simp only [List.length_map, List.length_range] at hi hk
  simpa using h.freqAt_leaf hi hk

/-- The root is the one node the merge leaves live, so its frequency is the sum of the counts; and each internal node has
at least the frequency of the one made before it (R126 items 6 and 7). -/
theorem buildTree_freqAt (h : s.TableOk) (hn : s.nleaf ≠ 0#9) (ht : buildTree s = .ok t) :
    (t.node.freqAt t.root.toNat).toNat = countSum s ∧
    ∀ i, s.nleaf.toNat ≤ i → i + 1 < t.nnodes.toNat →
      (t.node.freqAt i).toNat ≤ (t.node.freqAt (i + 1)).toNat := by
  obtain ⟨f, a₀, hf, g, hnn, hlive, -⟩ := huffmanForest_spec h hn
  cases (buildTree_of_forest hf).symm.trans ht
  have hle := keys_length_le s
  have hlen := h.nleaf_eq
  have hnodes : (BitVec.ofNat 10 f.nnodes).toNat = f.nnodes := by
    rw [BitVec.toNat_ofNat, Nat.mod_eq_of_lt (by omega)]
  have hroot : (BitVec.ofNat 9 (f.live.headD 0)).toNat = 2 * s.nleaf.toNat - 2 := by
    rw [hlive, List.headD_cons, BitVec.toNat_ofNat, Nat.mod_eq_of_lt (by omega)]
  have hlast : (f.node.freqAt (2 * s.nleaf.toNat - 2)).toNat = countSum s := by simpa [hlive] using g.sum
  refine ⟨?_, fun i hi hlt => g.mono i hi (hnodes ▸ hlt)⟩
  simp only [hroot, hlast]

/-- Settles O23: the merge keeps the sum of the live frequencies, of which the root's is the last. -/
theorem buildConservesFrequency : Obligations.BuildConservesFrequency := by
  intro s t h hf hp hn he
  have hb := (exec_build_eq_next_iff hf hp hn).1 he
  obtain ⟨u, hu, hframe, htree, -, -⟩ := buildTree_spec h hn
  cases hu.symm.trans hb
  obtain ⟨hroot, hmono⟩ := buildTree_freqAt h hn hb
  have hpresent : t.present = s.present := by rw [hframe]
  have hfreq : t.freq = s.freq := by rw [hframe]
  have hnleaf : t.nleaf = s.nleaf := by rw [hframe]
  have hkeys : t.keys = s.keys := keys_congr hpresent
  have htable : t.TableOk := ⟨by rw [hnleaf, hkeys]; exact h.nleaf_eq, by rw [hpresent, hfreq]; exact h.count_le⟩
  have hleaves := htree.sum_freqAt_leaves htable
  rw [countSum, hnleaf, hkeys, hfreq] at hleaves
  exact ⟨hroot, hleaves, hnleaf ▸ hmono⟩

/-! ### What the tree rests on -/

/-- `BUILD` reads the arena, the keys, their counts and `NLEAF`, and nothing else (R120). -/
theorem buildTree_congr {s' : State} (ht : buildTree s = .ok t) (hnode : s'.node = s.node)
    (hpresent : s'.present = s.present) (hfreq : s'.freq = s.freq) (hnleaf : s'.nleaf = s.nleaf) :
    buildTree s' = .ok { s' with node := t.node, nnodes := t.nnodes, root := t.root, cur := t.cur, phase := .tree } := by
  have hleaf : leafOf s' = leafOf s := by funext b; rw [leafOf, leafOf, hfreq]
  have hforest : huffmanForest s' = huffmanForest s := by
    rw [huffmanForest, huffmanForest, leafForest, leafForest, keys_congr hpresent, hnode, hnleaf, hleaf]
  rw [buildTree] at ht ⊢
  rw [hforest]
  cases hf : huffmanForest s with
  | error e => rw [hf] at ht; cases ht
  | ok f => rw [hf] at ht; cases ht; rfl

/-- Settles O25. `BUILD` writes `NNODES` without reading it, so below an `NNODES` of 0 every old node and every count of
an absent byte is unspecified content, which `SameSpecified.buildTree` says it does not read. -/
theorem buildDependsOnTableOnly : Obligations.BuildDependsOnTableOnly := by
  intro s s' h h' hf hf' hp hp' hn hpresent hfreq
  have hnleaf : s'.nleaf = s.nleaf :=
    BitVec.eq_of_toNat_eq (by rw [h.nleaf_eq, h'.nleaf_eq, keys_congr hpresent])
  have hsame : State.SameSpecified { s with nnodes := 0#10 }
      { s with nnodes := 0#10, freq := s'.freq, node := s'.node } :=
    ⟨rfl, hfreq, fun i hi => absurd hi (Nat.not_lt_zero i), fun _ _ => rfl, fun _ _ => rfl⟩
  obtain ⟨t, ht, -⟩ := buildTree_spec h hn
  obtain ⟨u, hu, htu⟩ :=
    hsame.buildTree ⟨h.nleaf_eq, h.count_le⟩ ⟨h.nleaf_eq, hpresent ▸ h'.count_le⟩ hn ht
  have hnnodes : u.nnodes = t.nnodes := by rw [htu.rest]
  have hroot : u.root = t.root := by rw [htu.rest]
  have ht' := buildTree_congr hu (s' := s') rfl hpresent rfl hnleaf
  exact ⟨t, _, (exec_build_eq_next_iff hf hp hn).2 ht, (exec_build_eq_next_iff hf' hp' (hnleaf ▸ hn)).2 ht',
    hnnodes, hroot, htu.node⟩

/-! ### Depth -/

/-- The path of a key's code is among those that the walk of `GEN` finds (R142 item 2). -/
theorem State.CodesOk.mem_leafPaths (h : s.CodesOk) {es : List (Byte × List Bool)} (hes : s.leafPaths = .ok es)
    {b : Byte} (hb : s.present.read b = true) : (b, s.codeOf b) ∈ es := by
  obtain ⟨es', hes', hperm⟩ := h.paths
  cases hes.symm.trans hes'
  exact hperm.mem_iff.2 (List.mem_map_of_mem (mem_keys.2 hb))

/-- With two leaves or more the root is no leaf, so no leaf's path is empty (R131). -/
theorem State.TreeOk.path_ne_nil (h : s.TreeOk) (h2 : 2 ≤ s.nleaf.toNat) {es : List (Byte × List Bool)}
    (hes : s.leafPaths = .ok es) {e : Byte × List Bool} (he : e ∈ es) : e.2 ≠ [] := by
  have hnn := h.nnodes_eq
  have hroot := h.root_eq
  obtain ⟨fr, l, r, hn, -⟩ := Arena.joinsSmaller_iff.1 (h.internals s.root.toNat (by omega) (by omega))
  obtain ⟨q, j, hq, hfollow, hbyte, -⟩ := walk_follow hes e he
  intro hnil
  obtain rfl : q = [] := by simpa [hnil] using hq.symm
  cases hfollow
  simp [Arena.leafByte, hn] at hbyte

/-- Settles O28: a key's code is the path of its leaf, and a path has at most `NLEAF` - 1 edges. -/
theorem codeLengthsAreBounded : Obligations.CodeLengthsAreBounded := by
  intro s b hinv hp hb
  have hcodes : s.phase.hasCodes = true := by
    have hphases : ∀ p ∈ [Phase.codes, .pack], p.hasCodes = true := by decide
    exact hphases _ hp
  have htree := (hinv.tree (Phase.hasTree_of_hasCodes hcodes)).1
  obtain ⟨es, hes, -, hlen⟩ := htree.leafPaths_spec hinv.table
  have hmem := (hinv.codes hcodes).mem_leafPaths hes hb
  have hle : (s.codeOf b).length ≤ s.nleaf.toNat - 1 := hlen _ hmem
  have hkeys := keys_length_le s
  have hnleaf := hinv.table.nleaf_eq
  refine ⟨hle, by omega, fun h1 => List.length_eq_zero_iff.1 (by omega), fun h2 => htree.path_ne_nil h2 hes hmem⟩

end Sys2Proof.Machine
end

section
/-! SUPPORT. The code table that `GEN` makes of a tree (spec/42_code_table.md): what it stores for a byte (R31, R140),
where the codes lead, and that they are prefix-free and complete (R142). -/

namespace Sys2Proof.Machine

variable {s t : State} {b c : Byte}

/-! ### What `GEN` stores -/

/-- `GEN` of a tree answers the state of its own rule (R96 step 6, R140). -/
theorem exec_gen_eq_next_iff (hf : s.fault = .none) (hp : s.phase = .tree) :
    exec .gen s = .next t ↔ generateCodes s = .ok t := by
  have hown : ownRule .gen s = answer (generateCodes s) := rfl
  rw [exec_legal hf (by rw [hp]; rfl), hown, answer_next]

/-- The stored field of a code is zero at and above the code's length (R31). -/
theorem codeField_getLsbD_of_length_le {path : List Bool} {k : Nat} (h : path.length ≤ 255) (hk : path.length ≤ k) :
    (codeField path).getLsbD k = false := by
  rw [codeField_getLsbD path h, List.getElem?_eq_none (by simpa using hk), Option.getD_none]

/-- `GEN` of a tree stores for each key the length and the field of a path of at most 255 symbols, and for no other byte
anything (R131, R140). -/
theorem generateCodes_stored (ht : s.TableOk) (hr : s.TreeOk) (hg : generateCodes s = .ok t) :
    (∀ b, s.present.read b = true → ∃ path : List Bool, path.length ≤ 255 ∧
      t.clen.read b = BitVec.ofNat 8 path.length ∧ t.code.read b = codeField path) ∧
    ∀ b, s.present.read b = false → t.clen.read b = s.clen.read b ∧ t.code.read b = s.code.read b := by
  obtain ⟨es, hes, hperm, hlen⟩ := hr.leafPaths_spec ht
  have hnleaf := ht.nleaf_eq
  have hkeys := keys_length_le s
  obtain ⟨-, hcode, hother⟩ := foldl_recordCode_spec es (clearCodes s) (hperm.nodup_iff.2 (keys_nodup s))
  rw [generateCodes, hes] at hg
  cases hg
  refine ⟨fun b hb => ?_, fun b hb => hother b ?_⟩
  · obtain ⟨⟨c, path⟩, he, rfl⟩ := List.mem_map.1 (hperm.mem_iff.2 (mem_keys.2 hb))
    have hpath : path.length ≤ s.nleaf.toNat - 1 := hlen _ he
    exact ⟨path, by omega, hcode _ he⟩
  · rw [hperm.mem_iff, mem_keys, hb]
    exact Bool.false_ne_true

/-! ### Where the codes lead -/

/-- The code of a key leads from the root to the key's leaf (R142 item 2). -/
theorem State.CodesOk.leadsTo_codeOf (h : s.CodesOk) (hb : s.present.read b = true) : s.leadsTo (s.codeOf b) b := by
  obtain ⟨es, hes, -⟩ := h.paths
  obtain ⟨q, j, hq, hfollow, hbyte, -⟩ := walk_follow hes _ (h.mem_leafPaths hes hb)
  obtain rfl : s.codeOf b = q := hq
  exact ⟨j, hfollow, hbyte⟩

/-- Settles O26: the codes lead to their leaves by `CodesOk` of the answer, whose tree is the one before `GEN`, and
`generateCodes_stored` tells the fields. -/
theorem genRecordsPathsToLeaves : Obligations.GenRecordsPathsToLeaves := by
  intro s ht hr hf hp
  obtain ⟨t, hg, hframe, hcodes⟩ := generateCodes_spec ht hr
  obtain ⟨hstored, hother⟩ := generateCodes_stored ht hr hg
  have hpresent : t.present = s.present := by rw [hframe]
  have hnode : t.node = s.node := by rw [hframe]
  have hroot : t.root = s.root := by rw [hframe]
  refine ⟨t, (exec_gen_eq_next_iff hf hp).2 hg, hframe, fun b => by rw [hcodes.valid, hpresent],
    fun b hb => ⟨?_, fun k hk => ?_⟩, hother⟩
  · obtain ⟨j, hfollow, hbyte⟩ := hcodes.leadsTo_codeOf (hpresent ▸ hb)
    exact ⟨j, hnode ▸ hroot ▸ hfollow, hnode ▸ hbyte⟩
  · obtain ⟨path, hlen, hclen, hcode⟩ := hstored b hb
    rw [hclen, BitVec.toNat_ofNat, Nat.mod_eq_of_lt (by omega)] at hk
    rw [hcode]
    exact codeField_getLsbD_of_length_le hlen hk

/-! ### The set of codes -/

/-- The code of a key begins no other key's code (R142 item 3). -/
theorem State.CodesOk.eq_of_codeOf_prefix (h : s.CodesOk) (hb : s.present.read b = true) (hc : s.present.read c = true)
    (hbc : s.codeOf b <+: s.codeOf c) : b = c :=
  ((h.leadsTo_codeOf hb).eq_of_prefix (h.leadsTo_codeOf hc) hbc).2

/-- A bit sequence as long as the longest code begins with a code. The walk is complete for sequences as long as its
depth; filled up to that length, the sequence begins with a code, which ends before the filling (R142 item 4, R131). -/
theorem State.CodesOk.exists_codeOf_prefix (h : s.CodesOk) (ht : s.TableOk) (hr : s.TreeOk) {bits : List Bool}
    (hlong : s.nleaf.toNat - 1 ≤ bits.length) : ∃ b, s.present.read b = true ∧ s.codeOf b <+: bits := by
  obtain ⟨es, hes, -, hlen⟩ := hr.leafPaths_spec ht
  obtain ⟨es', hes', hperm⟩ := h.paths
  cases hes.symm.trans hes'
  obtain ⟨e, he, hprefix⟩ := walk_complete hes (bits ++ List.replicate Config.maxNodes false) (by simp)
  have hbits : e.2 <+: bits :=
    List.prefix_of_prefix_length_le hprefix (List.prefix_append _ _) ((hlen e he).trans hlong)
  obtain ⟨b, hb, rfl⟩ := List.mem_map.1 (hperm.mem_iff.1 he)
  exact ⟨b, mem_keys.1 hb, hbits⟩

theorem Phase.hasCodes_of_mem {p : Phase} (hp : p ∈ [.codes, .pack]) : p.hasCodes = true := by
  have hphases : ∀ q ∈ [Phase.codes, .pack], q.hasCodes = true := by decide
  exact hphases p hp

/-- Settles O27: of two codes that a bit sequence begins with, one is a prefix of the other, so they belong to one key.
`NLEAF` ≥ 2 is not needed: the empty code of a lone key begins every sequence. -/
theorem codesArePrefixFreeAndComplete : Obligations.CodesArePrefixFreeAndComplete := by
  intro s hinv hp _
  have hphase := Phase.hasCodes_of_mem hp
  have hcodes := hinv.codes hphase
  have htree := (hinv.tree (Phase.hasTree_of_hasCodes hphase)).1
  have hnleaf := hinv.table.nleaf_eq
  have hkeys := keys_length_le s
  refine ⟨fun b c hb hc hne hbc => hne (hcodes.eq_of_codeOf_prefix hb hc hbc), fun bits hlong => ?_⟩
  obtain ⟨b, hb, hbits⟩ := hcodes.exists_codeOf_prefix hinv.table htree (bits := bits) (by omega)
  refine ⟨b, ⟨hb, hbits⟩, ?_⟩
  rintro c ⟨hc, hbits'⟩
  rcases List.prefix_or_prefix_of_prefix hbits' hbits with hcb | hbc
  · exact hcodes.eq_of_codeOf_prefix hc hb hcb
  · exact (hcodes.eq_of_codeOf_prefix hb hc hbc).symm

end Sys2Proof.Machine
end

section
/-! SUPPORT. The packer's two commands and a whole payload (spec/43_bit_packer.md): `EMIT` of a byte with a code and
without one (R150 to R154), `FIN` (R155), and the packed codes of an input (R157). -/

namespace Sys2Proof.Machine

variable {s : State} {b : Byte}

theorem codeOf_length (s : State) (b : Byte) : (s.codeOf b).length = (s.clen.read b).toNat := by
  simp [State.codeOf, codeSymbols]

/-- `EMIT` of a byte with a code packs the symbols of the code (R150). -/
theorem exec_emit (hf : s.fault = .none) (hp : s.phase = .pack) (hv : s.cvalid.read b = true) :
    exec (.emit b) s = .next ((s.codeOf b).foldl packSymbol s) := by
  rw [exec_legal hf (by rw [hp]; rfl)]
  exact if_neg (by simp [hv])

/-- `FIN` flushes the held bits and ends the run (R155). -/
theorem exec_fin (hf : s.fault = .none) (hp : s.phase = .pack) :
    exec .fin s = .next { flushBits s with phase := .done } := by
  rw [exec_legal hf (by rw [hp]; rfl)]
  rfl

/-- Whole bytes before at most seven bits: a bit sequence split so has as many bytes as eight goes into its length, and
the remainder is left (R154). -/
theorem length_of_bitStream_append_eq {bytes : List Byte} {rest bits : List Bool} (h : bitStream bytes ++ rest = bits)
    (hrest : rest.length ≤ 7) : bytes.length = bits.length / 8 ∧ rest.length = bits.length % 8 := by
  have hlen := congrArg List.length h
  rw [List.length_append, bitStream_length] at hlen
  omega

/-- Settles O36: the bits are those of `foldl_packSymbol_spec`, and the two counts follow from their number, since at most
seven bits are left held. -/
theorem emitAppendsCode : Obligations.EmitAppendsCode := by
  intro b s h hf hp hv
  obtain ⟨bytes, hframe, hbits, hle, -⟩ := foldl_packSymbol_spec (s.codeOf b) s h.nbits_le h.acc_lt
  obtain ⟨hbytes, hheld⟩ := length_of_bitStream_append_eq hbits (by rwa [held_length])
  rw [List.length_append, held_length, codeOf_length] at hbytes hheld
  rw [held_length] at hheld
  exact ⟨_, bytes, exec_emit hf hp hv, hframe, hbits, hbytes, hheld, h.foldl_packSymbol hp _⟩

/-- Settles O37: `EMIT` is legal in PACK, where its own rule looks for the code first. -/
theorem emitWithoutCodeFaults : Obligations.EmitWithoutCodeFaults := by
  intro b s hf hp hv
  rw [exec_legal hf (by rw [hp]; rfl)]
  exact if_pos hv

theorem flushBits_of_empty (h0 : s.nbits = 0#4) : flushBits s = s := if_neg (by simp [h0])

theorem flushBits_of_held (h0 : s.nbits ≠ 0#4) :
    flushBits s = { s with out := s.out ++ [s.acc <<< (8 - s.nbits.toNat)], acc := 0#8, nbits := 0#4 } :=
  if_pos h0

/-- Settles O38: the last byte is the accumulator with the held bits moved to the top. -/
theorem finPadsLastByte : Obligations.FinPadsLastByte := by
  intro s h hf hp
  rw [exec_fin hf hp]
  refine ⟨fun h0 => ?empty, fun h0 => ?held⟩
  case empty => rw [flushBits_of_empty h0]
  case held =>
    rw [flushBits_of_held h0]
    exact ⟨_, rfl, flushed_bits s h0 h.nbits_le⟩

/-- Settles O39: the whole answer of the sequence is that of `State.PackerOk.execAll_payload`. -/
theorem payloadIsPackedCodes : Obligations.PayloadIsPackedCodes := by
  intro x s h hf hp hn hv
  obtain ⟨bytes, hrun, hbits⟩ := h.execAll_payload hf hp hn hv
  exact ⟨_, bytes, hrun, rfl, rfl, hf, hbits⟩

end Sys2Proof.Machine
end

section
/-! SUPPORT. The unpacker (spec/44_bit_unpacker.md): what bits output and where they lead in the tree (R165 to R168), the
commands that take the bits of bytes, and the split of bits into codes (R170). -/

namespace Sys2Proof.Machine

variable {s t : State} {b : Byte} {i j : Nat} {bit : Bool} {bits path rest : List Bool} {ps : List Byte}
  {codes : List (Byte × List Bool)}

/-! ### Nodes and paths of the tree -/

theorem leafByte_eq_some_iff {a : Arena} : a.leafByte i = some b ↔ ∃ fr, a[i]? = some (.leaf b fr) := by
  unfold Arena.leafByte
  split <;> simp_all

/-- The root is a node of the tree (R126 item 5). -/
theorem State.TreeOk.root_lt (h : s.TreeOk) : s.root.toNat < s.nnodes.toNat := by
  have hpos := h.leaf_pos
  have hnnodes := h.nnodes_eq
  have hroot := h.root_eq
  omega

/-- With two leaves or more the root is no leaf (R126). -/
theorem State.TreeOk.leafByte_root (h : s.TreeOk) (h2 : 2 ≤ s.nleaf.toNat) : s.node.leafByte s.root.toNat = none := by
  have hnnodes := h.nnodes_eq
  have hroot := h.root_eq
  obtain ⟨fr, l, r, hn, -⟩ := Arena.joinsSmaller_iff.1 (h.internals s.root.toNat h.root_lt (by omega))
  simp [Arena.leafByte, hn]

/-- The byte of a leaf of the tree is a key (R126 item 3). -/
theorem State.TreeOk.present_of_leafByte (h : s.TreeOk) (ht : s.TableOk) (hi : i < s.nnodes.toNat)
    (hb : s.node.leafByte i = some b) : s.present.read b = true := by
  obtain ⟨fr, hleaf⟩ := leafByte_eq_some_iff.1 hb
  by_cases hin : i < s.nleaf.toNat
  · obtain ⟨c, hkey, hn⟩ := h.leaf_at ht hin
    cases hleaf.symm.trans hn
    exact mem_keys.1 (List.mem_of_getElem? hkey)
  · obtain ⟨fr', l, r, hn, -⟩ := Arena.joinsSmaller_iff.1 (h.internals i hi (by omega))
    cases hleaf.symm.trans hn

/-- A path from a node index leads to a node index (R30). -/
theorem exists_toNat_of_follow {a : Arena} {i : NodeIndex} (h : a.follow i.toNat path = some j) :
    ∃ k : NodeIndex, k.toNat = j := by
  induction path generalizing i with
  | nil => exact ⟨i, Option.some.inj h⟩
  | cons bit path ih =>
    rw [Arena.follow] at h
    split at h
    · rename_i fr l r _
      exact ih (i := if bit then r else l) (by rw [← h]; cases bit <;> rfl)
    · cases h
    · cases h

/-- When the root is no leaf, a path to a leaf has a bit (R131). -/
theorem State.leadsTo.path_ne_nil (h : s.leadsTo path b) (hroot : s.node.leafByte s.root.toNat = none) : path ≠ [] := by
  rintro rfl
  obtain ⟨j, hj, hb⟩ := h
  cases hj
  rw [hroot] at hb
  cases hb

/-- Bits that complete no path to a leaf lead to a node of the tree (R165, R168). -/
theorem State.TreeOk.exists_follow (h : s.TreeOk) (ht : s.TableOk)
    (hbits : ∀ path b, path <+: bits → ¬ s.leadsTo path b) :
    ∃ j < s.nnodes.toNat, s.node.follow s.root.toNat bits = some j := by
  induction bits using List.reverseRecOn with
  | nil => exact ⟨_, h.root_lt, rfl⟩
  | append_singleton front bit ih =>
    have hfront : ∀ path b, path <+: front → ¬ s.leadsTo path b := fun path b hp =>
      hbits path b (hp.trans (List.prefix_append _ _))
    obtain ⟨j, hj, hfollow⟩ := ih hfront
    obtain ⟨b, fr, hn⟩ | ⟨fr, l, r, hn, hl, hr⟩ := h.node_cases ht hj
    · exact absurd ⟨j, hfollow, leafByte_eq_some_iff.2 ⟨fr, hn⟩⟩ (hfront front b List.prefix_rfl)
    · refine ⟨if bit then r.toNat else l.toNat, by split <;> omega, ?_⟩
      rw [follow_append, hfollow]
      simp [Arena.follow, hn]

/-! ### What bits output -/

/-- The byte of the leaf that is pending in `CUR`, if `CUR` is at a leaf (R166). -/
def State.pendingByte (s : State) : Option Byte := s.node.leafByte s.cur.toNat

/-- A bit outputs the pending byte, if there is one, and writes `CUR` beside (R165, R166). -/
theorem takeBit_outputs_pending (h : takeBit bit s = .ok t) :
    t = { s with cur := t.cur, out := s.out ++ s.pendingByte.toList } := by
  unfold State.pendingByte Arena.leafByte
  cases hn : s.node[s.cur.toNat]? with
  | none => simp [takeBit, emitPending, Arena.read_eq, hn, Except.map, Except.bind] at h
  | some n =>
    cases n with
    | internal fr l r =>
      rw [takeBit_internal hn] at h
      cases h
      simp
    | leaf b fr =>
      cases hr : s.node[s.root.toNat]? with
      | none => simp [takeBit, emitPending, descend, Arena.read_eq, hn, hr, Except.map, Except.bind] at h
      | some m =>
        cases m with
        | internal fr' l r =>
          rw [takeBit_leaf hn hr] at h
          cases h
          rfl
        | leaf c fr' =>
          rw [takeBit_leaf_leaf hn hr] at h
          cases h
          rfl

/-- Bits output at most one byte each, only keys, and leave `CUR` inside the tree (R168). -/
theorem State.TreeOk.takeList_completes (h : s.TreeOk) (ht : s.TableOk) (hc : s.cur.toNat < s.nnodes.toNat)
    (bits : List Bool) : ∃ t bytes, takeList bits s = .ok t ∧ t = { s with cur := t.cur, out := s.out ++ bytes } ∧
      t.cur.toNat < s.nnodes.toNat ∧ bytes.length ≤ bits.length ∧ ∀ b ∈ bytes, s.present.read b = true := by
  induction bits generalizing s with
  | nil => exact ⟨s, [], rfl, by simp, hc, le_rfl, by simp⟩
  | cons bit bits ih =>
    obtain ⟨c, _, hc', hbit⟩ := h.takeBit_spec ht hc bit
    have hstep := hbit s rfl rfl fun _ _ => rfl
    rw [takeBit_outputs_pending hstep] at hstep
    obtain ⟨t, bytes, hrun, hframe, hcur, hlen, hkeys⟩ :=
      ih (s := { s with cur := c, out := s.out ++ s.pendingByte.toList }) (h.congr rfl rfl rfl rfl rfl rfl)
        (ht.congr rfl rfl rfl) hc'
    refine ⟨t, s.pendingByte.toList ++ bytes, by rw [takeList, hstep]; exact hrun, ?_, hcur, ?_, fun b hb => ?_⟩
    · rw [hframe, List.append_assoc]
    · have := Option.length_toList_le (o := s.pendingByte)
      simp only [List.length_append, List.length_cons]
      omega
    · rcases List.mem_append.1 hb with hb | hb
      · exact h.present_of_leafByte ht hc (Option.mem_toList.1 hb)
      · exact hkeys b hb

/-- In a tree whose root is a leaf each bit outputs the leaf's byte, and `CUR` stays at the root (R167). -/
theorem takeList_of_leaf_root (hb : s.node.leafByte s.root.toNat = some b) (hc : s.cur = s.root) (bits : List Bool) :
    takeList bits s = .ok { s with out := s.out ++ List.replicate bits.length b } := by
  obtain ⟨fr, hn⟩ := leafByte_eq_some_iff.1 hb
  induction bits generalizing s with
  | nil => simp [takeList]
  | cons bit bits ih =>
    rw [takeList, takeBit_leaf_leaf (hc ▸ hn) hn]
    refine (ih (s := { s with out := s.out ++ [b], cur := s.root }) hb rfl hn).trans ?_
    simp [← hc, List.replicate_succ]

/-- The bits of a nonempty path from the root output the byte that was pending and leave `CUR` where they lead; the
walk begins at the root or at a pending leaf (R166). -/
theorem takeList_path (hroot : s.node.leafByte s.root.toNat = none) (hc : s.cur = s.root ∨ s.pendingByte.isSome)
    (hpath : path ≠ []) {j : NodeIndex} (hfollow : s.node.follow s.root.toNat path = some j.toNat) :
    takeList path s = .ok { s with cur := j, out := s.out ++ s.pendingByte.toList } := by
  rcases hc with hc | hc
  · have hnone : s.pendingByte = none := by rw [State.pendingByte, hc, hroot]
    rw [takeList_follow path (hc ▸ hfollow), hnone]
    simp
  · obtain ⟨b, hb⟩ := Option.isSome_iff_exists.1 hc
    obtain ⟨fr, hleaf⟩ := leafByte_eq_some_iff.1 hb
    obtain ⟨bit, path, rfl⟩ := List.exists_cons_of_ne_nil hpath
    rw [Arena.follow] at hfollow
    split at hfollow
    · rename_i fr' l r hn
      rw [takeList, takeBit_leaf hleaf hn, hb]
      exact takeList_follow path (by rw [← hfollow]; cases bit <;> rfl)
    · cases hfollow
    · cases hfollow

/-- The phase has no part in what a bit does (R165). -/
theorem takeBit_with_phase (bit : Bool) (s : State) (p : Phase) :
    takeBit bit { s with phase := p } = (takeBit bit s).map fun t => { t with phase := p } := by
  unfold takeBit emitPending descend
  cases hn : s.node.read s.cur.toNat with
  | error e => rfl
  | ok n =>
    cases n with
    | internal fr l r => simp [Except.map, Except.bind, hn]
    | leaf b fr =>
      cases hr : s.node.read s.root.toNat with
      | error e => simp [Except.map, Except.bind, outAll, hr]
      | ok m => cases m <;> simp [Except.map, Except.bind, outAll, hr]

theorem takeList_with_phase (bits : List Bool) (s : State) (p : Phase) :
    takeList bits { s with phase := p } = (takeList bits s).map fun t => { t with phase := p } := by
  induction bits generalizing s with
  | nil => rfl
  | cons bit bits ih =>
    rw [takeList, takeList, takeBit_with_phase]
    cases takeBit bit s with
    | error e => rfl
    | ok u => exact ih u

/-! ### Commands -/

/-- `CONS` takes the bits of its operand, bit 7 first, and ends in phase UNPACK (R165, R25). -/
theorem exec_cons (hf : s.fault = .none) (hp : s.phase ∈ [.tree, .codes, .unpack]) (p : Byte) :
    exec (.cons p) s = answer ((takeList (bitsOf p) s).map fun t => { t with phase := .unpack }) := by
  rw [exec_legal hf (by simpa [legalIn, or_assoc] using hp), ← takeBits_eq_takeList]
  rfl

/-- Commands `CONS` take the bits of their operands in stream order (R65, R103). -/
theorem execAll_conss (hf : s.fault = .none) (hp : s.phase ∈ [.tree, .codes, .unpack])
    (ht : takeList (bitStream ps) s = .ok t) :
    execAll (conss ps) s = .next { t with phase := if ps = [] then s.phase else .unpack } := by
  induction ps generalizing s t with
  | nil => cases ht; rfl
  | cons p ps ih =>
    have hsplit : bitStream (p :: ps) = bitsOf p ++ bitStream ps := rfl
    rw [hsplit, takeList_append] at ht
    cases hu : takeList (bitsOf p) s with
    | error e => rw [hu] at ht; cases ht
    | ok u =>
      rw [hu] at ht
      obtain ⟨bytes, hframe⟩ := takeBits_frame ((takeBits_eq_takeList p s).trans hu)
      have hrest : takeList (bitStream ps) { u with phase := .unpack } = .ok { t with phase := .unpack } := by
        rw [takeList_with_phase, show takeList (bitStream ps) u = .ok t from ht]
        rfl
      have hexec := exec_cons hf hp p
      rw [hu] at hexec
      rw [conss, List.map_cons, execAll_cons hexec]
      exact (ih (by rw [hframe]; exact hf) (by simp) hrest).trans (by simp)

/-- Settles O40: `CONS` is its operand's eight bits, each of which completes. -/
theorem consAlwaysCompletes : Obligations.ConsAlwaysCompletes := by
  intro p s hinv hf hp
  obtain ⟨htree, hcur⟩ := hinv.tree (Phase.hasTree_of_mem _ hp).1
  obtain ⟨t, bytes, hrun, hframe, hcur', hlen, hkeys⟩ := htree.takeList_completes hinv.table hcur (bitsOf p)
  refine ⟨{ t with phase := .unpack }, bytes, ?_, ?_, hcur', by simpa [bitsOf_length] using hlen, hkeys⟩
  · rw [exec_cons hf hp, hrun]
    rfl
  · rw [hframe]

/-- Settles O41: the root is the only node, and a leaf. -/
theorem consOfOneLeafTree : Obligations.ConsOfOneLeafTree := by
  intro s hinv hf hp h1
  obtain ⟨htree, hcur⟩ := hinv.tree (Phase.hasTree_of_mem _ hp).1
  have hnnodes := htree.nnodes_eq
  have hroot := htree.root_eq
  obtain ⟨b, -, hn⟩ := htree.leaf_at hinv.table (i := 0) (by omega)
  have hb : s.node.leafByte 0 = some b := leafByte_eq_some_iff.2 ⟨_, hn⟩
  have hroot0 : s.root = 0#9 := BitVec.eq_of_toNat_eq (by simp; omega)
  have hcur0 : s.cur = s.root := BitVec.eq_of_toNat_eq (by omega)
  refine ⟨hroot0, b, hb, htree.present_of_leafByte hinv.table (by omega) hb, fun p => ?_⟩
  rw [exec_cons hf hp, takeList_of_leaf_root (by rw [hroot0]; exact hb) hcur0, bitsOf_length]
  rfl

theorem foldlM_takeBit_eq_takeList (bits : List Bool) (s : State) :
    bits.foldlM (fun u bit => takeBit bit u) s = takeList bits s := by
  induction bits generalizing s with
  | nil => rfl
  | cons bit bits ih =>
    rw [List.foldlM_cons, takeList]
    exact congrArg (Except.bind (takeBit bit s)) (funext ih)

/-- Settles O42: the model's recursion on the operand is the fold over its bits. -/
theorem consTakesBitsFromTheTop : Obligations.ConsTakesBitsFromTheTop := by
  intro p s hf hp
  refine ⟨by rw [exec_cons hf hp, foldlM_takeBit_eq_takeList],
    fun bit fr l r => ⟨takeBit_internal, fun hroot b hb => ?_⟩⟩
  obtain ⟨fr', hn⟩ := leafByte_eq_some_iff.1 hb
  exact takeBit_leaf hn hroot

/-! ### Codes -/

/-- Bits split into codes, when the root is Internal (R170). -/
theorem State.exists_splits (hroot : s.node.leafByte s.root.toNat = none) (bits : List Bool) :
    ∃ codes rest, s.Splits bits codes rest := by
  by_cases hcode : ∃ path b, path <+: bits ∧ s.leadsTo path b
  · obtain ⟨path, b, ⟨bits', hbits⟩, hpath⟩ := hcode
    have hlt : bits'.length < bits.length := by
      have := List.length_pos_iff.2 (hpath.path_ne_nil hroot)
      rw [← hbits, List.length_append]
      omega
    obtain ⟨codes, rest, h⟩ := State.exists_splits hroot bits'
    refine ⟨(b, path) :: codes, rest, by simp [← hbits, h.bits_eq], ?_, h.no_more⟩
    exact List.forall_mem_cons.2 ⟨hpath, h.is_code⟩
  · exact ⟨[], bits, by simp, by simp, fun path b hp h => hcode ⟨path, b, hp, h⟩⟩
termination_by bits.length

/-- What comes out of the codes that bits split into: the byte that was pending and the bytes of the codes, without the
last one if no bit follows it; `CUR` is then at its leaf, and otherwise where the rest leads (R166, R170). -/
theorem State.Splits.takeList_eq (h : s.Splits bits codes rest) (hr : s.TreeOk) (ht : s.TableOk)
    (hroot : s.node.leafByte s.root.toNat = none) (hc : s.cur = s.root ∨ s.pendingByte.isSome) :
    ∃ t, takeList bits s = .ok t ∧
      t = { s with
        cur := t.cur
        out := s.out ++ if rest = [] then (s.pendingByte.toList ++ codes.map Prod.fst).dropLast
          else s.pendingByte.toList ++ codes.map Prod.fst } ∧
      (rest = [] → ∀ c, codes.getLast? = some c → s.node.follow s.root.toNat c.2 = some t.cur.toNat) ∧
      (rest ≠ [] → s.node.follow s.root.toNat rest = some t.cur.toNat) := by
  obtain ⟨hbits, hcodes, hmore⟩ := h
  subst hbits
  induction codes generalizing s with
  | nil =>
    by_cases hrest : rest = []
    · subst hrest
      refine ⟨s, rfl, ?_, by simp, by simp⟩
      cases s.pendingByte <;> simp
    · obtain ⟨j, -, hfollow⟩ := hr.exists_follow ht hmore
      obtain ⟨k, rfl⟩ := exists_toNat_of_follow hfollow
      exact ⟨_, takeList_path hroot hc hrest hfollow, by simp [hrest], by simp [hrest], fun _ => hfollow⟩
  | cons c codes ih =>
    have hcode := hcodes c (by simp)
    have hne := hcode.path_ne_nil hroot
    obtain ⟨j, hfollow, hbyte⟩ := hcode
    obtain ⟨k, rfl⟩ := exists_toNat_of_follow hfollow
    obtain ⟨t, hrun, hframe, hlast, hrest⟩ := ih (s := { s with cur := k, out := s.out ++ s.pendingByte.toList })
      (hr.congr rfl rfl rfl rfl rfl rfl) (ht.congr rfl rfl rfl) hroot (.inr (by simp [State.pendingByte, hbyte]))
      (fun d hd => hcodes d (by simp [hd])) hmore
    refine ⟨t, ?_, ?_, fun h0 d hd => ?_, hrest⟩
    · rw [List.flatMap_cons, List.append_assoc, takeList_append, takeList_path hroot hc hne hfollow]
      exact hrun
    · rw [hframe]
      simp only [State.pendingByte, hbyte]
      split <;> simp
    · cases codes with
      | nil =>
        subst h0
        cases hrun
        obtain rfl : c = d := by simpa using hd
        exact hfollow
      | cons e codes => exact hlast h0 d (by simpa using hd)

/-- In phase CODES the paths to leaves are the codes of the keys (R142 item 2). -/
theorem State.CodesOk.leadsTo_iff (h : s.CodesOk) :
    s.leadsTo path b ↔ s.present.read b = true ∧ path = s.codeOf b := by
  constructor
  · rintro ⟨j, hfollow, hbyte⟩
    obtain ⟨es, hes, hperm⟩ := h.paths
    have hmem := hperm.mem_iff.1 (mem_walk_of_follow hes hfollow hbyte)
    obtain ⟨c, hc, he⟩ := List.mem_map.1 hmem
    cases he
    exact ⟨mem_keys.1 hc, rfl⟩
  · rintro ⟨hb, rfl⟩
    exact h.leadsTo_codeOf hb

/-- Settles O43: the split of the bits exists, is the only one, and tells what the bits do. -/
theorem consDecodesCodes : Obligations.ConsDecodesCodes := by
  intro ps s hinv hf hp h2 hcur
  obtain ⟨htree, -⟩ := hinv.tree (Phase.hasTree_of_mem _ hp).1
  have hroot := htree.leafByte_root h2
  have hpending : s.pendingByte = none := by rw [State.pendingByte, hcur, hroot]
  obtain ⟨codes, rest, hsplit⟩ := State.exists_splits hroot (bitStream ps)
  obtain ⟨t, hrun, hframe, hlast, hrest⟩ := hsplit.takeList_eq htree hinv.table hroot (.inl hcur)
  refine ⟨⟨codes, rest, _, hsplit, fun codes' rest' h => h.unique hsplit, execAll_conss hf hp hrun, ?_, hlast, hrest⟩,
    fun hcodes path b => (hinv.codes (by rw [hcodes]; rfl)).leadsTo_iff⟩
  rw [hframe, hpending]
  simp

end Sys2Proof.Machine
end

section
/-! SUPPORT. A whole metadata block (spec/20_memory.md R69) is read as the table it describes (spec/45_metadata_codec.md
R186, R187), by a command sequence and by the host's first loop of the decode sequence (spec/30_encoding.md R105). -/

namespace Sys2Proof.Machine

variable {s t : State} {is : List Instr} {e : Byte × Count} {entries : List (Byte × Count)} {b : Byte}

/-! ### The entries -/

/-- The metadata reader stands before these entries, the last ones of its block: their keys are new, their counts legal
(R32, R186). With none left the block is complete. -/
structure State.Awaits (s : State) (entries : List (Byte × Count)) : Prop where
  fault : s.fault = .none
  phase : s.phase = if entries = [] then .table else .mdread
  mdpos : s.mdpos.toNat = 4 + 5 * s.mdcnt.toNat
  mdsize : s.mdsize.toNat = s.mdcnt.toNat + entries.length
  size_le : s.mdsize.toNat ≤ 256
  new : ∀ e ∈ entries, s.present.read e.1 = false
  nodup : (entries.map Prod.fst).Nodup
  legal : ∀ e ∈ entries, e.2.toNat < 2 ^ 31

/-- The next entry is stored (R186). -/
theorem State.Awaits.execAll_entry (h : s.Awaits (e :: entries)) :
    execAll (mdrds (e.1 :: le32 e.2)) s = .next (storeEntry e.1 e.2 s) := by
  have hsize := h.mdsize
  have hle := h.size_le
  rw [List.length_cons] at hsize
  exact Machine.execAll_entry e.1 e.2 h.fault h.phase h.mdpos (by omega) (h.new e (by simp)) (h.legal e (by simp))

/-- After an entry the reader stands before the next one, or its block is complete (R186). -/
theorem State.Awaits.storeEntry (h : s.Awaits (e :: entries)) : (storeEntry e.1 e.2 s).Awaits entries := by
  have hpos := h.mdpos
  have hsize := h.mdsize
  have hle := h.size_le
  have hnodup := h.nodup
  rw [List.length_cons] at hsize
  rw [List.map_cons, List.nodup_cons] at hnodup
  have hcnt : (s.mdcnt + 1#9).toNat = s.mdcnt.toNat + 1 :=
    BitVec.toNat_add_of_lt (by simp; omega)
  have hlast : s.mdcnt + 1#9 = s.mdsize ↔ entries = [] := by
    rw [← BitVec.toNat_inj, hcnt, hsize, ← List.length_eq_zero_iff]
    omega
  refine ⟨h.fault, ?_, ?_, ?_, hle, fun d hd => ?_, hnodup.2, fun d hd => h.legal d (by simp [hd])⟩
  · simp only [Machine.storeEntry, hlast, h.phase]
    simp
  · have hadd : (s.mdpos + 5#11).toNat = s.mdpos.toNat + 5 := BitVec.toNat_add_of_lt (by simp; omega)
    simp only [Machine.storeEntry, hcnt, hadd]
    omega
  · simp only [Machine.storeEntry, hcnt]
    omega
  · have hne : d.1 ≠ e.1 := fun he => hnodup.1 (he ▸ List.mem_map_of_mem hd)
    exact (Table.read_write_ne _ _ hne).trans (h.new d (by simp [hd]))

/-- The entries of a block are stored in the table one after the other, and the last one completes it (R186, R187). -/
theorem State.Awaits.execAll_entries (h : s.Awaits entries) :
    ∃ t, execAll (mdrds (entries.flatMap fun e => e.1 :: le32 e.2)) s = .next t ∧ t.Awaits [] ∧ t.out = s.out ∧
      (∀ b, t.present.read b = (s.present.read b || decide (b ∈ entries.map Prod.fst))) ∧
      (∀ e ∈ entries, t.freq.read e.1 = e.2) ∧
      ∀ b, b ∉ entries.map Prod.fst → t.freq.read b = s.freq.read b := by
  induction entries generalizing s with
  | nil => exact ⟨s, rfl, h, rfl, by simp, by simp, fun _ _ => rfl⟩
  | cons e entries ih =>
    obtain ⟨t, hrun, hdone, hout, hpresent, hfreq, hother⟩ := ih h.storeEntry
    have hnodup := h.nodup
    rw [List.map_cons, List.nodup_cons] at hnodup
    refine ⟨t, ?_, hdone, hout, fun b => ?_, fun d hd => ?_, fun b hb => ?_⟩
    · rw [List.flatMap_cons, mdrds, List.map_append, execAll_append]
      exact congrArg (andThen · _) h.execAll_entry |>.trans hrun
    · rw [hpresent b]
      simp only [Machine.storeEntry, Table.read_write, List.map_cons, List.mem_cons]
      by_cases hb : b = e.1 <;> simp [hb]
    · obtain rfl | hd := List.mem_cons.1 hd
      · exact (hother _ hnodup.1).trans (Table.read_write_same ..)
      · exact hfreq d hd
    · rw [List.map_cons, List.mem_cons, not_or] at hb
      exact (hother b hb.2).trans (Table.read_write_ne _ _ hb.1)

/-! ### The block -/

/-- A table has at most one entry per byte value (R29). -/
theorem IsTable.length_le (h : IsTable entries) : entries.length ≤ 256 := by
  obtain ⟨-, hnodup, -⟩ := h
  have hsub := (List.subperm_of_subset hnodup fun b _ => mem_ascendingBytes b).length_le
  simpa [ascendingBytes] using hsub

/-- A fresh run reads a metadata block as the table it describes and is then in phase TABLE (R187). -/
theorem State.Inv.execAll_blockOf (h : s.Inv) (hf : s.fault = .none) (hp : s.phase = .idle)
    (htable : IsTable entries) :
    ∃ t, Machine.execAll (mdrds (blockOf entries)) s = .next t ∧ t.fault = .none ∧ t.phase = .table ∧ t.out = s.out ∧
      (∀ b, t.present.read b = decide (b ∈ entries.map Prod.fst)) ∧ ∀ e ∈ entries, t.freq.read e.1 = e.2 := by
  obtain ⟨hpos, hcnt, hkeys⟩ := h.reader.fresh hp
  have hle := htable.length_le
  obtain ⟨hne, hnodup, hlegal⟩ := htable
  have hlen := List.length_pos_iff.2 hne
  have hsize : (BitVec.ofNat 32 entries.length).toNat = entries.length := by
    rw [BitVec.toNat_ofNat, Nat.mod_eq_of_lt (by omega)]
  have hsize0 : BitVec.ofNat 32 entries.length ≠ 0#32 := fun e => by
    rw [e] at hsize
    simp at hsize
    omega
  have hrun := execAll_size (BitVec.ofNat 32 entries.length) hf hp hpos (by omega)
  rw [if_neg hsize0] at hrun
  have hawaits : State.Awaits { s with
      mdsize := (BitVec.ofNat 32 entries.length).extractLsb' 0 9, mdword := BitVec.ofNat 32 entries.length,
      mdpos := 4#11, phase := .mdread } entries := by
    have hsize9 := extractLsb'_size (hsize.trans_le hle)
    refine ⟨hf, by simp [hne], by simp [hcnt], ?_, ?_, fun e _ => keys_eq_nil.1 hkeys e.1, hnodup, hlegal⟩
    · simp only [hsize9, hsize, hcnt, BitVec.toNat_ofNat]
      omega
    · simp only [hsize9, hsize]
      omega
  obtain ⟨t, hrun', hdone, hout, hpresent, hfreq, -⟩ := hawaits.execAll_entries
  refine ⟨t, ?_, hdone.fault, hdone.phase, hout, fun b => ?_, hfreq⟩
  · rw [blockOf, mdrds, List.map_append, execAll_append]
    exact congrArg (andThen · _) hrun |>.trans hrun'
  · rw [hpresent b]
    simp [keys_eq_nil.1 hkeys b]

/-- The metadata block that `MDWR` writes is that of the keys in ascending order with their counts (R180, R181). -/
theorem State.TableOk.metadataBlock_eq (h : s.TableOk) :
    s.metadataBlock = blockOf (s.keys.map fun b => (b, s.freq.read b)) := by
  have hsize : s.nleaf.zeroExtend 32 = BitVec.ofNat 32 s.keys.length :=
    BitVec.eq_of_toNat_eq (by simp [← h.nleaf_eq])
  rw [State.metadataBlock, blockOf, hsize, List.length_map, List.flatMap_map]
  rfl

/-- The keys with their counts are a table, if there is one (R29, R37). -/
theorem State.TableOk.isTable (h : s.TableOk) (hb : s.present.read b = true) :
    IsTable (s.keys.map fun b => (b, s.freq.read b)) := by
  refine ⟨?_, ?_, fun e he => ?_⟩
  · simpa using List.ne_nil_of_mem (mem_keys.2 hb)
  · rw [List.map_map]
    exact (List.map_id s.keys).symm ▸ keys_nodup s
  · obtain ⟨c, hc, rfl⟩ := List.mem_map.1 he
    have := h.count_le c (mem_keys.1 hc)
    simp at this ⊢
    omega

/-! ### The host's first loop -/

/-- A faulted block ignores a sequence without `RST` (R226). -/
theorem execAll_faulted (hf : s.fault ≠ .none) (his : ∀ i ∈ is, i ≠ .rst) : execAll is s = .next s := by
  induction is with
  | nil => rfl
  | cons i is ih =>
    rw [execAll_cons (exec_faulted (his i (by simp)) hf)]
    exact ih fun j hj => his j (by simp [hj])

theorem mem_mdrds_ne_rst {bytes : List Byte} : ∀ i ∈ mdrds bytes, i ≠ .rst := by
  simp [mdrds]

/-- A reader that takes a byte and is not faulted in the end was in phase IDLE or MDREAD, with no fault (R25, R226). -/
theorem reads_of_execAll_mdrds {bytes : List Byte} (h : execAll (mdrds (b :: bytes)) s = .next t)
    (hf : t.fault = .none) : s.fault = .none ∧ (s.phase = .idle ∨ s.phase = .mdread) := by
  by_cases hs : s.fault = .none
  · refine ⟨hs, ?_⟩
    by_contra hp
    have hl : legalIn (.mdrd b) s.phase = false := by simpa [legalIn] using hp
    rw [mdrds, List.map_cons, execAll_cons (exec_illegal hs hl)] at h
    cases (execAll_faulted (by simp) mem_mdrds_ne_rst).symm.trans h
    cases hf
  · cases (execAll_faulted hs mem_mdrds_ne_rst).symm.trans h
    exact absurd hf hs

/-- The host's first loop sends the bytes of a metadata block, which ends in phase TABLE, and keeps those after it
(R105). -/
theorem feedMetadata_append {block rest : List Byte} (h : execAll (mdrds block) s = .next t) (hf : t.fault = .none)
    (hp : t.phase = .table) : feedMetadata (block ++ rest) s = .next (t, rest) := by
  induction block generalizing s with
  | nil =>
    cases h
    cases rest with
    | nil => rfl
    | cons b rest =>
      refine if_neg ?_
      simp [hp, phaseCode_inj]
  | cons b block ih =>
    obtain ⟨hs, hphase⟩ := reads_of_execAll_mdrds h hf
    have hgo : (s.statusPhase = phaseCode .idle ∨ s.statusPhase = phaseCode .mdread) ∧ s.statusFault = 0#4 := by
      simpa [phaseCode_inj, faultValue_eq_zero, hs] using hphase
    rw [List.cons_append, feedMetadata, if_pos hgo, execMdrd_reads hs hphase, andThen_next]
    rw [mdrds, List.map_cons, execAll_cons (execMdrd_reads hs hphase)] at h
    exact ih h

end Sys2Proof.Machine
end

section
/-! SUPPORT. The round trip (spec/44_bit_unpacker.md R170 to R173): the decode sequence builds the tree of the encode
sequence, and the pad bits are read as codes of the byte whose code is all zeros. -/

namespace Sys2Proof.Machine

variable {s t u r v : State} {is : List Instr} {x payload : List Byte} {b z : Byte}

/-! ### The tree of a table -/

/-- The tree of `s` is the one that `BUILD` makes of the table of `s`, in state `r` with answer `t` (R120, R130). -/
structure State.BuiltFrom (s r t : State) : Prop where
  table : r.TableOk
  fault : r.fault = .none
  phase : r.phase = .table
  nleaf : r.nleaf ≠ 0#9
  build : exec .build r = .next t
  present : r.present = s.present
  freq : r.freq = s.freq
  nnodes : t.nnodes = s.nnodes
  root : t.root = s.root
  node : t.node = s.node

/-- The commands that follow `BUILD` in the encode sequence (R104). -/
def followsBuild : Instr → Bool
  | .gen | .mdwr | .emit _ | .fin => true
  | .rst | .cnt _ | .cntfin | .mdrd _ | .build | .cons _ | .endSource | .srcerr => false

/-- The commands that follow `BUILD` in the encode sequence write neither the table nor the tree (R21, R29, R30). -/
theorem execAll_keeps_table_and_tree (h : execAll is s = .next t) (his : ∀ i ∈ is, followsBuild i = true) :
    t.present = s.present ∧ t.freq = s.freq ∧ t.nnodes = s.nnodes ∧ t.root = s.root ∧ t.node = s.node := by
  induction is generalizing s with
  | nil => cases h; exact ⟨rfl, rfl, rfl, rfl, rfl⟩
  | cons i is ih =>
    cases hu : exec i s with
    | fault r => rw [execAll, hu] at h; cases h
    | refused r => rw [execAll, hu] at h; cases h
    | next u =>
      have hi := his i (by simp)
      obtain ⟨-, htree, -, htable, -⟩ := registersHaveTheirWriters i s u (by rintro rfl; cases hi) hu
      obtain ⟨hroot, hnnodes, hnode⟩ := htree (by rintro rfl; cases hi)
      obtain ⟨hpresent, hfreq, -⟩ :=
        htable (by rintro b rfl; cases hi) (by rintro rfl; cases hi) (by rintro b rfl; cases hi)
      have hrest := ih (execAll_cons hu ▸ h) fun j hj => his j (by simp [hj])
      rwa [hpresent, hfreq, hnnodes, hroot, hnode] at hrest

/-- The encode sequence ends with the tree of its table: after `BUILD` nothing writes the one or the other (R104). -/
theorem exists_builtFrom_of_encodeSequence (hx : ∀ b, (24#8 :: x).count b < 2 ^ 31)
    (h : execAll (encodeSequence x) s = .next t) : ∃ r u, t.BuiltFrom r u := by
  have hreset := restart_atReset s
  obtain ⟨r, hr, hf, hp, -, hnleaf, -, -, u, hu, -⟩ :=
    sentinelIsAlwaysCounted x (restart s) hreset.inv hreset.fault hreset.phase hx
  have hsplit : encodeSequence x =
      .rst :: ((cnts x ++ [.cntfin]) ++ .build :: (.gen :: .mdwr :: (emits x ++ [.fin]))) := by
    simp [encodeSequence]
  rw [hsplit, execAll_cons (exec_rst s), execAll_append, hr, andThen_next, execAll_cons hu] at h
  obtain ⟨hpresent, hfreq, hnnodes, hroot, hnode⟩ := execAll_keeps_table_and_tree h
    (by simp [emits, followsBuild, or_imp, forall_and])
  have hn : r.nleaf ≠ 0#9 := fun e => by simp [e] at hnleaf
  have htable := (hreset.inv.execAll hr).table
  obtain ⟨v, hv, -, -, hframe⟩ := buildMakesStrictTree r htable hf hp hn
  cases hv.symm.trans hu
  have hpresent' : u.present = r.present := by rw [hframe]
  have hfreq' : u.freq = r.freq := by rw [hframe]
  exact ⟨r, u, htable, hf, hp, hn, hu, (hpresent.trans hpresent').symm, (hfreq.trans hfreq').symm, hnnodes.symm,
    hroot.symm, hnode.symm⟩

/-- `BUILD` of the same table makes the same tree (R130). -/
theorem State.BuiltFrom.exec_build (h : s.BuiltFrom r v) (ht : t.TableOk) (hf : t.fault = .none)
    (hp : t.phase = .table) (hpresent : t.present = s.present)
    (hfreq : ∀ b, s.present.read b = true → t.freq.read b = s.freq.read b) :
    ∃ u, exec .build t = .next u ∧ u.nnodes = s.nnodes ∧ u.root = s.root ∧
      ∀ i < s.nnodes.toNat, u.node[i]? = s.node[i]? := by
  obtain ⟨v', u, hv', hu, hnnodes, hroot, hnode⟩ := buildDependsOnTableOnly r t h.table ht h.fault hf h.phase hp h.nleaf
    (hpresent.trans h.present.symm) fun b hb => by rw [h.freq]; exact hfreq b (h.present ▸ hb)
  cases hv'.symm.trans h.build
  rw [h.nnodes, h.node] at hnode
  exact ⟨u, hu, hnnodes.trans h.nnodes, hroot.trans h.root, hnode⟩

/-- A code leads to its byte in every arena with the same tree (R142 item 2). -/
theorem State.CodesOk.leadsTo_of_same_tree (h : s.CodesOk) (hr : s.TreeOk) (ht : s.TableOk) (hroot : t.root = s.root)
    (hnode : ∀ i < s.nnodes.toNat, t.node[i]? = s.node[i]?) (hb : s.present.read b = true) :
    t.leadsTo (s.codeOf b) b := by
  obtain ⟨es, hes, -⟩ := h.paths
  have hes' : t.leafPaths = .ok es := by
    rw [State.leafPaths, hroot, hr.walk_congr ht hnode _ hr.root_lt]
    exact hes
  obtain ⟨q, j, hq, hfollow, hbyte, -⟩ := walk_follow hes' _ (h.mem_leafPaths hes hb)
  obtain rfl : s.codeOf b = q := hq
  exact ⟨j, hfollow, hbyte⟩

/-! ### The decode sequence -/

/-- `END` after the metadata block ends the run (R203, R205). -/
theorem exec_endSource (hf : s.fault = .none) (hp : s.phase ∈ [.tree, .codes, .unpack]) :
    exec .endSource s = .next { s with phase := .done } := by
  have hphases : ∀ p ∈ [Phase.tree, .codes, .unpack],
      legalIn .endSource p = true ∧ ¬ (p = .idle ∨ p = .mdread) := by decide
  obtain ⟨hl, hne⟩ := hphases _ hp
  rw [exec_legal hf hl]
  exact if_neg hne

/-- The decode sequence over the stream of an encode run reads its table, builds its tree, with `CUR` at the root, and
takes the payload (R105). -/
theorem State.BuiltFrom.decodeRun_eq (h : s.BuiltFrom r v) (ht : s.TableOk) (hb : s.present.read b = true)
    (payload : List Byte) (s' : State) :
    ∃ u : State, u.Inv ∧ u.fault = .none ∧ u.phase = .tree ∧ u.cur = u.root ∧ u.out = [] ∧ u.nleaf = s.nleaf ∧
      u.root = s.root ∧ (∀ i < s.nnodes.toNat, u.node[i]? = s.node[i]?) ∧
      decodeRun (s.metadataBlock ++ payload) s' = execAll (conss payload ++ [.endSource]) u := by
  have hreset := restart_atReset s'
  obtain ⟨t, hrun, hf, hp, hout, hpresent, hfreq⟩ :=
    hreset.inv.execAll_blockOf hreset.fault hreset.phase (ht.isTable hb)
  have hinv := hreset.inv.execAll hrun
  have hpresent' : t.present = s.present := Table.ext fun c => by
    rw [hpresent, Bool.eq_iff_iff]
    simp
  have hnleaf : t.nleaf = s.nleaf :=
    BitVec.eq_of_toNat_eq (by rw [hinv.table.nleaf_eq, ht.nleaf_eq, keys_congr hpresent'])
  obtain ⟨u, hu, -, hroot, hnode⟩ := h.exec_build hinv.table hf hp hpresent' fun c hc =>
    hfreq _ (List.mem_map_of_mem (mem_keys.2 hc))
  obtain ⟨w, hw, -, hcur, hframe⟩ :=
    buildMakesStrictTree t hinv.table hf hp (hinv.table.nleaf_ne_zero (hpresent' ▸ hb))
  cases hw.symm.trans hu
  refine ⟨u, hinv.exec hu, by rw [hframe]; exact hf, by rw [hframe], hcur, by rw [hframe, hout, hreset.out],
    by rw [hframe, hnleaf], hroot, hnode, ?_⟩
  rw [ht.metadataBlock_eq, decodeRun, exec_rst, andThen_next, feedMetadata_append hrun hf hp, andThen_next,
    finishDecode, if_neg (by simp [hp]), List.append_assoc, List.singleton_append, execAll_cons hu]

/-! ### The pad bits -/

/-- Codes and pad bits split into the codes, one code of the all-zeros byte `z` for each `d` pad bits, and the pad bits
left over (R170, R171). -/
theorem splits_codes_and_padding {code : Byte → List Bool} {d : Nat} (hcode : ∀ b ∈ x, s.leadsTo (code b) b)
    (hz : s.leadsTo (List.replicate d false) z) (hd : 0 < d) (n : Nat) :
    s.Splits (x.flatMap code ++ List.replicate n false)
      (x.map (fun b => (b, code b)) ++ List.replicate (n / d) (z, List.replicate d false))
      (List.replicate (n % d) false) where
  bits_eq := by
    have hpad : List.replicate n false = List.replicate (n / d * d) false ++ List.replicate (n % d) false := by
      rw [← List.replicate_add, Nat.div_add_mod']
    simp [hpad, List.flatMap_map, List.flatMap_replicate]
  is_code c hc := by
    obtain hc | hc := List.mem_append.1 hc
    · obtain ⟨b, hb, rfl⟩ := List.mem_map.1 hc
      exact hcode b hb
    · obtain rfl := List.eq_of_mem_replicate hc
      exact hz
  no_more path b hpath hleads := by
    have hlt := Nat.mod_lt n hd
    have hprefix : path <+: List.replicate d false := hpath.trans ⟨List.replicate (d - n % d) false, by
      rw [← List.replicate_add]
      congr 1
      omega⟩
    obtain ⟨rfl, -⟩ := hleads.eq_of_prefix hz hprefix
    have := hpath.length_le
    simp only [List.length_replicate] at this
    omega

/-- What comes out of `x` and the `z`s of `n` pad bits, when the last byte needs a further bit (R171). -/
theorem dropLast_append_replicate_div {d : Nat} (x : List Byte) (z : Byte) (n : Nat) :
    (if List.replicate (n % d) false = [] then (x ++ List.replicate (n / d) z).dropLast
      else x ++ List.replicate (n / d) z) =
    if n = 0 then x.dropLast else x ++ List.replicate ((n - 1) / d) z := by
  cases n with
  | zero => simp
  | succ n =>
    have hrest : List.replicate ((n + 1) % d) false = [] ↔ d ∣ n + 1 := by
      rw [List.replicate_eq_nil_iff, Nat.dvd_iff_mod_eq_zero]
    simp only [hrest, Nat.succ_div, Nat.add_sub_cancel, Nat.add_one_ne_zero, if_false]
    split
    · rw [List.replicate_succ', ← List.append_assoc, List.dropLast_concat]
    · rfl

/-- Some byte has a code of zeros only: the code that a long enough sequence of zeros begins with (R142 item 5). -/
theorem State.CodesOk.exists_zero_code (h : s.CodesOk) (ht : s.TableOk) (hr : s.TreeOk) :
    ∃ z, s.present.read z = true ∧ s.codeOf z = List.replicate (s.codeOf z).length false := by
  obtain ⟨z, hz, hprefix⟩ := h.exists_codeOf_prefix ht hr (bits := List.replicate s.nleaf.toNat false) (by simp)
  exact ⟨z, hz, List.eq_replicate_of_mem fun bit hbit => List.eq_of_mem_replicate (hprefix.subset hbit)⟩

/-- Codes and `n` pad bits, decoded from the root of a tree with two leaves or more: the one split of the bits tells
what comes out (R170, R171). -/
theorem State.Inv.decodes_codes_and_padding (h : u.Inv) (hf : u.fault = .none) (hp : u.phase = .tree)
    (hcur : u.cur = u.root) (h2 : 2 ≤ u.nleaf.toNat) {code : Byte → List Bool} {d n : Nat}
    (hcode : ∀ b ∈ x, u.leadsTo (code b) b) (hz : u.leadsTo (List.replicate d false) z) (hd : 0 < d)
    (hbits : bitStream payload = x.flatMap code ++ List.replicate n false) :
    ∃ v, Machine.execAll (conss payload ++ [.endSource]) u = .next v ∧ v.completed ∧
      v.out = u.out ++ if n = 0 then x.dropLast else x ++ List.replicate ((n - 1) / d) z := by
  obtain ⟨⟨codes, rest, t, -, hunique, hrun, hframe, -⟩, -⟩ :=
    consDecodesCodes payload u h hf (by simp [hp]) h2 hcur
  obtain ⟨rfl, rfl⟩ := hunique _ _ (hbits ▸ splits_codes_and_padding hcode hz hd n)
  have htf : t.fault = .none := by rw [hframe]; exact hf
  have htp : t.phase ∈ [.tree, .codes, .unpack] := by rw [hframe]; by_cases hnil : payload = [] <;> simp [hnil, hp]
  refine ⟨{ t with phase := .done }, ?_, ⟨rfl, htf⟩, ?_⟩
  · rw [execAll_append, hrun, andThen_next, execAll_cons (exec_endSource htf htp)]
    rfl
  · rw [hframe, ← dropLast_append_replicate_div]
    simp [Function.comp_def]

/-! ### The law -/

/-- A payload of no bits is empty (R157). -/
theorem eq_nil_of_bitStream (h : bitStream payload = []) : payload = [] := by
  have hlen := bitStream_length payload
  rw [h, List.length_nil] at hlen
  exact List.length_eq_zero_iff.1 (by omega)

/-- Settles O54: the decode run has the tree of the encode run. With one leaf every code is empty, so there is no
payload; with more, the payload's bits are the codes of the input and the pad bits. -/
theorem roundTripLaw : Obligations.RoundTripLaw := by
  intro x s s' hx
  obtain ⟨t, payload, hinv, hcounts, hf, hp, hrun, hbits⟩ := execAll_encodeSequence x s hx
  have hcodes := hinv.codes (by rw [hp]; rfl)
  obtain ⟨htree, -⟩ := hinv.tree (by rw [hp]; rfl)
  have hkeys : ∀ b ∈ x, t.present.read b = true := fun b hb => by simp [hcounts.present, hb]
  obtain ⟨_, _, hbuilt⟩ := exists_builtFrom_of_encodeSequence hx hrun
  obtain ⟨z, hz, hzero⟩ := hcodes.exists_zero_code hinv.table htree
  obtain ⟨u, huinv, huf, hup, hucur, huout, hunleaf, huroot, hunode, hdecode⟩ :=
    State.BuiltFrom.decodeRun_eq (s := t) { hbuilt with } hinv.table hz payload s'
  have hleads : ∀ b, t.present.read b = true → u.leadsTo (t.codeOf b) b := fun b =>
    hcodes.leadsTo_of_same_tree htree hinv.table huroot hunode
  by_cases h1 : t.nleaf.toNat = 1
  · have hempty : ∀ b, t.present.read b = true → t.codeOf b = [] := fun b hb => by
      obtain ⟨-, -, hone, -⟩ := codeLengthsAreBounded t b hinv (by simp [hp]) hb
      exact hone h1
    have hflat : x.flatMap t.codeOf = [] := List.flatMap_eq_nil_iff.2 fun b hb => hempty b (hkeys b hb)
    have hpayload : payload = [] := eq_nil_of_bitStream (by rw [hbits, hflat]; rfl)
    subst hpayload
    refine ⟨_, { u with phase := .done }, z, hrun, hdecode.trans ?_, ⟨rfl, huf⟩, hz, hzero, ?_⟩
    · exact execAll_cons (exec_endSource huf (by simp [hup]))
    · exact huout.trans (if_pos h1).symm
  · have h2 : 2 ≤ t.nleaf.toNat := by have := htree.leaf_pos; omega
    obtain ⟨-, -, -, hmore⟩ := codeLengthsAreBounded t z hinv (by simp [hp]) hz
    have hd : 0 < (t.codeOf z).length := List.length_pos_iff.2 (hmore h2)
    obtain ⟨v, hv, hcompleted, hout⟩ := huinv.decodes_codes_and_padding huf hup hucur (hunleaf ▸ h2)
      (fun b hb => hleads b (hkeys b hb)) (hzero ▸ hleads z hz) hd hbits
    refine ⟨_, v, z, hrun, hdecode.trans hv, hcompleted, hz, hzero, ?_⟩
    rw [hout, huout]
    exact (if_neg h1).symm

end Sys2Proof.Machine
end

section
/-! SUPPORT. The metadata codec (spec/45_metadata_codec.md): what `MDRD` answers at each position of a block (R186,
R188, R189), what `MDWR` writes (R180, R181), and that a block of `MDWR` is read back as its table (R187, R190). -/

namespace Sys2Proof.Machine

variable {s t : State} {b : Byte} {k : Nat} {entries : List (Byte × Count)}

/-! ### `MDRD` at each position -/

theorem readSizeByte_of_lt_three (h : s.mdpos.toNat < 3) :
    readSizeByte b s =
      { s with phase := .mdread, mdword := insertByte s.mdword s.mdpos.toNat b, mdpos := s.mdpos + 1#11 } := by
  have h3 : s.mdpos ≠ 3#11 := fun e => by simp [e] at h
  exact if_neg h3

/-- The fourth byte of the size field completes the word, whose sign and size are then looked at (R188). -/
theorem readSizeByte_of_eq_three (h : s.mdpos.toNat = 3) {w : BitVec 32} (hw : w = insertByte s.mdword 3 b) :
    readSizeByte b s =
      if signed32 w < 0 then raise .malformedMetadata 1#8 s
      else if signed32 w > Config.maxSizeField then raise .malformedMetadata 2#8 s
      else { s with
        mdsize := w.extractLsb' 0 9, phase := if w = 0#32 then .table else .mdread, mdword := w, mdpos := 4#11 } := by
  have h3 : s.mdpos = 3#11 := BitVec.eq_of_toNat_eq h
  simp [readSizeByte, h3, hw]

theorem exec_mdrd_size (hf : s.fault = .none) (hp : s.phase ∈ [.idle, .mdread]) (h : s.mdpos.toNat < 4) :
    exec (.mdrd b) s = .next (readSizeByte b s) := by
  rw [execMdrd_reads hf (by simpa using hp), readMetadata_size h]

/-- Settles O31. -/
theorem mdrdReadsSizeField : Obligations.MdrdReadsSizeField := by
  intro b s hf hp hpos w hw
  rw [exec_mdrd_size hf hp hpos]
  refine ⟨fun h => ?_, fun h hneg => ?_, fun h hbig => ?_, fun h hnonneg hle => ?_⟩
  · rw [readSizeByte_of_lt_three h, hw]
  all_goals rw [readSizeByte_of_eq_three h (h ▸ hw)]
  · have hneg' : signed32 w < 0 := hneg
    rw [if_pos hneg']
    rfl
  · have hbig' : signed32 w > Config.maxSizeField := hbig
    have hnonneg : ¬ signed32 w < 0 := (Int.lt_trans (by decide) hbig').not_gt
    rw [if_neg hnonneg, if_pos hbig']
    rfl
  · have hnonneg' : ¬ signed32 w < 0 := hnonneg.not_gt
    have hle' : ¬ signed32 w > Config.maxSizeField := hle.not_gt
    rw [if_neg hnonneg', if_neg hle']
    exact ⟨_, rfl, rfl, extractLsb'_size (toNat_le_of_size hnonneg' hle'), rfl⟩

theorem exec_mdrd_key (hf : s.fault = .none) (hp : s.phase ∈ [.idle, .mdread]) (h4 : 4 ≤ s.mdpos.toNat)
    (hk : (s.mdpos.toNat - 4) % 5 = 0) : exec (.mdrd b) s = .next (readKeyByte b s) := by
  rw [execMdrd_reads hf (by simpa using hp), readMetadata_key (m := (s.mdpos.toNat - 4) / 5) (by omega)]

theorem exec_mdrd_count (hf : s.fault = .none) (hp : s.phase ∈ [.idle, .mdread]) (h4 : 4 ≤ s.mdpos.toNat)
    (hk : k = (s.mdpos.toNat - 4) % 5) (h1 : 1 ≤ k) : exec (.mdrd b) s = .next (readCountByte k b s) := by
  rw [execMdrd_reads hf (by simpa using hp),
    readMetadata_count (m := (s.mdpos.toNat - 4) / 5) (k := k) (by omega) h1 (by omega)]

/-- Settles O32. -/
theorem mdrdReadsEntry : Obligations.MdrdReadsEntry := by
  intro b s hf hp h4 k hk w hw
  refine ⟨fun h0 hold => ?_, fun h0 hnew => ?_, fun h1 h3 => ?_, fun h hneg => ?_, fun h hnonneg => ?_⟩
  · rw [exec_mdrd_key hf hp h4 (hk ▸ h0), readKeyByte, if_pos hold]
    rfl
  · rw [exec_mdrd_key hf hp h4 (hk ▸ h0), readKeyByte, if_neg (by simp [hnew])]
  · rw [exec_mdrd_count hf hp h4 hk h1, readCountByte, if_neg (by omega), hw]
  all_goals
    subst h
    rw [exec_mdrd_count hf hp h4 hk (by omega), readCountByte, if_pos rfl, ← hw]
  · have hneg' : signed32 w < 0 := hneg
    rw [if_pos hneg']
    rfl
  · have hnonneg' : ¬ signed32 w < 0 := hnonneg.not_gt
    rw [if_neg hnonneg']
    exact ⟨_, rfl, rfl, Table.read_write_same .., Table.read_write_same ..,
      fun c hc => ⟨Table.read_write_ne _ _ hc, Table.read_write_ne _ _ hc⟩⟩

/-! ### `MDWR` -/

/-- Each entry of a metadata block has five bytes (R67, R69). -/
theorem metadataBlock_length (s : State) : s.metadataBlock.length = 4 + 5 * s.keys.length := by
  simp [State.metadataBlock, metadataEntry, le32_length, List.length_flatMap, Nat.mul_comm]

/-- Settles O30. -/
theorem mdwrWritesMetadataBlock : Obligations.MdwrWritesMetadataBlock := fun s hf hp =>
  ⟨exec_mdwr hf hp, rfl, keys_sorted s, fun _ => mem_keys, fun h => h.nleaf_eq ▸ metadataBlock_length s⟩

/-! ### A block read back -/

/-- An answer handed on is a next state only if the first one is (R70). -/
theorem andThen_eq_next {α β : Type} {x : Host.Outcome α Fault Refusal} {f : α → Host.Outcome β Fault Refusal} {c : β}
    (h : andThen x f = .next c) : ∃ a, x = .next a ∧ f a = .next c := by
  cases x with
  | next a => exact ⟨a, rfl, h⟩
  | fault r => cases h
  | refused r => cases h

/-- A front of bytes that are all read with no fault leaves the reader without a fault in phase IDLE or MDREAD, since it
takes the byte after the front (R25, R226). -/
theorem execAll_mdrds_front {front bytes : List Byte} (h : execAll (mdrds bytes) s = .next t) (hf : t.fault = .none)
    (hfront : front <+: bytes) (hne : front ≠ bytes) :
    ∃ v, execAll (mdrds front) s = .next v ∧ v.fault = .none ∧ (v.phase = .idle ∨ v.phase = .mdread) := by
  obtain ⟨_ | ⟨b, rest⟩, rfl⟩ := hfront
  · exact absurd (List.append_nil front).symm hne
  · rw [mdrds, List.map_append, execAll_append] at h
    obtain ⟨v, hv, hrest⟩ := andThen_eq_next h
    exact ⟨v, hv, reads_of_execAll_mdrds hrest hf⟩

/-- A state whose keys are those of the entries counts them in `NLEAF` (R37 item 1). -/
theorem State.TableOk.nleaf_eq_length (h : s.TableOk) (hnodup : (entries.map Prod.fst).Nodup)
    (hpresent : ∀ b, s.present.read b = decide (b ∈ entries.map Prod.fst)) : s.nleaf.toNat = entries.length := by
  have hperm : s.keys.Perm (entries.map Prod.fst) :=
    (List.perm_ext_iff_of_nodup (keys_nodup s) hnodup).2 fun b => by rw [mem_keys, hpresent, decide_eq_true_iff]
  rw [h.nleaf_eq, hperm.length_eq, List.length_map]

/-- Settles O33. -/
theorem metadataBlockIsRead : Obligations.MetadataBlockIsRead := by
  intro entries s htable hinv hf hp
  obtain ⟨t, hrun, htf, htp, hout, hpresent, hfreq⟩ := hinv.execAll_blockOf hf hp htable
  obtain ⟨-, hnodup, -⟩ := htable
  refine ⟨⟨t, hrun, htf, htp, hout, hpresent, hfreq, ?_⟩, fun front hfront hne => ?_⟩
  · exact (hinv.execAll hrun).table.nleaf_eq_length hnodup hpresent
  · obtain ⟨v, hv, hvf, hvp⟩ := execAll_mdrds_front hrun htf hfront hne
    exact ⟨v, hv, hvf, fun e => by simp [e] at hvp⟩

/-- Settles O34: the block that `MDWR` writes is the block of the keys with their counts, a table with an entry, since
the tree of a state in phase CODES has a leaf. -/
theorem metadataRoundTrip : Obligations.MetadataRoundTrip := by
  intro s s' hinv hf hp hinv' hf' hp'
  obtain ⟨htree, -⟩ := hinv.tree (by rw [hp]; rfl)
  obtain ⟨b, hb⟩ := List.exists_mem_of_length_pos (hinv.table.nleaf_eq ▸ htree.leaf_pos)
  obtain ⟨⟨u, hrun, huf, hup, -, hpresent, hfreq, hnleaf⟩, hfronts⟩ :=
    metadataBlockIsRead _ s' (hinv.table.isTable (mem_keys.1 hb)) hinv' hf' hp'
  rw [← hinv.table.metadataBlock_eq] at hrun hfronts
  refine ⟨_, s.metadataBlock, u, exec_mdwr hf hp, rfl, hrun, huf, hup, Table.ext fun c => ?_, ?_, fun c hc => ?_,
    hfronts⟩
  · rw [hpresent, Bool.eq_iff_iff]
    simp
  · exact BitVec.eq_of_toNat_eq (by rw [hnleaf, List.length_map, hinv.table.nleaf_eq])
  · exact hfreq _ (List.mem_map_of_mem (mem_keys.2 hc))

end Sys2Proof.Machine
end

section
/-! SUPPORT. Run control (spec/46_run_control.md): what `END` and `SRCERR` answer (R203, R206), and that the decode
sequence (spec/30_encoding.md R105) reports a stream that ends inside or before its metadata block (R204). -/

namespace Sys2Proof.Machine

variable {s t : State} {bytes : List Byte}

/-- `END` inside or before the metadata block raises `MalformedMetadata(5)` (R203, R204). -/
theorem exec_endSource_metadata (hf : s.fault = .none) (hp : s.phase = .idle ∨ s.phase = .mdread) :
    exec .endSource s = .next (raise .malformedMetadata 5#8 s) := by
  have hl : legalIn .endSource s.phase = true := by rcases hp with h | h <;> rw [h] <;> rfl
  rw [exec_legal hf hl]
  exact if_pos hp

/-- Settles O44. -/
theorem endOfSourceOutcomes : Obligations.EndOfSourceOutcomes := fun _ hf =>
  ⟨fun hp => exec_endSource_metadata hf (by simpa using hp), exec_endSource hf⟩

/-- Settles O45: `SRCERR` is legal in every phase, so its own rule applies. -/
theorem srcerrRaisesSourceUnreadable : Obligations.SrcerrRaisesSourceUnreadable := fun _ hf =>
  exec_legal hf rfl

/-- `MDRD` outputs nothing (R33). -/
theorem execAll_mdrds_out (h : execAll (mdrds bytes) s = .next t) : t.out = s.out := by
  induction bytes generalizing s with
  | nil => cases h; rfl
  | cons b bytes ih =>
    obtain ⟨u, hu, hrest⟩ := andThen_eq_next h
    obtain ⟨-, hout⟩ := outputOnlyGrows (.mdrd b) s u (by simp) hu
    exact (ih hrest).trans (hout (by simp))

/-- The host's first loop sends every byte of a stream that the metadata reader takes with no fault (R105). -/
theorem feedMetadata_of_execAll_mdrds (h : execAll (mdrds bytes) s = .next t) (hf : t.fault = .none) :
    feedMetadata bytes s = .next (t, []) := by
  induction bytes generalizing s with
  | nil => cases h; rfl
  | cons b bytes ih =>
    obtain ⟨hs, hphase⟩ := reads_of_execAll_mdrds h hf
    have hgo : (s.statusPhase = phaseCode .idle ∨ s.statusPhase = phaseCode .mdread) ∧ s.statusFault = 0#4 := by
      simpa [phaseCode_inj, faultValue_eq_zero, hs] using hphase
    obtain ⟨u, hu, hrest⟩ := andThen_eq_next h
    rw [feedMetadata, if_pos hgo, hu, andThen_next]
    exact ih hrest

/-- A host whose first loop ends before phase TABLE sends `END`, which reports the truncated block (R105, R204). -/
theorem finishDecode_metadata (hf : s.fault = .none) (hp : s.phase = .idle ∨ s.phase = .mdread) (rest : List Byte) :
    finishDecode s rest = .next (raise .malformedMetadata 5#8 s) := by
  have htable : s.statusPhase ≠ phaseCode .table := by
    rw [statusPhase_eq, Ne, phaseCode_inj]
    rcases hp with h | h <;> simp [h]
  rw [finishDecode, if_pos htable, exec_endSource_metadata hf hp]

/-- Settles O35: the run that `RST` starts reads the whole block without a fault, so it reads the front of it without a
fault and is then still in phase IDLE or MDREAD, where the host sends `END`. -/
theorem truncatedMetadataIsReported : Obligations.TruncatedMetadataIsReported := by
  intro entries front s htable hfront hne
  have hreset := restart_atReset s
  obtain ⟨t, hrun, htf, -⟩ := hreset.inv.execAll_blockOf hreset.fault hreset.phase htable
  obtain ⟨v, hv, hvf, hvp⟩ := execAll_mdrds_front hrun htf hfront hne
  refine ⟨raise .malformedMetadata 5#8 v, ?_, rfl, rfl, ?_⟩
  · rw [decodeRun, exec_rst, andThen_next, feedMetadata_of_execAll_mdrds hv hvf, andThen_next,
      finishDecode_metadata hvf hvp]
  · exact (execAll_mdrds_out hv).trans hreset.out

end Sys2Proof.Machine
end

section
/-! SUPPORT. Faults (spec/60_exceptions.md): which ones a command raises and for what cause (R215, R216), that they are
precise (R225), and that a fault is left by `RST` and a hardware reset only (R226, R228). -/

namespace Sys2Proof.Machine

variable {i : Instr} {s t : State} {w : CommandWord} {p : Phase}

/-! ### An accepted word -/

/-- An accepted word is executed as the command with its opcode, or it is no command and is rejected (R95, R96). -/
theorem acceptWord_cases (w : CommandWord) (s : State) :
    (∃ i, decode w = .ok i ∧ w.op = i.opcode ∧ acceptWord w s = exec i s) ∨
    ((∀ i, decode w ≠ .ok i) ∧ acceptWord w s = .next (rejectReserved w.op s)) := by
  by_cases hrow : ∃ r ∈ opcodeMap, CommandWord.op r.pattern = w.op
  · obtain ⟨r, hr, hop⟩ := hrow
    have hdec := decode_of_row hr hop.symm
    exact .inl ⟨_, hdec, (decode_eq_ok_iff.1 hdec).1, acceptWord_of_decode hdec s⟩
  · have hdec := decode_reserved hrow
    exact .inr ⟨by simp [hdec], by simp [acceptWord, hdec]⟩

theorem rejectReserved_faulted {op : Byte} (hf : s.fault ≠ .none) : rejectReserved op s = s := if_pos hf

theorem rejectReserved_not_faulted {op : Byte} (hf : s.fault = .none) :
    rejectReserved op s = raise .illegalCommand op s := if_neg (not_not.2 hf)

/-! ### Where a fault comes from -/

/-- The faults a command can raise in a state, with the causes and the `FINFO` of the table of R216. -/
inductive Raises (s : State) : Instr → FaultCode → Byte → Prop where
  | illegal (i : Instr) (hl : legalIn i s.phase = false) : Raises s i .illegalSequence i.opcode
  | cnt (b : Byte) (hb : s.present.read b = true) (hc : s.freq.read b = Config.countMax) :
      Raises s (.cnt b) .countOverflow b
  | cntfin (hb : s.present.read Config.sentinel = true) (hc : s.freq.read Config.sentinel = Config.countMax) :
      Raises s .cntfin .countOverflow Config.sentinel
  | mdrd (b k : Byte) (hk : k ∈ [1#8, 2#8, 3#8, 4#8]) : Raises s (.mdrd b) .malformedMetadata k
  | build (hn : s.nleaf = 0#9) : Raises s .build .emptyAlphabet 0#8
  | emit (b : Byte) (hv : s.cvalid.read b = false) : Raises s (.emit b) .codeMissing b
  | endSource (hp : s.phase = .idle ∨ s.phase = .mdread) : Raises s .endSource .malformedMetadata 5#8
  | srcerr : Raises s .srcerr .sourceUnreadable 0#8

/-- Counting an occurrence leaves `FAULT` alone, or overflows at a full count (R110, R221). -/
theorem countOne_fault (b : Byte) (p : Phase) (s : State) :
    (countOne b p s).fault = s.fault ∨
    (s.present.read b = true ∧ s.freq.read b = Config.countMax ∧ countOne b p s = raise .countOverflow b s) := by
  obtain ⟨e, hb, hc⟩ | ⟨present, freq, nleaf, e⟩ := countOne_cases b p s
  · exact .inr ⟨hb, hc, e⟩
  · exact .inl (by rw [e])

/-- The own rule of a command leaves `FAULT` at 0, or raises a fault with nothing else written (R216, R225). -/
theorem ownRule_raises (hf : s.fault = .none) (hl : legalIn i s.phase = true) (h : ownRule i s = .next t) :
    t.fault = .none ∨ ∃ f info, Raises s i f info ∧ t = raise f info s := by
  have hc := ownRule_cases hl h
  cases i with
  | rst => exact .inl (hc ▸ restart_fault s)
  | cnt b =>
    obtain e | ⟨hb, hfull, e⟩ := countOne_fault b .count s
    · exact .inl (hc ▸ e.trans hf)
    · exact .inr ⟨_, _, .cnt b hb hfull, hc.trans e⟩
  | cntfin =>
    obtain e | ⟨hb, hfull, e⟩ := countOne_fault Config.sentinel .table s
    · exact .inl (hc ▸ e.trans hf)
    · exact .inr ⟨_, _, .cntfin hb hfull, hc.trans e⟩
  | mdrd b =>
    obtain ⟨k, hk, e⟩ | ⟨_, _, _, _, _, _, _, _, _, e⟩ := readMetadata_cases b s
    · exact .inr ⟨_, _, .mdrd b k hk, hc.trans e⟩
    · exact .inl (hc.trans e ▸ hf)
  | build =>
    obtain ⟨hn, e⟩ | ⟨-, _, _, _, _, e⟩ := hc
    · exact .inr ⟨_, _, .build hn, e⟩
    · exact .inl (e ▸ hf)
  | gen => obtain ⟨_, _, _, e⟩ := hc; exact .inl (e ▸ hf)
  | mdwr => exact .inl (hc ▸ hf)
  | emit b =>
    obtain ⟨hv, e⟩ | ⟨-, _, _, _, e⟩ := hc
    · exact .inr ⟨_, _, .emit b hv, e⟩
    · exact .inl (e ▸ hf)
  | fin => obtain ⟨_, _, _, e⟩ := hc; exact .inl (e ▸ hf)
  | cons p => obtain ⟨_, _, e⟩ := hc; exact .inl (e ▸ hf)
  | endSource =>
    obtain ⟨hp, e⟩ | ⟨-, e⟩ := hc
    · exact .inr ⟨_, _, .endSource hp, e⟩
    · exact .inl (e ▸ hf)
  | srcerr => exact .inr ⟨_, _, .srcerr, hc⟩

/-- A command leaves `FAULT` at 0, or raises a fault with nothing else written (R216, R225). -/
theorem exec_raises (hf : s.fault = .none) (h : exec i s = .next t) :
    t.fault = .none ∨ ∃ f info, Raises s i f info ∧ t = raise f info s := by
  cases hl : legalIn i s.phase with
  | true => exact ownRule_raises hf hl (exec_legal hf hl ▸ h)
  | false =>
    rw [exec_illegal hf hl] at h
    cases h
    exact .inr ⟨_, _, .illegal i hl, rfl⟩

/-- A fault that a word raises comes from the command it decodes to, or is `IllegalCommand` of a word that is no
command; nothing else is written (R216, R223, R225). -/
theorem acceptWord_raises (hf : s.fault = .none) (h : acceptWord w s = .next t) (ht : t.fault ≠ .none) :
    (∃ i f info, decode w = .ok i ∧ w.op = i.opcode ∧ Raises s i f info ∧ t = raise f info s) ∨
    ((∀ i, decode w ≠ .ok i) ∧ t = raise .illegalCommand w.op s) := by
  obtain ⟨i, hw, hop, e⟩ | ⟨hw, e⟩ := acceptWord_cases w s
  · obtain ⟨f, info, hr, rfl⟩ := (exec_raises hf (e ▸ h)).resolve_left ht
    exact .inl ⟨i, f, info, hw, hop, hr, rfl⟩
  · rw [e, rejectReserved_not_faulted hf] at h
    cases h
    exact .inr ⟨hw, rfl⟩

/-! ### The statements -/

/-- Settles O11: the word is a command other than `RST`, or it has a reserved opcode. -/
theorem faultedBlockIgnoresCommands : Obligations.FaultedBlockIgnoresCommands := by
  intro s w hf hop
  obtain ⟨i, -, hi, e⟩ | ⟨-, e⟩ := acceptWord_cases w s
  · have hrst : i ≠ .rst := by
      rintro rfl
      exact hop hi
    rw [e, exec_faulted hrst hf]
  · rw [e, rejectReserved_faulted hf]

/-- Settles O14: `raise` writes `FAULT` and `FINFO` alone. -/
theorem faultsArePrecise : Obligations.FaultsArePrecise := by
  intro w s t hf h ht
  obtain ⟨_, _, _, -, -, -, rfl⟩ | ⟨-, rfl⟩ := acceptWord_raises hf h ht <;> rfl

/-- Settles O15: the causes are the constructors of `Raises`, and a word that is no command has its own fault. -/
theorem faultInformation : Obligations.FaultInformation := by
  intro w s t hf h
  by_cases ht : t.fault = .none
  · rw [ht]
    trivial
  obtain ⟨i, f, info, hw, hop, hr, rfl⟩ | ⟨hw, rfl⟩ := acceptWord_raises hf h ht
  · cases hr with
    | illegal _ hl =>
      refine ⟨⟨i, hw, ?_, ?_, hl⟩, hop.symm⟩ <;>
      · rintro rfl
        cases hl
    | cnt _ _ hc => exact ⟨.inl hw, hc⟩
    | cntfin _ hc => exact ⟨.inr ⟨hw, rfl⟩, hc⟩
    | mdrd b _ hk => exact .inl ⟨⟨b, hw⟩, hk⟩
    | build hn => exact ⟨hw, hn, rfl⟩
    | emit _ hv => exact ⟨hw, hv⟩
    | endSource => exact .inr ⟨hw, rfl⟩
    | srcerr => exact ⟨hw, rfl⟩
  · exact ⟨hw, rfl⟩

/-- Settles O16: a word with another opcode than that of `RST` is ignored. -/
theorem faultStaysUntilRestart : Obligations.FaultStaysUntilRestart := by
  intro x s t h hf
  cases x with
  | hardwareReset => exact .inr (.inl rfl)
  | command w =>
    by_cases hop : w.extractLsb' 8 8 = 0x01#8
    · exact .inr (.inr ⟨w, rfl, hop⟩)
    · cases (faultedBlockIgnoresCommands s w hf hop).symm.trans h
      exact .inl ⟨rfl, rfl⟩

/-- Settles O7: `takeInput` answers the state itself when the line is empty. -/
theorem waitingChangesNothing : Obligations.WaitingChangesNothing := fun _ => step_of_pending_nil

/-- The phases with `X` in the row of `END` (R25). -/
theorem legalIn_endSource_eq_false (hp : p ∈ [.count, .table, .pack, .done]) : legalIn .endSource p = false := by
  revert p
  decide

/-- Settles O12: the phases are those in which `legalIn` forbids the command. -/
theorem illegalSequenceIsRaised : Obligations.IllegalSequenceIsRaised := by
  intro s hf
  refine ⟨fun b hp => exec_illegal (i := .cnt b) hf ?_, fun hp => exec_illegal (i := .cntfin) hf ?_,
    fun b hp => exec_illegal (i := .mdrd b) hf ?_, fun hp => exec_illegal (i := .build) hf ?_,
    fun hp => exec_illegal (i := .gen) hf ?_, fun hp => exec_illegal (i := .mdwr) hf ?_,
    fun b hp => exec_illegal (i := .emit b) hf ?_, fun hp => exec_illegal (i := .fin) hf ?_,
    fun p hp => exec_illegal (i := .cons p) hf ?_,
    fun hp => exec_illegal (i := .endSource) hf (legalIn_endSource_eq_false hp)⟩
  all_goals simpa [legalIn, and_assoc] using hp

end Sys2Proof.Machine
end

section
/-! SUPPORT. The hardware reset (spec/70_reset_and_hazards.md): it restarts the block, as `RST` does (R36, R245). -/

namespace Sys2Proof.Machine

theorem acceptInput_hardwareReset (s : State) : acceptInput .hardwareReset s = .next (restart s) := rfl

/-- Settles O8: a hardware reset and `RST` both answer `restart s`, which has the values of the reset table. -/
theorem hardwareResetActsAsRst : Obligations.HardwareResetActsAsRst := fun s =>
  ⟨(acceptInput_hardwareReset s).trans (exec_rst s).symm,
    restart s, acceptInput_hardwareReset s, restart_atReset s⟩

end Sys2Proof.Machine
end
